-- ==== Sys2Proof/Word.lean ====
section
/-! DEFINITION. The words of the engine's ports and status registers. A field element is no word: it is held by its
integer representative as a `Nat` (R20, R21): bit j is the coefficient of x^j. The rules compute with mathematical
integers (R10); that a stored element is below q = 2^M is the invariant `State.Wf` (DESIGN CHOICE, safe:
notes/assumptions/7.md). -/

namespace Sys2Proof

/-- A 32-bit word of the command port, the response port or a CSR; bit 0 is the least significant (R10, R70, R78). -/
abbrev Word := BitVec 32

end Sys2Proof
end

