-- ==== Sys2Proof/Config.lean ====
section
/-! DEFINITION. The implementation parameters of one engine instance (R6), as a plain record, and the named example
parameters of the spec (R9; 95_test_vectors.md). Which records are legal is `Params.check` in
Sys2Proof/Machine/Validity.lean. -/

namespace Sys2Proof

/-- The parameters of R6. `T` and `EMAX` are derived: `Params.t`, `Params.emax`. -/
structure Params where
  /-- field degree M -/
  m : Nat
  /-- IRRED: the irreducible polynomial as an integer, bit j the coefficient of x^j, bit M set -/
  irred : Nat
  /-- ALPHA: the primitive element -/
  alpha : Nat
  /-- codeword length N -/
  n : Nat
  /-- message length K -/
  k : Nat
  /-- GEN[0..T]: generator coefficients, index = power (R180) -/
  gen : List Nat
  /-- PMAX: capacity of a vector register in coefficients -/
  pmax : Nat
  /-- The fourth member of RSParameters: "not used by any command" (R6; C10; notes/assumptions/16.md). -/
  systematic : Bool
  deriving DecidableEq, Repr

namespace Params

/-- The field order q = 2^M (R6). -/
def q (p : Params) : Nat := 2 ^ p.m

/-- The parity length T = N − K (R6). -/
def t (p : Params) : Nat := p.n - p.k

/-- EMAX = ⌊T / 2⌋ (R6). -/
def emax (p : Params) : Nat := p.t / 2

/-- GEN[j], the generator's coefficient of x^j (R6, R180). -/
def genAt (p : Params) (j : Nat) : Nat := p.gen.getD j 0

/-- CFG-B (R9): GF(8) under x^3 + x + 1, N = 7, K = 3, Scenario B's generator literal. R9 gives no `systematic`: that it
is true, here and in the configurations below, is a DESIGN CHOICE (safe, nothing reads it: notes/assumptions/16.md). -/
def cfgB : Params :=
  { m := 3, irred := 0b1011, alpha := 2, n := 7, k := 3, gen := [5, 7, 7, 4, 1], pmax := 16, systematic := true }

/-- CFG-B' (95_test_vectors.md): CFG-B with the generator whose roots are α^3..α^6. -/
def cfgBPrime : Params := { cfgB with gen := [6, 1, 6, 7, 1] }

/-- CFG-K4 (95_test_vectors.md): K = 4, T = 3, EMAX = 1. -/
def cfgK4 : Params := { cfgB with k := 4, gen := [1, 1, 1, 1] }

/-- CFG-T1 (95_test_vectors.md): N = 4, K = 3, T = 1, EMAX = 0. -/
def cfgT1 : Params := { cfgB with n := 4, gen := [1, 1] }

/-- CFG-A (R9): GF(256) under x^8 + x^4 + x^3 + x^2 + 1, N = 192, K = 186. `systematic` as in CFG-B, a DESIGN CHOICE. -/
def cfgA : Params :=
  { m := 8, irred := 0x11D, alpha := 2, n := 192, k := 186, gen := [206, 177, 22, 98, 237, 175, 1], pmax := 256,
    systematic := true }

end Params

end Sys2Proof
end

