-- ==== Sys2Proof/Machine/Field.lean ====
section
/-! DEFINITION. The Galois-field arithmetic unit's functions on integer representatives (R100 to R104). Each takes the
parameters, of which it reads M and IRRED only (R8). -/

namespace Sys2Proof.Machine

/-- `gfadd` (R100): "addition is XOR"; subtraction is the same function. -/
def gfadd (a b : Nat) : Nat := a ^^^ b

/-- One turn of R101's loop on `a`: multiply by x, and subtract IRRED when the degree reaches M. -/
def gfxtimes (p : Params) (a : Nat) : Nat :=
  let d := a <<< 1
  if d.testBit p.m then d ^^^ p.irred else d

/-- The remaining `todo` turns of R101's loop, `b` shifted right once a turn so that its bit 0 is the bit the turn
tests; the value is what those turns add to `r`. -/
def gfmulLoop (p : Params) : (todo : Nat) → (a b : Nat) → Nat
  | 0, _, _ => 0
  | todo + 1, a, b => gfadd (if b.testBit 0 then a else 0) (gfmulLoop p todo (gfxtimes p a) (b >>> 1))

/-- `gfmul` (R101): the product as polynomials over GF(2) reduced modulo IRRED, by M turns of shift and add. -/
def gfmul (p : Params) (a b : Nat) : Nat := gfmulLoop p p.m a b

/-- Square and multiply over the binary digits of `n`, at most `digits` of them. -/
def gfpowLoop (p : Params) : (digits : Nat) → (a n : Nat) → Nat
  | 0, _, _ => 1
  | digits + 1, a, n =>
    if n = 0 then 1
    else
      let r := gfpowLoop p digits (gfmul p a a) (n / 2)
      if n % 2 = 1 then gfmul p a r else r

/-- `gfpow` (R104): the product of n copies of a, `gfpow(a, 0) = 1` for every a. Computed by square and multiply, which
R8 and R247 allow (DEDUCED, safe: notes/assumptions/10.md). -/
def gfpow (p : Params) (a : Nat) (n : Nat) : Nat := gfpowLoop p (n.log2 + 1) a n

/-- `gfinv` (R102): for b ≠ 0 "it equals gfpow(b, q − 2)". At 0, where R102 defines nothing, no command calls it
(DEDUCED, safe: notes/assumptions/8.md). -/
def gfinv (p : Params) (b : Nat) : Nat := gfpow p b (p.q - 2)

/-- `gfdiv` (R103): `gfmul(a, gfinv(b))`, for b ≠ 0. -/
def gfdiv (p : Params) (a b : Nat) : Nat := gfmul p a (gfinv p b)

/-- The `gfadd`-sum of a sequence of elements. -/
def gfsum (l : List Nat) : Nat := l.foldr gfadd 0

end Sys2Proof.Machine
end

