-- ==== Sys2Proof/Machine/Poly.lean ====
section
/-! DEFINITION. The polynomial unit's functions on non-empty coefficient sequences, index = power (R130 to R136). A
coefficient at or above the length reads as 0. -/

namespace Sys2Proof.Machine

/-- `a[j]`, "0 for j ≥ len(a)" (41_poly_vector.md section 1). -/
def coeff (a : List Nat) (j : Nat) : Nat := a.getD j 0

/-- A sequence without its highest-index zeros, down to the empty one. -/
def dropTopZeros : List Nat → List Nat
  | [] => []
  | c :: rest =>
    match dropTopZeros rest with
    | [] => if c = 0 then [] else [c]
    | top => c :: top

/-- `Trim` (R130): highest-index zeros removed "while the last one is zero and the length is above 1". -/
def trim (a : List Nat) : List Nat :=
  match dropTopZeros a with
  | [] => [0]
  | t => t

/-- `Deg` (R131): `len(Trim(a)) − 1`, 0 for a sequence of zeros. -/
def deg (a : List Nat) : Nat := (trim a).length - 1

/-- `IsZero` (R132): every coefficient is the field's zero. -/
def isZero (a : List Nat) : Bool := a.all (· == 0)

/-- `PolyAdd` (R133). -/
def polyAdd (a b : List Nat) : List Nat :=
  trim ((List.range (max a.length b.length)).map fun j => gfadd (coeff a j) (coeff b j))

/-- The coefficient of x^j of a product: the sum over 0 ≤ i ≤ j of `gfmul(a[i], b[j−i])` (R134). -/
def mulCoeff (p : Params) (a b : List Nat) (j : Nat) : Nat :=
  gfsum ((List.range (j + 1)).map fun i => gfmul p (coeff a i) (coeff b (j - i)))

/-- `PolyMul` (R134). -/
def polyMul (p : Params) (a b : List Nat) : List Nat :=
  trim ((List.range (a.length + b.length - 1)).map (mulCoeff p a b))

/-- `PolyEval` by Horner's rule (R135): from the highest index down, `r <- gfadd(gfmul(r, x), a[j])`. -/
def polyEval (p : Params) (a : List Nat) (x : Nat) : Nat :=
  a.foldr (fun c r => gfadd (gfmul p r x) c) 0

/-- R136's inner loop: `rem[s + j] <- gfadd(rem[s + j], gfmul(f, b[j]))` for every j; b has no coefficient above its
degree. -/
def subtractShifted (p : Params) (rem : List Nat) (s : Nat) (f : Nat) (b : List Nat) : List Nat :=
  rem.mapIdx fun i r => if s ≤ i then gfadd r (gfmul p f (coeff b (i - s))) else r

/-- R136's outer loop for the shifts below `todo`, from the highest down. -/
def divLoop (p : Params) (b : List Nat) : (todo : Nat) → (quo rem : List Nat) → List Nat × List Nat
  | 0, quo, rem => (quo, rem)
  | s + 1, quo, rem =>
    let db := b.length - 1
    let f := gfdiv p (coeff rem (s + db)) (coeff b db)
    divLoop p b s (quo.set s f) (subtractShifted p rem s f b)

/-- `PolyDivMod` (R136), for `IsZero(b)` false: long division of the canonical forms. -/
def polyDivMod (p : Params) (a b : List Nat) : List Nat × List Nat :=
  let a := trim a
  let b := trim b
  let da := a.length - 1
  let db := b.length - 1
  if da < db then ([0], a)
  else
    let r := divLoop p b (da - db + 1) (List.replicate (da - db + 1) 0) a
    (trim r.1, trim r.2)

end Sys2Proof.Machine
end

