-- ==== Sys2Proof/Machine/BerlekampWelch.lean ====
section
/-! DEFINITION. The Berlekamp–Welch decoder's functions: the linear solver (R161), the systems of the trials (R162), the
trial loop (R163), and the outcome (R164 to R167). -/

namespace Sys2Proof.Machine

/-! ## The linear solver (R161) -/

/-- Row r of a matrix; the empty row outside it. -/
def rowAt (w : List (List Nat)) (r : Nat) : List Nat := w.getD r []

/-- The least `r ≥ col` with `W[r][col] ≠ 0`. -/
def findPivot (w : List (List Nat)) (col : Nat) : Option Nat :=
  (List.range w.length).find? fun r => col ≤ r && coeff (rowAt w r) col != 0

/-- Rows i and j exchanged. -/
def swapRows (w : List (List Nat)) (i j : Nat) : List (List Nat) :=
  (w.set i (rowAt w j)).set j (rowAt w i)

/-- Row col divided by its entry in column col. -/
def normaliseRow (p : Params) (w : List (List Nat)) (col : Nat) : List (List Nat) :=
  let row := rowAt w col
  w.set col (row.map (gfmul p (gfinv p (coeff row col))))

/-- Every other row with a non-zero entry in column col, plus that entry times row col. -/
def eliminateColumn (p : Params) (w : List (List Nat)) (col : Nat) : List (List Nat) :=
  let pivot := rowAt w col
  w.mapIdx fun r row =>
    let f := coeff row col
    if r ≠ col ∧ f ≠ 0 then List.zipWith (fun x y => gfadd x (gfmul p f y)) row pivot else row

/-- The Gauss–Jordan loop of R161 over the columns in `cols`; none is SINGULAR. -/
def gaussJordan (p : Params) : (cols : List Nat) → List (List Nat) → Option (List (List Nat))
  | [], w => some w
  | col :: cols, w =>
    match findPivot w col with
    | none => none
    | some piv => gaussJordan p cols (eliminateColumn p (normaliseRow p (swapRows w col piv) col) col)

/-- `SolveUnique(A, rhs)` (R161): the solution, or none for SINGULAR. -/
def solveUnique (p : Params) (a : List (List Nat)) (rhs : List Nat) : Option (List Nat) :=
  let n := a.length
  match gaussJordan p (List.range n) (List.zipWith (fun row r => row ++ [r]) a rhs) with
  | none => none
  | some w => some (w.map fun row => coeff row n)

/-! ## The algorithm -/

/-- The evaluation point `pt[i] = gfpow(ALPHA, i)` (R160). -/
def evalPoint (p : Params) (i : Nat) : Nat := gfpow p p.alpha i

/-- Row i of the matrix for the trial e (R162): the e error-locator columns, then the N − e numerator columns. -/
def bwRow (p : Params) (cw : List Nat) (e i : Nat) : List Nat :=
  ((List.range e).map fun j => gfmul p (coeff cw i) (gfpow p (evalPoint p i) j)) ++
    ((List.range (p.n - e)).map fun j => gfpow p (evalPoint p i) j)

/-- The matrix A for the trial e (R162). -/
def bwMatrix (p : Params) (cw : List Nat) (e : Nat) : List (List Nat) := (List.range p.n).map (bwRow p cw e)

/-- The right-hand side for the trial e (R162). -/
def bwRhs (p : Params) (cw : List Nat) (e : Nat) : List Nat :=
  (List.range p.n).map fun i => gfmul p (coeff cw i) (gfpow p (evalPoint p i) e)

/-- The trial loop (R163) from the trial count given down to 0: the first e whose system has a unique solution, with the
solution. The trial e = 0 is accepted without solving, as R169 allows: its system is never singular and R165 does not
look at its solution (DEDUCED, safe: notes/assumptions/9.md). -/
def bwTrials (p : Params) (cw : List Nat) : (e : Nat) → Nat × List Nat
  | 0 => (0, [])
  | e + 1 =>
    match solveUnique p (bwMatrix p cw (e + 1)) (bwRhs p cw (e + 1)) with
    | some u => (e + 1, u)
    | none => bwTrials p cw e

/-- The result tuple of the decoder (R165 to R167): message, errors corrected (−1 for uncorrectable), success. -/
structure BwResult where
  msg : List Nat
  errs : Int
  success : Bool
  deriving DecidableEq, Repr

/-- Whether message position i is an error position: E(pt[i]) = 0 (R167). -/
def isErrorPosition (p : Params) (locator : List Nat) (i : Nat) : Bool :=
  polyEval p locator (evalPoint p i) == 0

/-- The correction (R167): F at the error positions among the K message positions, the received symbol elsewhere. -/
def bwCorrect (p : Params) (cw locator f : List Nat) : BwResult :=
  { msg := (List.range p.k).map fun i =>
      if isErrorPosition p locator i then polyEval p f (evalPoint p i) else coeff cw i
    errs := ((List.range p.k).countP (isErrorPosition p locator) : Nat)
    success := true }

/-- What follows an accepted trial (R164 to R167). -/
def bwFinish (p : Params) (cw : List Nat) (force : Bool) (e : Nat) (u : List Nat) : BwResult :=
  if e = 0 then { msg := cw.take p.k, errs := 0, success := true }
  else
    let numerator := trim (u.drop e)
    let locator := u.take e ++ [1]
    let fr := polyDivMod p numerator locator
    if !isZero fr.2 && !force then { msg := cw.take p.k, errs := -1, success := false }
    else bwCorrect p cw locator fr.1

/-- The decoder on a received word of N symbols (R163 to R167). -/
def bwDecode (p : Params) (cw : List Nat) (force : Bool) : BwResult :=
  let trial := bwTrials p cw p.emax
  bwFinish p cw force trial.1 trial.2

end Sys2Proof.Machine
end

