-- ==== Sys2Proof/Syntax.lean ====
section
/-! DEFINITION. The commands of the engine as syntax: one constructor of `Instr` per row of spec/opcode_table.json
(R74, R76), the opcodes, and the pseudo-instructions of R80. -/

namespace Sys2Proof

/-- The number of an element register, `e0` to `e15` (R20): a 4-bit field, all 16 values legal (R51). -/
abbrev EReg := Fin 16

/-- The number of a vector register, `v0` to `v15` (R22). -/
abbrev VReg := Fin 16

/-- The unsigned 16-bit immediate of format I, "used as it stands" (R72). -/
abbrev Imm16 := BitVec 16

/-- The 25 opcodes of R74, by mnemonic. -/
inductive Opcode where
  | gfli | gfalpha | gfadd | gfsub | gfneg | gfmul | gfdiv | gfpow | gfrd
  | vnew | vset | vget | vlen | padd | pmul | peval | pdivmod | ptrim | pisz
  | bwdec
  | lfclr | lfstep | lfflush | lfpar
  | csrr
  deriving DecidableEq, Repr

/-- The 25 commands with their operands in the order of R76, destinations first. -/
inductive Instr where
  /-- `GFLI ed, #imm` (R106) -/
  | gfli (ed : EReg) (imm : Imm16)
  /-- `GFALPHA ed` (R107) -/
  | gfalpha (ed : EReg)
  /-- `GFADD ed, ea, eb` (R108) -/
  | gfadd (ed ea eb : EReg)
  /-- `GFSUB ed, ea, eb` (R109) -/
  | gfsub (ed ea eb : EReg)
  /-- `GFNEG ed, ea` (R110) -/
  | gfneg (ed ea : EReg)
  /-- `GFMUL ed, ea, eb` (R111) -/
  | gfmul (ed ea eb : EReg)
  /-- `GFDIV ed, ea, eb` (R112) -/
  | gfdiv (ed ea eb : EReg)
  /-- `GFPOW ed, ea, #exp` (R113) -/
  | gfpow (ed ea : EReg) (exp : Imm16)
  /-- `GFRD ea` (R114) -/
  | gfrd (ea : EReg)
  /-- `VNEW vd, #len` (R137) -/
  | vnew (vd : VReg) (len : Imm16)
  /-- `VSET vd, es, #idx` (R138) -/
  | vset (vd : VReg) (es : EReg) (index : Imm16)
  /-- `VGET ed, vs, #idx` (R139) -/
  | vget (ed : EReg) (vs : VReg) (index : Imm16)
  /-- `VLEN vs` (R140) -/
  | vlen (vs : VReg)
  /-- `PADD vd, va, vb` (R141) -/
  | padd (vd va vb : VReg)
  /-- `PMUL vd, va, vb` (R142) -/
  | pmul (vd va vb : VReg)
  /-- `PEVAL ed, va, ex` (R146) -/
  | peval (ed : EReg) (va : VReg) (ex : EReg)
  /-- `PDIVMOD vq, va, vb, vr` (R143) -/
  | pdivmod (vq va vb vr : VReg)
  /-- `PTRIM vd, vs` (R144) -/
  | ptrim (vd vs : VReg)
  /-- `PISZ vs` (R145) -/
  | pisz (vs : VReg)
  /-- `BWDEC vd, vs, #force` (R168): the one bit FORCE of the immediate; the others are zero in a legal word (R76) -/
  | bwdec (vd vs : VReg) (force : Bool)
  /-- `LFCLR` (R183) -/
  | lfclr
  /-- `LFSTEP ed, es` (R181) -/
  | lfstep (ed es : EReg)
  /-- `LFFLUSH ed` (R182) -/
  | lfflush (ed : EReg)
  /-- `LFPAR vd` (R184) -/
  | lfpar (vd : VReg)
  /-- `CSRR #csr` (R200): the CSR number as it stands in the word; only 0 to 4 are legal (`Instr.WellFormed`) -/
  | csrr (csr : Imm16)
  deriving DecidableEq, Repr

namespace Instr

/-- The opcode of a command. -/
def opcode : Instr → Opcode
  | .gfli _ _ => .gfli
  | .gfalpha _ => .gfalpha
  | .gfadd _ _ _ => .gfadd
  | .gfsub _ _ _ => .gfsub
  | .gfneg _ _ => .gfneg
  | .gfmul _ _ _ => .gfmul
  | .gfdiv _ _ _ => .gfdiv
  | .gfpow _ _ _ => .gfpow
  | .gfrd _ => .gfrd
  | .vnew _ _ => .vnew
  | .vset _ _ _ => .vset
  | .vget _ _ _ => .vget
  | .vlen _ => .vlen
  | .padd _ _ _ => .padd
  | .pmul _ _ _ => .pmul
  | .peval _ _ _ => .peval
  | .pdivmod _ _ _ _ => .pdivmod
  | .ptrim _ _ => .ptrim
  | .pisz _ => .pisz
  | .bwdec _ _ _ => .bwdec
  | .lfclr => .lfclr
  | .lfstep _ _ => .lfstep
  | .lfflush _ => .lfflush
  | .lfpar _ => .lfpar
  | .csrr _ => .csrr

/-! The pseudo-instructions of R80, each with its one-command expansion. "There are no others." -/

/-- `GFZERO ed` is `GFLI ed, #0` (R80). -/
def gfzero (ed : EReg) : Instr := .gfli ed 0

/-- `GFONE ed` is `GFLI ed, #1` (R80). -/
def gfone (ed : EReg) : Instr := .gfli ed 1

/-- `BWDEC vd, vs` with two operands is `BWDEC vd, vs, #0` (R80). -/
def bwdecTwo (vd vs : VReg) : Instr := .bwdec vd vs false

/-- `BWDECF vd, vs` is `BWDEC vd, vs, #1` (R80). -/
def bwdecf (vd vs : VReg) : Instr := .bwdec vd vs true

end Instr

end Sys2Proof
end

