-- ==== Sys2Proof/WellFormed.lean ====
section
/-! DEFINITION. Which commands as syntax are commands of the engine. Register numbers, immediates and the FORCE bit are
in range by their types; the one check left is the CSR number (R75 (c), R51). -/

namespace Sys2Proof

/-- The largest CSR number, LFIDX's (10_state.md section 6; R75 (c)). -/
def lastCsr : Nat := 4

/-- The Boolean check that an instruction is a command of the engine: a CSR number names a CSR (R75 (c)). -/
def Instr.wf : Instr → Bool
  | .csrr csr => csr.toNat ≤ lastCsr
  | _ => true

/-- An instruction is a command of the engine. -/
abbrev Instr.WellFormed (i : Instr) : Prop := i.wf = true

end Sys2Proof
end

