-- ==== Sys2Proof/Decode.lean ====
section
/-! DEFINITION. Decoding of command words, total and rejecting by name (R70 to R77), the encoder beside it, and the
opcode table of R76 as masks and matches. -/

namespace Sys2Proof

/-! ## Fields of a word (R71, R72) -/

/-- Bits [31:24], the opcode of every command (R70). -/
def fieldOpcode (w : Word) : BitVec 8 := w.extractLsb' 24 8

/-- Bits [23:20], field `a`. -/
def fieldA (w : Word) : Fin 16 := (w.extractLsb' 20 4).toFin

/-- Bits [19:16], field `b`. -/
def fieldB (w : Word) : Fin 16 := (w.extractLsb' 16 4).toFin

/-- Bits [15:12], field `c` of format R. -/
def fieldC (w : Word) : Fin 16 := (w.extractLsb' 12 4).toFin

/-- Bits [11:8], field `d` of format R. -/
def fieldD (w : Word) : Fin 16 := (w.extractLsb' 8 4).toFin

/-- Bits [7:0], field `zero` of format R. -/
def fieldZero (w : Word) : BitVec 8 := w.extractLsb' 0 8

/-- Bits [15:0], `imm16` of format I. -/
def fieldImm (w : Word) : Imm16 := w.extractLsb' 0 16

/-! ## Opcodes (R74) -/

/-- The opcode values of R74. -/
def Opcode.byte : Opcode → BitVec 8
  | .gfli => 0x10
  | .gfalpha => 0x11
  | .gfadd => 0x12
  | .gfsub => 0x13
  | .gfneg => 0x14
  | .gfmul => 0x15
  | .gfdiv => 0x16
  | .gfpow => 0x17
  | .gfrd => 0x18
  | .vnew => 0x20
  | .vset => 0x21
  | .vget => 0x22
  | .vlen => 0x23
  | .padd => 0x24
  | .pmul => 0x25
  | .peval => 0x26
  | .pdivmod => 0x27
  | .ptrim => 0x28
  | .pisz => 0x29
  | .bwdec => 0x30
  | .lfclr => 0x40
  | .lfstep => 0x41
  | .lfflush => 0x42
  | .lfpar => 0x43
  | .csrr => 0x70

/-- The opcode an opcode byte names, none for the 231 bytes that are not in R74. -/
def Opcode.ofByte? (b : BitVec 8) : Option Opcode :=
  match b.toNat with
  | 0x10 => some .gfli
  | 0x11 => some .gfalpha
  | 0x12 => some .gfadd
  | 0x13 => some .gfsub
  | 0x14 => some .gfneg
  | 0x15 => some .gfmul
  | 0x16 => some .gfdiv
  | 0x17 => some .gfpow
  | 0x18 => some .gfrd
  | 0x20 => some .vnew
  | 0x21 => some .vset
  | 0x22 => some .vget
  | 0x23 => some .vlen
  | 0x24 => some .padd
  | 0x25 => some .pmul
  | 0x26 => some .peval
  | 0x27 => some .pdivmod
  | 0x28 => some .ptrim
  | 0x29 => some .pisz
  | 0x30 => some .bwdec
  | 0x40 => some .lfclr
  | 0x41 => some .lfstep
  | 0x42 => some .lfflush
  | 0x43 => some .lfpar
  | 0x70 => some .csrr
  | _ => none

/-! ## Decoding -/

/-- Why a word is illegal, the three cases of R75. All three raise ILLEGAL_CMD. -/
inductive DecodeError where
  /-- (a) the opcode is not one of the 25 -/
  | unknownOpcode
  /-- (b) a field or bit that must be zero is not -/
  | nonzeroField
  /-- (c) `CSRR` with a number above 0x0004 -/
  | unknownCsr
  deriving DecidableEq, Repr

/-- The instruction if its must-be-zero fields are zero (R73, R75 (b)). -/
def ifZero (fieldsZero : Bool) (i : Instr) : Except DecodeError Instr :=
  if fieldsZero then .ok i else .error .nonzeroField

/-- The operands of each command and the fields that must be zero, row by row as R76 gives them. -/
def decodeFields (op : Opcode) (w : Word) : Except DecodeError Instr :=
  match op with
  | .gfli => ifZero (fieldB w == 0) (.gfli (fieldA w) (fieldImm w))
  | .gfalpha => ifZero (fieldB w == 0 && fieldImm w == 0) (.gfalpha (fieldA w))
  | .gfadd => ifZero (fieldD w == 0 && fieldZero w == 0) (.gfadd (fieldA w) (fieldB w) (fieldC w))
  | .gfsub => ifZero (fieldD w == 0 && fieldZero w == 0) (.gfsub (fieldA w) (fieldB w) (fieldC w))
  | .gfneg => ifZero (fieldImm w == 0) (.gfneg (fieldA w) (fieldB w))
  | .gfmul => ifZero (fieldD w == 0 && fieldZero w == 0) (.gfmul (fieldA w) (fieldB w) (fieldC w))
  | .gfdiv => ifZero (fieldD w == 0 && fieldZero w == 0) (.gfdiv (fieldA w) (fieldB w) (fieldC w))
  | .gfpow => .ok (.gfpow (fieldA w) (fieldB w) (fieldImm w))
  | .gfrd => ifZero (fieldA w == 0 && fieldImm w == 0) (.gfrd (fieldB w))
  | .vnew => ifZero (fieldB w == 0) (.vnew (fieldA w) (fieldImm w))
  | .vset => .ok (.vset (fieldA w) (fieldB w) (fieldImm w))
  | .vget => .ok (.vget (fieldA w) (fieldB w) (fieldImm w))
  | .vlen => ifZero (fieldA w == 0 && fieldImm w == 0) (.vlen (fieldB w))
  | .padd => ifZero (fieldD w == 0 && fieldZero w == 0) (.padd (fieldA w) (fieldB w) (fieldC w))
  | .pmul => ifZero (fieldD w == 0 && fieldZero w == 0) (.pmul (fieldA w) (fieldB w) (fieldC w))
  | .peval => ifZero (fieldD w == 0 && fieldZero w == 0) (.peval (fieldA w) (fieldB w) (fieldC w))
  | .pdivmod => ifZero (fieldZero w == 0) (.pdivmod (fieldA w) (fieldB w) (fieldC w) (fieldD w))
  | .ptrim => ifZero (fieldImm w == 0) (.ptrim (fieldA w) (fieldB w))
  | .pisz => ifZero (fieldA w == 0 && fieldImm w == 0) (.pisz (fieldB w))
  | .bwdec => ifZero (w.extractLsb' 1 15 == 0) (.bwdec (fieldA w) (fieldB w) (w.getLsbD 0))
  | .lfclr => ifZero (fieldA w == 0 && fieldB w == 0 && fieldImm w == 0) .lfclr
  | .lfstep => ifZero (fieldImm w == 0) (.lfstep (fieldA w) (fieldB w))
  | .lfflush => ifZero (fieldB w == 0 && fieldImm w == 0) (.lfflush (fieldA w))
  | .lfpar => ifZero (fieldB w == 0 && fieldImm w == 0) (.lfpar (fieldA w))
  | .csrr =>
    if (fieldImm w).toNat ≤ lastCsr then ifZero (fieldA w == 0 && fieldB w == 0) (.csrr (fieldImm w))
    else .error .unknownCsr

/-- The instruction a command word stands for, or why it is illegal (R75 to R77). It depends on no state. -/
def decode (w : Word) : Except DecodeError Instr :=
  match Opcode.ofByte? (fieldOpcode w) with
  | none => .error .unknownOpcode
  | some op => decodeFields op w

/-! ## Encoding -/

/-- A register number as its 4-bit field. -/
def regBits (r : Fin 16) : BitVec 4 := BitVec.ofFin r

/-- A word of format R (R71): opcode, a, b, c, d, zero. -/
def encodeR (op : Opcode) (a b c d : Fin 16) : Word :=
  op.byte ++ regBits a ++ regBits b ++ regBits c ++ regBits d ++ (0 : BitVec 8)

/-- A word of format I (R72): opcode, a, b, imm16. -/
def encodeI (op : Opcode) (a b : Fin 16) (imm : Imm16) : Word :=
  op.byte ++ regBits a ++ regBits b ++ imm

/-- The word of an instruction (R76). It is the one word that decodes to it, so it is also the word the fault
procedure stores in FCMD (R212; DEDUCED, safe: notes/assumptions/6.md). -/
def encode : Instr → Word
  | .gfli ed imm => encodeI .gfli ed 0 imm
  | .gfalpha ed => encodeR .gfalpha ed 0 0 0
  | .gfadd ed ea eb => encodeR .gfadd ed ea eb 0
  | .gfsub ed ea eb => encodeR .gfsub ed ea eb 0
  | .gfneg ed ea => encodeR .gfneg ed ea 0 0
  | .gfmul ed ea eb => encodeR .gfmul ed ea eb 0
  | .gfdiv ed ea eb => encodeR .gfdiv ed ea eb 0
  | .gfpow ed ea exp => encodeI .gfpow ed ea exp
  | .gfrd ea => encodeR .gfrd 0 ea 0 0
  | .vnew vd len => encodeI .vnew vd 0 len
  | .vset vd es index => encodeI .vset vd es index
  | .vget ed vs index => encodeI .vget ed vs index
  | .vlen vs => encodeR .vlen 0 vs 0 0
  | .padd vd va vb => encodeR .padd vd va vb 0
  | .pmul vd va vb => encodeR .pmul vd va vb 0
  | .peval ed va ex => encodeR .peval ed va ex 0
  | .pdivmod vq va vb vr => encodeR .pdivmod vq va vb vr
  | .ptrim vd vs => encodeR .ptrim vd vs 0 0
  | .pisz vs => encodeR .pisz 0 vs 0 0
  | .bwdec vd vs force => encodeI .bwdec vd vs (if force then 1 else 0)
  | .lfclr => encodeR .lfclr 0 0 0 0
  | .lfstep ed es => encodeR .lfstep ed es 0 0
  | .lfflush ed => encodeR .lfflush ed 0 0 0
  | .lfpar vd => encodeR .lfpar vd 0 0 0
  | .csrr csr => encodeI .csrr 0 0 csr

/-! ## The opcode table of R76 -/

/-- The `mask` column of R76 (and of spec/opcode_table.json). -/
def Opcode.mask : Opcode → Word
  | .gfli => 0xFF0F0000
  | .gfalpha => 0xFF0FFFFF
  | .gfadd => 0xFF000FFF
  | .gfsub => 0xFF000FFF
  | .gfneg => 0xFF00FFFF
  | .gfmul => 0xFF000FFF
  | .gfdiv => 0xFF000FFF
  | .gfpow => 0xFF000000
  | .gfrd => 0xFFF0FFFF
  | .vnew => 0xFF0F0000
  | .vset => 0xFF000000
  | .vget => 0xFF000000
  | .vlen => 0xFFF0FFFF
  | .padd => 0xFF000FFF
  | .pmul => 0xFF000FFF
  | .peval => 0xFF000FFF
  | .pdivmod => 0xFF0000FF
  | .ptrim => 0xFF00FFFF
  | .pisz => 0xFFF0FFFF
  | .bwdec => 0xFF00FFFE
  | .lfclr => 0xFFFFFFFF
  | .lfstep => 0xFF00FFFF
  | .lfflush => 0xFF0FFFFF
  | .lfpar => 0xFF0FFFFF
  | .csrr => 0xFFFF0000

/-- The `match` column of R76. -/
def Opcode.matchWord : Opcode → Word
  | .gfli => 0x10000000
  | .gfalpha => 0x11000000
  | .gfadd => 0x12000000
  | .gfsub => 0x13000000
  | .gfneg => 0x14000000
  | .gfmul => 0x15000000
  | .gfdiv => 0x16000000
  | .gfpow => 0x17000000
  | .gfrd => 0x18000000
  | .vnew => 0x20000000
  | .vset => 0x21000000
  | .vget => 0x22000000
  | .vlen => 0x23000000
  | .padd => 0x24000000
  | .pmul => 0x25000000
  | .peval => 0x26000000
  | .pdivmod => 0x27000000
  | .ptrim => 0x28000000
  | .pisz => 0x29000000
  | .bwdec => 0x30000000
  | .lfclr => 0x40000000
  | .lfstep => 0x41000000
  | .lfflush => 0x42000000
  | .lfpar => 0x43000000
  | .csrr => 0x70000000

/-- R76's test that a word is in a row of the table: `word & mask == match`. -/
def Opcode.selects (op : Opcode) (w : Word) : Bool := w &&& op.mask == op.matchWord

/-! ## The host's reading of a table row -/

/-- The instruction the decoder reads from a table word of `nbits` bits. Every command is one 32-bit word (R70), whose
bits a shorter row leaves zero above `nbits`; no byte order arises, since the port carries the word in parallel (R52). -/
def decodeTableWord (nbits w : Nat) : Option Instr :=
  if nbits ≤ 32 ∧ w < 2 ^ nbits then
    match decode (BitVec.ofNat 32 w) with
    | .ok i => some i
    | .error _ => none
  else none

end Sys2Proof
end

