-- ==== Sys2Proof/Machine/Validity.lean ====
section
/-! DEFINITION. Which parameter records are legal (R6, R7, U1), as a check that runs, and the type of legal
configurations. -/

namespace Sys2Proof.Machine

/-! ## Irreducibility over GF(2), by trial division (notes/assumptions/15.md) -/

/-- The steps of the division of `a` by `d` as polynomials over GF(2) for the shifts below `todo`. -/
def gf2ModLoop (d : Nat) : (todo : Nat) → (a : Nat) → Nat
  | 0, a => a
  | s + 1, a => gf2ModLoop d s (if a.testBit (s + d.log2) then a ^^^ (d <<< s) else a)

/-- The remainder of `a` by `d ≠ 0` as polynomials over GF(2). -/
def gf2Mod (a d : Nat) : Nat := gf2ModLoop d (a.log2 + 1 - d.log2) a

/-- `f` is irreducible over GF(2) of degree `m`: it has degree m and no divisor of a degree from 1 to m / 2. -/
def irreducibleOfDegree (f m : Nat) : Bool :=
  f.log2 == m && f != 0 && (List.range (2 ^ (m / 2 + 1))).all fun d => d < 2 || gf2Mod f d != 0

end Sys2Proof.Machine

namespace Sys2Proof

open Machine

/-- The powers ALPHA^0 .. ALPHA^(q−2) (R6). -/
def Params.alphaPowers (p : Params) : List Nat := (List.range (p.q - 1)).map (gfpow p p.alpha)

/-- Every constraint of R6: the degree, the irreducible polynomial, the primitive element, `1 ≤ K < N < q`, a generator
of T + 1 elements whose top coefficient is not zero, and `N ≤ PMAX ≤ 65535`. -/
def Params.check (p : Params) : Bool :=
  decide (2 ≤ p.m) && decide (p.m ≤ 16) && irreducibleOfDegree p.irred p.m &&
    decide (1 ≤ p.alpha) && decide (p.alpha < p.q) && decide p.alphaPowers.Nodup &&
    decide (1 ≤ p.k) && decide (p.k < p.n) && decide (p.n < p.q) &&
    decide (p.gen.length = p.t + 1) && p.gen.all (fun c => decide (c < p.q)) && p.genAt p.t != 0 &&
    decide (p.n ≤ p.pmax) && decide (p.pmax ≤ 65535)

/-- A legal configuration: parameters with the proof that R6 holds of them. "A configuration that breaks any constraint
of rule R6 is outside this spec: a model refuses it" (R7, U1): here it cannot be built (notes/assumptions/3.md). -/
structure Config where
  params : Params
  legal : params.check = true
  deriving DecidableEq, Repr

namespace Config

/-- CFG-B is legal. -/
theorem cfgB_legal : Params.cfgB.check = true := by decide

/-- CFG-B' is legal. -/
theorem cfgBPrime_legal : Params.cfgBPrime.check = true := by decide

/-- CFG-K4 is legal. -/
theorem cfgK4_legal : Params.cfgK4.check = true := by decide

/-- CFG-T1 is legal. -/
theorem cfgT1_legal : Params.cfgT1.check = true := by decide

/-- CFG-A is legal. -/
theorem cfgA_legal : Params.cfgA.check = true := by decide +kernel

/-- The configuration CFG-B (R9). -/
def cfgB : Config := ⟨.cfgB, cfgB_legal⟩

/-- The configuration CFG-B' (95_test_vectors.md). -/
def cfgBPrime : Config := ⟨.cfgBPrime, cfgBPrime_legal⟩

/-- The configuration CFG-K4 (95_test_vectors.md). -/
def cfgK4 : Config := ⟨.cfgK4, cfgK4_legal⟩

/-- The configuration CFG-T1 (95_test_vectors.md). -/
def cfgT1 : Config := ⟨.cfgT1, cfgT1_legal⟩

/-- The configuration CFG-A (R9). -/
def cfgA : Config := ⟨.cfgA, cfgA_legal⟩

end Config

end Sys2Proof
end

