-- ==== Sys2Proof/Machine/State.lean ====
section
/-! DEFINITION. The state of the engine and its reset values (10_state.md), the response record (R78), the host's inputs
(R248), the fault codes' names (R210), and the reasons a step of the model can stop. -/

namespace Sys2Proof.Machine

/-- The fault causes of R210, codes 1 to 8. A fault of the engine is no stop of the model: it is a next state (R212). -/
inductive FaultCode where
  /-- 1: the command word is illegal (R75) -/
  | illegalCmd
  /-- 2: `GFLI` with an integer not in [0, q) -/
  | elemRange
  /-- 3: `GFDIV` by zero, `PDIVMOD` by the zero polynomial -/
  | divZero
  /-- 4: `VNEW` with length 0 or above PMAX, `BWDEC` of a vector that is not N symbols long -/
  | length
  /-- 5: `VSET` or `VGET` at or above the vector's length -/
  | index
  /-- 6: `LFSTEP` or `LFFLUSH` when idx = N -/
  | exhausted
  /-- 7: `PMUL` with a canonical product longer than PMAX -/
  | vecOverflow
  /-- 8: `PDIVMOD` with one register as both destinations -/
  | operandAlias
  deriving DecidableEq, Repr

/-- The `status` bit of a response (R78): 0 = OK, 1 = FAULT. -/
inductive Status where
  | ok
  | fault
  deriving DecidableEq, Repr

/-- A response record (R78). -/
structure Response where
  status : Status
  code : BitVec 8
  data : Word
  deriving DecidableEq, Repr

/-- What the host does at the engine (R248): present a command word, or assert reset between commands. -/
inductive HostInput where
  | command (w : Word)
  | reset
  deriving DecidableEq, Repr

/-- The state. The fields from `e` to `bwsucc` are all the spec gives the machine (10_state.md section 1); `cfg`, `port`
and `responses` are the model's own (notes/assumptions/1.md, 4.md, 5.md). -/
structure State where
  /-- the instance's configuration (R6): constant, no step changes it -/
  cfg : Config
  /-- element registers e[0..15] (R20) -/
  e : Vector Nat 16
  /-- vector registers v[0..15], each the sequence of its coefficients (R22) -/
  v : Vector (List Nat) 16
  /-- LFSR parity register par[0..T−1] (R28) -/
  par : List Nat
  /-- LFSR index idx (R29); `csr.LFIDX` is a view of it (R35) -/
  idx : Nat
  /-- `csr.FCAUSE.CODE`, bits [7:0]; the others are hardwired 0 (R31) -/
  fcause : BitVec 8
  /-- `csr.FCMD` (R32) -/
  fcmd : Word
  /-- `csr.BWERRS` (R33) -/
  bwerrs : Word
  /-- `csr.BWSUCC.SUCC`, bit [0]; the others are hardwired 0 (R34) -/
  bwsucc : Bool
  /-- what the host has yet to do, oldest first (R248, R249) -/
  port : List HostInput
  /-- the responses given so far, oldest first (R78, R249) -/
  responses : List Response
  deriving DecidableEq, Repr

/-- Why the model stops with a fault: never. Every fault of the spec is a next state (R212, R217), so no reason exists
(safe: no stop hides a behaviour). -/
inductive Fault where
  deriving DecidableEq, Repr

/-- Why the model refuses. -/
inductive Refusal where
  /-- An instruction without a meaning, raised by its arm of `exec`: no arm raises it, since every instruction has its
  meaning (safe). -/
  | notModelled (mnemonic : String)
  deriving DecidableEq, Repr

/-- The state after reset of an instance with a given configuration (R37, R240). -/
def State.resetOf (cfg : Config) : State :=
  { cfg := cfg
    e := Vector.replicate 16 0
    v := Vector.replicate 16 [0]
    par := List.replicate cfg.params.t 0
    idx := 0
    fcause := 0
    fcmd := 0
    bwerrs := 0
    bwsucc := false
    port := []
    responses := [] }

/-- The state after reset of the example instance CFG-B (R9). The spec leaves the configuration OPEN; which one this
constant takes is a DESIGN CHOICE (unsafe for a claim about it alone: notes/assumptions/2.md). -/
def State.reset : State := State.resetOf .cfgB

end Sys2Proof.Machine
end

