-- ==== Sys2Proof/Machine/Operands.lean ====
section
/-! DEFINITION. Operand forms (R51, R72): register operands, the immediate as an integer, and the widening of integers
to words (R10). Sources are read from the state before the command (R12). -/

namespace Sys2Proof.Machine

/-- `zext_32(v)`: an unsigned value widened to 32 bits with zeros (R10). -/
def zext32 (v : Nat) : Word := BitVec.ofNat 32 v

/-- `sext_32(v)`: a signed integer as a 32-bit two's-complement word, `sext_32(−1) = 0xFFFFFFFF` (R10). -/
def sext32 (v : Int) : Word := BitVec.ofInt 32 v

/-- `imm16` "used as it stands: it is never sign-extended, scaled or shifted" (R72). -/
def immValue (imm : Imm16) : Nat := imm.toNat

/-- The parameters of the instance. -/
def State.params (s : State) : Params := s.cfg.params

/-- `e[r]` as a source (R11). -/
def State.readE (s : State) (r : EReg) : Nat := s.e[r]

/-- `v[r].c` as a source, whose length is `v[r].len` (R11, R22). -/
def State.readV (s : State) (r : VReg) : List Nat := s.v[r]

end Sys2Proof.Machine
end

