-- ==== Sys2Proof/Machine/Flags.lean ====
section
/-! DEFINITION. "The engine has no flags, condition codes or predicate registers" (R26). What takes their place: Boolean
answers as words. -/

namespace Sys2Proof.Machine

/-- A Boolean answer in response data or a status register, 1 for true (R34, R145). -/
def boolWord (b : Bool) : Word := if b then 1 else 0

/-- The zero-test's answer, which "leaves no state" (R26, R145). -/
def zeroTestWord (a : List Nat) : Word := boolWord (isZero a)

end Sys2Proof.Machine
end

