-- ==== Sys2Proof/Machine/Ops.lean ====
section
/-! DEFINITION. The named operations every command is made of: writes to the registers, reads of a status register, the
response, the fault procedure (R212) and reset (R240). There is no memory (R50) and no return from a fault (R214). -/

namespace Sys2Proof.Machine

/-- How a step of the model ends. -/
abbrev Result := Host.Outcome State Fault Refusal

namespace State

/-- `e[r] <- x` (R11). -/
def writeE (s : State) (r : EReg) (x : Nat) : State := { s with e := s.e.set r x }

/-- `v[r] <- c`, the whole sequence: "its length becomes len(s)" (R11). -/
def writeV (s : State) (r : VReg) (c : List Nat) : State := { s with v := s.v.set r c }

/-- `par <- par', idx <- idx'` (R181 to R183). -/
def writeLfsr (s : State) (par : List Nat) (idx : Nat) : State := { s with par := par, idx := idx }

/-- BWERRS and BWSUCC, "written together" (R33, R34). -/
def writeBw (s : State) (errs : Int) (success : Bool) : State :=
  { s with bwerrs := sext32 errs, bwsucc := success }

/-- The response leaves the engine: it is appended to what the host has been answered (R78, R249). -/
def respond (s : State) (r : Response) : State := { s with responses := s.responses ++ [r] }

/-- The 32-bit value `CSRR` reads at a CSR number, none where no CSR has it (10_state.md section 6, R200). -/
def csrValue (s : State) (number : Nat) : Option Word :=
  match number with
  | 0 => some (s.fcause.setWidth 32)
  | 1 => some s.fcmd
  | 2 => some s.bwerrs
  | 3 => some (boolWord s.bwsucc)
  | 4 => some (zext32 s.idx)
  | _ => none

end State

/-- The 8-bit code of a fault (R210). -/
def FaultCode.byte : FaultCode → BitVec 8
  | .illegalCmd => 1
  | .elemRange => 2
  | .divZero => 3
  | .length => 4
  | .index => 5
  | .exhausted => 6
  | .vecOverflow => 7
  | .operandAlias => 8

/-- `resp <- (OK, 0, data)` at the end of a command whose writes are in `s`. -/
def complete (s : State) (data : Word) : Result := .next (s.respond ⟨.ok, 0, data⟩)

/-- The fault procedure `raise Fault(code)` (R212) of the command word `w`: FCAUSE, FCMD and the response; "Nothing else
changes", and the engine is ready for the next command at once. -/
def raiseFault (code : FaultCode) (w : Word) (s : State) : Result :=
  .next (State.respond { s with fcause := code.byte, fcmd := w } ⟨.fault, code.byte, 0⟩)

/-- Reset between commands (R240): every piece of state at its value of R37, the configuration untouched, no response.
What the host has yet to do and what it was answered are the host's and stay (notes/assumptions/13.md). -/
def takeReset (s : State) : State :=
  { State.resetOf s.cfg with port := s.port, responses := s.responses }

/-- The next input is taken from the command port. -/
def State.withPort (s : State) (port : List HostInput) : State := { s with port := port }

end Sys2Proof.Machine
end

