-- ==== Sys2Proof/Machine/Decoder.lean ====
section
/-! DEFINITION. The meaning of the Berlekamp–Welch decode (R168). -/

namespace Sys2Proof.Machine

/-- `BWDEC` (R168): LENGTH unless the source has exactly N symbols; the message as it is, not trimmed; the error count in
BWERRS and in the response. -/
def execBwdec (vd vs : VReg) (force : Bool) (s : State) : Result :=
  if (s.readV vs).length ≠ s.params.n then raiseFault .length (encode (.bwdec vd vs force)) s
  else
    let r := bwDecode s.params (s.readV vs) force
    complete ((s.writeV vd r.msg).writeBw r.errs r.success) (sext32 r.errs)

end Sys2Proof.Machine
end

