-- ==== Sys2Proof/Machine/Lfsr.lean ====
section
/-! DEFINITION. The LFSR encoder's recurrences on the parity register (R181, R182) and the block reference encoder
(R187). -/

namespace Sys2Proof.Machine

/-- The feedback `g` of R181: `(m + par[T−1]) · GEN[T]`. -/
def lfFeedback (p : Params) (par : List Nat) (m : Nat) : Nat :=
  gfmul p (gfadd m (coeff par (p.t - 1))) (p.genAt p.t)

/-- The register after `LFSTEP` with symbol m (R181). -/
def lfStepReg (p : Params) (par : List Nat) (m : Nat) : List Nat :=
  let g := lfFeedback p par m
  (List.range p.t).map fun j =>
    match j with
    | 0 => gfmul p g (p.genAt 0)
    | j + 1 => gfadd (coeff par j) (gfmul p g (p.genAt (j + 1)))

/-- The output symbol of `LFSTEP` (R181): m in the message phase, the top cell after the update in the parity phase. -/
def lfStepOut (p : Params) (par : List Nat) (idx : Nat) (m : Nat) : Nat :=
  if idx < p.k then m else coeff (lfStepReg p par m) (p.t - 1)

/-- The register after `LFFLUSH` (R182): `[0] ++ par[0 .. T−2]`. -/
def lfFlushReg (p : Params) (par : List Nat) : List Nat := 0 :: par.take (p.t - 1)

/-- The output symbol of `LFFLUSH` (R182): the top cell before the shift. -/
def lfFlushOut (p : Params) (par : List Nat) : Nat := coeff par (p.t - 1)

/-- The remainder of R187, padded with zeros to T coefficients. -/
def blockRemainder (p : Params) (msg : List Nat) : List Nat :=
  let rem := (polyDivMod p (List.replicate p.t 0 ++ msg.reverse) p.gen).2
  rem ++ List.replicate (p.t - rem.length) 0

/-- `BlockEnc` (R187): the message, then the remainder of Mx · x^T by GEN from its highest power down. -/
def blockEnc (p : Params) (msg : List Nat) : List Nat := msg ++ (blockRemainder p msg).reverse

end Sys2Proof.Machine
end

