-- ==== Sys2Proof/Machine/Encoder.lean ====
section
/-! DEFINITION. The meanings of the LFSR encoder commands (43_lfsr_encoder.md). -/

namespace Sys2Proof.Machine

/-- `LFCLR` (R183): "it never faults on state". -/
def execLfclr (s : State) : Result := complete (s.writeLfsr (List.replicate s.params.t 0) 0) 0

/-- `LFSTEP` (R181). -/
def execLfstep (ed es : EReg) (s : State) : Result :=
  if s.idx = s.params.n then raiseFault .exhausted (encode (.lfstep ed es)) s
  else
    let out := lfStepOut s.params s.par s.idx (s.readE es)
    complete ((s.writeLfsr (lfStepReg s.params s.par (s.readE es)) (s.idx + 1)).writeE ed out) (zext32 out)

/-- `LFFLUSH` (R182). -/
def execLfflush (ed : EReg) (s : State) : Result :=
  if s.idx = s.params.n then raiseFault .exhausted (encode (.lfflush ed)) s
  else
    let out := lfFlushOut s.params s.par
    complete ((s.writeLfsr (lfFlushReg s.params s.par) (s.idx + 1)).writeE ed out) (zext32 out)

/-- `LFPAR` (R184): the register as it is, not trimmed. -/
def execLfpar (vd : VReg) (s : State) : Result := complete (s.writeV vd s.par) 0

end Sys2Proof.Machine
end

