-- ==== Sys2Proof/Machine/Scalar.lean ====
section
/-! DEFINITION. The meanings of the field commands (40_gf_scalar.md). -/

namespace Sys2Proof.Machine

/-- `GFLI` (R106): an integer not in [0, q) is refused, not reduced. -/
def execGfli (ed : EReg) (imm : Imm16) (s : State) : Result :=
  if s.params.q ≤ immValue imm then raiseFault .elemRange (encode (.gfli ed imm)) s
  else complete (s.writeE ed (immValue imm)) 0

/-- `GFALPHA` (R107). -/
def execGfalpha (ed : EReg) (s : State) : Result := complete (s.writeE ed s.params.alpha) 0

/-- `GFADD` (R108). -/
def execGfadd (ed ea eb : EReg) (s : State) : Result :=
  complete (s.writeE ed (gfadd (s.readE ea) (s.readE eb))) 0

/-- `GFSUB` (R109): "identical to GFADD". -/
def execGfsub (ed ea eb : EReg) (s : State) : Result :=
  complete (s.writeE ed (gfadd (s.readE ea) (s.readE eb))) 0

/-- `GFNEG` (R110): −x = x in characteristic 2. -/
def execGfneg (ed ea : EReg) (s : State) : Result := complete (s.writeE ed (s.readE ea)) 0

/-- `GFMUL` (R111). -/
def execGfmul (ed ea eb : EReg) (s : State) : Result :=
  complete (s.writeE ed (gfmul s.params (s.readE ea) (s.readE eb))) 0

/-- `GFDIV` (R112): DIV_ZERO on a zero divisor "whatever the dividend". -/
def execGfdiv (ed ea eb : EReg) (s : State) : Result :=
  if s.readE eb = 0 then raiseFault .divZero (encode (.gfdiv ed ea eb)) s
  else complete (s.writeE ed (gfdiv s.params (s.readE ea) (s.readE eb))) 0

/-- `GFPOW` (R113). -/
def execGfpow (ed ea : EReg) (exp : Imm16) (s : State) : Result :=
  complete (s.writeE ed (gfpow s.params (s.readE ea) (immValue exp))) 0

/-- `GFRD` (R114). -/
def execGfrd (ea : EReg) (s : State) : Result := complete s (zext32 (s.readE ea))

end Sys2Proof.Machine
end

