-- ==== Sys2Proof/Machine/System.lean ====
section
/-! DEFINITION. The meaning of the system command (R200). -/

namespace Sys2Proof.Machine

/-- `CSRR` (R200): a number that names no CSR is an ILLEGAL_CMD fault. -/
def execCsrr (csr : Imm16) (s : State) : Result :=
  match s.csrValue (immValue csr) with
  | some value => complete s value
  | none => raiseFault .illegalCmd (encode (.csrr csr)) s

end Sys2Proof.Machine
end

