-- ==== Sys2Proof/Machine/Vectors.lean ====
section
/-! DEFINITION. The meanings of the vector and polynomial commands (41_poly_vector.md). -/

namespace Sys2Proof.Machine

/-- `VNEW` (R137). -/
def execVnew (vd : VReg) (len : Imm16) (s : State) : Result :=
  if immValue len < 1 ∨ s.params.pmax < immValue len then raiseFault .length (encode (.vnew vd len)) s
  else complete (s.writeV vd (List.replicate (immValue len) 0)) 0

/-- `VSET` (R138): "the vector is never extended". -/
def execVset (vd : VReg) (es : EReg) (index : Imm16) (s : State) : Result :=
  if (s.readV vd).length ≤ immValue index then raiseFault .index (encode (.vset vd es index)) s
  else complete (s.writeV vd ((s.readV vd).set (immValue index) (s.readE es))) 0

/-- `VGET` (R139): "a coefficient above the length is not read as zero". -/
def execVget (ed : EReg) (vs : VReg) (index : Imm16) (s : State) : Result :=
  if (s.readV vs).length ≤ immValue index then raiseFault .index (encode (.vget ed vs index)) s
  else complete (s.writeE ed (coeff (s.readV vs) (immValue index))) 0

/-- `VLEN` (R140). -/
def execVlen (vs : VReg) (s : State) : Result := complete s (zext32 (s.readV vs).length)

/-- `PADD` (R141). -/
def execPadd (vd va vb : VReg) (s : State) : Result :=
  complete (s.writeV vd (polyAdd (s.readV va) (s.readV vb))) 0

/-- `PMUL` (R142): VEC_OVERFLOW when the canonical product is longer than PMAX; "the product is not truncated". -/
def execPmul (vd va vb : VReg) (s : State) : Result :=
  if s.params.pmax < (polyMul s.params (s.readV va) (s.readV vb)).length then
    raiseFault .vecOverflow (encode (.pmul vd va vb)) s
  else complete (s.writeV vd (polyMul s.params (s.readV va) (s.readV vb))) 0

/-- `PEVAL` (R146). -/
def execPeval (ed : EReg) (va : VReg) (ex : EReg) (s : State) : Result :=
  complete (s.writeE ed (polyEval s.params (s.readV va) (s.readE ex))) 0

/-- `PDIVMOD` (R143): OPERAND_ALIAS, then DIV_ZERO (R213), then both results. -/
def execPdivmod (vq va vb vr : VReg) (s : State) : Result :=
  if vq = vr then raiseFault .operandAlias (encode (.pdivmod vq va vb vr)) s
  else if isZero (s.readV vb) then raiseFault .divZero (encode (.pdivmod vq va vb vr)) s
  else
    let qr := polyDivMod s.params (s.readV va) (s.readV vb)
    complete ((s.writeV vq qr.1).writeV vr qr.2) 0

/-- `PTRIM` (R144). -/
def execPtrim (vd vs : VReg) (s : State) : Result := complete (s.writeV vd (trim (s.readV vs))) 0

/-- `PISZ` (R145). -/
def execPisz (vs : VReg) (s : State) : Result := complete s (zeroTestWord (s.readV vs))

end Sys2Proof.Machine
end

