-- ==== Sys2Proof/Machine/Dispatch.lean ====
section
/-! DEFINITION. One arm per instruction (R74): the meaning of each in its family's file. -/

namespace Sys2Proof.Machine

def exec (i : Instr) (s : State) : Host.Outcome State Fault Refusal :=
  match i with
  | .gfli ed imm => Sys2Proof.Machine.execGfli ed imm s
  | .gfalpha ed => Sys2Proof.Machine.execGfalpha ed s
  | .gfadd ed ea eb => Sys2Proof.Machine.execGfadd ed ea eb s
  | .gfsub ed ea eb => Sys2Proof.Machine.execGfsub ed ea eb s
  | .gfneg ed ea => Sys2Proof.Machine.execGfneg ed ea s
  | .gfmul ed ea eb => Sys2Proof.Machine.execGfmul ed ea eb s
  | .gfdiv ed ea eb => Sys2Proof.Machine.execGfdiv ed ea eb s
  | .gfpow ed ea exp => Sys2Proof.Machine.execGfpow ed ea exp s
  | .gfrd ea => Sys2Proof.Machine.execGfrd ea s
  | .vnew vd len => Sys2Proof.Machine.execVnew vd len s
  | .vset vd es index => Sys2Proof.Machine.execVset vd es index s
  | .vget ed vs index => Sys2Proof.Machine.execVget ed vs index s
  | .vlen vs => Sys2Proof.Machine.execVlen vs s
  | .padd vd va vb => Sys2Proof.Machine.execPadd vd va vb s
  | .pmul vd va vb => Sys2Proof.Machine.execPmul vd va vb s
  | .peval ed va ex => Sys2Proof.Machine.execPeval ed va ex s
  | .pdivmod vq va vb vr => Sys2Proof.Machine.execPdivmod vq va vb vr s
  | .ptrim vd vs => Sys2Proof.Machine.execPtrim vd vs s
  | .pisz vs => Sys2Proof.Machine.execPisz vs s
  | .bwdec vd vs force => Sys2Proof.Machine.execBwdec vd vs force s
  | .lfclr => Sys2Proof.Machine.execLfclr s
  | .lfstep ed es => Sys2Proof.Machine.execLfstep ed es s
  | .lfflush ed => Sys2Proof.Machine.execLfflush ed s
  | .lfpar vd => Sys2Proof.Machine.execLfpar vd s
  | .csrr csr => Sys2Proof.Machine.execCsrr csr s

end Sys2Proof.Machine
end

