-- ==== Sys2Proof/Machine/Step.lean ====
section
/-! DEFINITION. One step of the machine: the next thing the host does at the port (R3, R248). -/

namespace Sys2Proof.Machine

/-- One step. A command word runs to completion with one response, an illegal word raising ILLEGAL_CMD "before any state
is read" (R57, R75, R213); a reset takes the reset state (R240); with nothing at the port "the engine idles with all
state kept" (R225). -/
def step (s : State) : Host.Outcome State Fault Refusal :=
  match s.port with
  | [] => .next s
  | .reset :: rest => .next (takeReset (s.withPort rest))
  | .command w :: rest =>
    match decode w with
    | .ok i => exec i (s.withPort rest)
    | .error _ => raiseFault .illegalCmd w (s.withPort rest)

/-- The state whose next step runs the word `w`: the host presents it first (notes/assumptions/4.md). -/
def State.withFetchWord (s : State) (nbits w : Nat) : State :=
  s.withPort (.command (BitVec.ofNat 32 (w % 2 ^ nbits)) :: s.port)

end Sys2Proof.Machine
end

