-- ==== Sys2Proof/Machine/Assembler.lean ====
section
/-! DEFINITION. The assembler's text (R79) and its pseudo-instructions (R80): how an instruction is written, and the
command word a line stands for. Text is a list of characters. What R79 leaves open (white space, the case of hexadecimal
digits) is settled in notes/assumptions/18.md. -/

namespace Sys2Proof.Machine

/-- The mnemonics of R74, "in upper case" (R79). -/
def mnemonic : Opcode → String
  | .gfli => "GFLI"
  | .gfalpha => "GFALPHA"
  | .gfadd => "GFADD"
  | .gfsub => "GFSUB"
  | .gfneg => "GFNEG"
  | .gfmul => "GFMUL"
  | .gfdiv => "GFDIV"
  | .gfpow => "GFPOW"
  | .gfrd => "GFRD"
  | .vnew => "VNEW"
  | .vset => "VSET"
  | .vget => "VGET"
  | .vlen => "VLEN"
  | .padd => "PADD"
  | .pmul => "PMUL"
  | .peval => "PEVAL"
  | .pdivmod => "PDIVMOD"
  | .ptrim => "PTRIM"
  | .pisz => "PISZ"
  | .bwdec => "BWDEC"
  | .lfclr => "LFCLR"
  | .lfstep => "LFSTEP"
  | .lfflush => "LFFLUSH"
  | .lfpar => "LFPAR"
  | .csrr => "CSRR"

/-! ## Writing -/

/-- A register: `e0` to `e15`, `v0` to `v15` (R79). -/
def regText (file : Char) (r : Fin 16) : List Char := file :: Nat.toDigits 10 r.val

/-- An immediate: `#` and a decimal number (R79). -/
def immText (n : Nat) : List Char := '#' :: Nat.toDigits 10 n

/-- The operands of an instruction in the order of R76. -/
def operandTexts : Instr → List (List Char)
  | .gfli ed imm => [regText 'e' ed, immText imm.toNat]
  | .gfalpha ed => [regText 'e' ed]
  | .gfadd ed ea eb => [regText 'e' ed, regText 'e' ea, regText 'e' eb]
  | .gfsub ed ea eb => [regText 'e' ed, regText 'e' ea, regText 'e' eb]
  | .gfneg ed ea => [regText 'e' ed, regText 'e' ea]
  | .gfmul ed ea eb => [regText 'e' ed, regText 'e' ea, regText 'e' eb]
  | .gfdiv ed ea eb => [regText 'e' ed, regText 'e' ea, regText 'e' eb]
  | .gfpow ed ea exp => [regText 'e' ed, regText 'e' ea, immText exp.toNat]
  | .gfrd ea => [regText 'e' ea]
  | .vnew vd len => [regText 'v' vd, immText len.toNat]
  | .vset vd es index => [regText 'v' vd, regText 'e' es, immText index.toNat]
  | .vget ed vs index => [regText 'e' ed, regText 'v' vs, immText index.toNat]
  | .vlen vs => [regText 'v' vs]
  | .padd vd va vb => [regText 'v' vd, regText 'v' va, regText 'v' vb]
  | .pmul vd va vb => [regText 'v' vd, regText 'v' va, regText 'v' vb]
  | .peval ed va ex => [regText 'e' ed, regText 'v' va, regText 'e' ex]
  | .pdivmod vq va vb vr => [regText 'v' vq, regText 'v' va, regText 'v' vb, regText 'v' vr]
  | .ptrim vd vs => [regText 'v' vd, regText 'v' vs]
  | .pisz vs => [regText 'v' vs]
  | .bwdec vd vs force => [regText 'v' vd, regText 'v' vs, immText (if force then 1 else 0)]
  | .lfclr => []
  | .lfstep ed es => [regText 'e' ed, regText 'e' es]
  | .lfflush ed => [regText 'e' ed]
  | .lfpar vd => [regText 'v' vd]
  | .csrr csr => [immText csr.toNat]

/-- The operands with commas between them. -/
def joinOperands : List (List Char) → List Char
  | [] => []
  | [o] => o
  | o :: os => o ++ [',', ' '] ++ joinOperands os

/-- The line of an instruction: `MNEMONIC operand, operand, ...` (R79). -/
def instrText (i : Instr) : List Char :=
  (mnemonic i.opcode).toList ++ ' ' :: joinOperands (operandTexts i)

/-! ## Reading -/

/-- White space inside a line. -/
def isBlank (c : Char) : Bool := c == ' ' || c == '\t'

/-- The text without white space at its ends. -/
def trimBlanks (cs : List Char) : List Char :=
  ((cs.dropWhile isBlank).reverse.dropWhile isBlank).reverse

/-- The sixteen digits in order: a digit's value is its place. -/
def digitChars : List Char := "0123456789ABCDEF".toList

/-- The value of a digit of either case (notes/assumptions/18.md); the base then says which digits it has. -/
def digitValue (c : Char) : Option Nat := digitChars.idxOf? c.toUpper

/-- The digits of a number in a base, most significant first, after the value `acc` of those already read. -/
def readDigits (base : Nat) : (acc : Nat) → List Char → Option Nat
  | acc, [] => some acc
  | acc, c :: cs =>
    match digitValue c with
    | some d => if d < base then readDigits base (acc * base + d) cs else none
    | none => none

/-- A number of at least one digit. -/
def readNumber (base : Nat) : List Char → Option Nat
  | [] => none
  | cs => readDigits base 0 cs

/-- An immediate: "`#` followed by a decimal number or `0x` and a hexadecimal number" (R79), of 16 bits (R72). -/
def readImm (cs : List Char) : Option Imm16 :=
  let n := match cs with
    | '#' :: '0' :: 'x' :: hex => readNumber 16 hex
    | '#' :: dec => readNumber 10 dec
    | _ => none
  match n with
  | some n => if n < 2 ^ 16 then some (BitVec.ofNat 16 n) else none
  | none => none

/-- A register of a file, one of the sixteen spellings of R79. -/
def readReg (file : Char) (cs : List Char) : Option (Fin 16) :=
  (List.finRange 16).find? fun r => regText file r == cs

/-- The CSR names of R79 and their numbers. -/
def csrNames : List (String × Nat) :=
  [("#FCAUSE", 0), ("#FCMD", 1), ("#BWERRS", 2), ("#BWSUCC", 3), ("#LFIDX", 4)]

/-- The operand of `CSRR`: a CSR's name or a number (R79). -/
def readCsr (cs : List Char) : Option Imm16 :=
  match csrNames.find? fun entry => entry.1.toList == cs with
  | some entry => some (BitVec.ofNat 16 entry.2)
  | none => readImm cs

/-- One register of the element file, then the word. -/
def withE (cs : List Char) (k : EReg → Option Word) : Option Word := (readReg 'e' cs).bind k

/-- One register of the vector file, then the word. -/
def withV (cs : List Char) (k : VReg → Option Word) : Option Word := (readReg 'v' cs).bind k

/-- One immediate, then the word. -/
def withImm (cs : List Char) (k : Imm16 → Option Word) : Option Word := (readImm cs).bind k

/-- The word of a mnemonic with its operand texts. It is built field by field, so a line may also spell an illegal word
(`CSRR #5`, `BWDEC v2, v1, #2`), as program P4 of 95_test_vectors.md does. -/
def assembleCommand (op : Opcode) (operands : List (List Char)) : Option Word :=
  match op, operands with
  | .gfli, [d, i] => withE d fun d => withImm i fun i => some (encodeI .gfli d 0 i)
  | .gfalpha, [d] => withE d fun d => some (encodeR .gfalpha d 0 0 0)
  | .gfadd, [d, a, b] => withE d fun d => withE a fun a => withE b fun b => some (encodeR .gfadd d a b 0)
  | .gfsub, [d, a, b] => withE d fun d => withE a fun a => withE b fun b => some (encodeR .gfsub d a b 0)
  | .gfneg, [d, a] => withE d fun d => withE a fun a => some (encodeR .gfneg d a 0 0)
  | .gfmul, [d, a, b] => withE d fun d => withE a fun a => withE b fun b => some (encodeR .gfmul d a b 0)
  | .gfdiv, [d, a, b] => withE d fun d => withE a fun a => withE b fun b => some (encodeR .gfdiv d a b 0)
  | .gfpow, [d, a, i] => withE d fun d => withE a fun a => withImm i fun i => some (encodeI .gfpow d a i)
  | .gfrd, [a] => withE a fun a => some (encodeR .gfrd 0 a 0 0)
  | .vnew, [d, i] => withV d fun d => withImm i fun i => some (encodeI .vnew d 0 i)
  | .vset, [d, s, i] => withV d fun d => withE s fun s => withImm i fun i => some (encodeI .vset d s i)
  | .vget, [d, s, i] => withE d fun d => withV s fun s => withImm i fun i => some (encodeI .vget d s i)
  | .vlen, [s] => withV s fun s => some (encodeR .vlen 0 s 0 0)
  | .padd, [d, a, b] => withV d fun d => withV a fun a => withV b fun b => some (encodeR .padd d a b 0)
  | .pmul, [d, a, b] => withV d fun d => withV a fun a => withV b fun b => some (encodeR .pmul d a b 0)
  | .peval, [d, a, x] => withE d fun d => withV a fun a => withE x fun x => some (encodeR .peval d a x 0)
  | .pdivmod, [q, a, b, r] =>
    withV q fun q => withV a fun a => withV b fun b => withV r fun r => some (encodeR .pdivmod q a b r)
  | .ptrim, [d, s] => withV d fun d => withV s fun s => some (encodeR .ptrim d s 0 0)
  | .pisz, [s] => withV s fun s => some (encodeR .pisz 0 s 0 0)
  | .bwdec, [d, s] => withV d fun d => withV s fun s => some (encode (.bwdecTwo d s))
  | .bwdec, [d, s, i] => withV d fun d => withV s fun s => withImm i fun i => some (encodeI .bwdec d s i)
  | .lfclr, [] => some (encodeR .lfclr 0 0 0 0)
  | .lfstep, [d, s] => withE d fun d => withE s fun s => some (encodeR .lfstep d s 0 0)
  | .lfflush, [d] => withE d fun d => some (encodeR .lfflush d 0 0 0)
  | .lfpar, [d] => withV d fun d => some (encodeR .lfpar d 0 0 0)
  | .csrr, [i] => (readCsr i).bind fun i => some (encodeI .csrr 0 0 i)
  | _, _ => none

/-- All opcodes, in the order of R76. -/
def allOpcodes : List Opcode :=
  [.gfli, .gfalpha, .gfadd, .gfsub, .gfneg, .gfmul, .gfdiv, .gfpow, .gfrd, .vnew, .vset, .vget, .vlen, .padd, .pmul,
    .peval, .pdivmod, .ptrim, .pisz, .bwdec, .lfclr, .lfstep, .lfflush, .lfpar, .csrr]

/-- The word of a mnemonic or pseudo-instruction (R80) with its operand texts. -/
def assembleWords (name : List Char) (operands : List (List Char)) : Option Word :=
  if name = "GFZERO".toList then
    match operands with
    | [d] => withE d fun d => some (encode (.gfzero d))
    | _ => none
  else if name = "GFONE".toList then
    match operands with
    | [d] => withE d fun d => some (encode (.gfone d))
    | _ => none
  else if name = "BWDECF".toList then
    match operands with
    | [d, s] => withV d fun d => withV s fun s => some (encode (.bwdecf d s))
    | _ => none
  else
    match allOpcodes.find? fun op => (mnemonic op).toList == name with
    | some op => assembleCommand op operands
    | none => none

/-- What a line of assembler text is. -/
inductive AsmLine where
  /-- nothing, or a comment only -/
  | blank
  /-- one command, as its word -/
  | command (w : Word)
  /-- not a line of R79 -/
  | malformed
  deriving DecidableEq, Repr

/-- One line: "one command per line", "A `;` starts a comment" (R79). -/
def assembleLine (line : List Char) : AsmLine :=
  let code := trimBlanks (line.takeWhile (· != ';'))
  if code.isEmpty then .blank
  else
    let rest := trimBlanks (code.dropWhile fun c => !isBlank c)
    let operands := if rest.isEmpty then [] else (rest.splitOn ',').map trimBlanks
    match assembleWords (code.takeWhile fun c => !isBlank c) operands with
    | some w => .command w
    | none => .malformed

end Sys2Proof.Machine
end

