-- ==== Sys2Proof/Safety.lean ====
section
/-! DEFINITION. The terms the statements use: the invariants of the state, runs (R249), the rules' own characterisations
of arithmetic, polynomial and linear-algebra results, and the encoder's command sequence (R186). -/

namespace Sys2Proof.Machine

/-! ## Invariants -/

/-- Elements of the instance's field: integers in [0, q) (R20). -/
abbrev AllElems (p : Params) (c : List Nat) : Prop := ∀ x ∈ c, x < p.q

/-- The value a vector register may hold: 1 to PMAX elements (R22, R25). -/
abbrev VectorWf (p : Params) (c : List Nat) : Prop := 1 ≤ c.length ∧ c.length ≤ p.pmax ∧ AllElems p c

/-- The widths and ranges of 10_state.md: elements in [0, q), vectors of 1 to PMAX elements, T parity cells, idx in
[0, N], a fault code of R210 or 0 in FCAUSE. -/
abbrev State.Wf (s : State) : Prop :=
  (∀ r : EReg, s.readE r < s.params.q) ∧ (∀ r : VReg, VectorWf s.params (s.readV r)) ∧
    s.par.length = s.params.t ∧ AllElems s.params s.par ∧ s.idx ≤ s.params.n ∧ s.fcause.toNat ≤ 8

/-- What BWERRS and BWSUCC can hold (R33, R34): a success with a count of at most K, no success with −1, or the reset
values before the first decode. -/
abbrev State.BwStatusWf (s : State) : Prop :=
  (s.bwsucc = true ∧ s.bwerrs.toNat ≤ s.params.k) ∨ (s.bwsucc = false ∧ (s.bwerrs = 0xFFFFFFFF ∨ s.bwerrs = 0))

/-- The form of a response (R78, R210): code 0 when OK; a code of 1 to 8 and data 0 when FAULT. -/
abbrev Response.Wf (r : Response) : Prop :=
  (r.status = .ok ∧ r.code = 0) ∨ (r.status = .fault ∧ 1 ≤ r.code.toNat ∧ r.code.toNat ≤ 8 ∧ r.data = 0)

/-! ## Runs -/

/-- A run (R249): the host presents the words `ws` from the state `s`, and the engine takes as many steps. -/
def runWords (s : State) (ws : List Word) : Result :=
  Sys2Proof.core.run ws.length (s.withPort (ws.map .command))

/-- Instructions executed one after the other, each to completion before the next (R57). -/
def execAll : List Instr → State → Result
  | [], s => .next s
  | i :: is, s =>
    match exec i s with
    | .next t => execAll is t
    | .fault r => .fault r
    | .refused r => .refused r

/-- A run has gone wrong when some response says FAULT (R212, R249). -/
def State.faulted (s : State) : Bool := s.responses.any fun r => r.status == .fault

/-- The commands of R186 and R80 that encode a message: `LFCLR`, then `GFLI` and `LFSTEP` for each symbol, then T times
`LFFLUSH`. -/
def encodeSequence (p : Params) (ed es : EReg) (msg : List Nat) : List Instr :=
  .lfclr :: (msg.flatMap fun m => [.gfli es (BitVec.ofNat 16 m), .lfstep ed es]) ++ List.replicate p.t (.lfflush ed)

/-! ## What an instruction may write, answer and raise -/

/-- The element registers a command names as destination ("written by", 10_state.md section 1; R76). -/
def elementDests : Instr → List EReg
  | .gfli ed _ => [ed]
  | .gfalpha ed => [ed]
  | .gfadd ed _ _ => [ed]
  | .gfsub ed _ _ => [ed]
  | .gfneg ed _ => [ed]
  | .gfmul ed _ _ => [ed]
  | .gfdiv ed _ _ => [ed]
  | .gfpow ed _ _ => [ed]
  | .gfrd _ => []
  | .vnew _ _ => []
  | .vset _ _ _ => []
  | .vget ed _ _ => [ed]
  | .vlen _ => []
  | .padd _ _ _ => []
  | .pmul _ _ _ => []
  | .peval ed _ _ => [ed]
  | .pdivmod _ _ _ _ => []
  | .ptrim _ _ => []
  | .pisz _ => []
  | .bwdec _ _ _ => []
  | .lfclr => []
  | .lfstep ed _ => [ed]
  | .lfflush ed => [ed]
  | .lfpar _ => []
  | .csrr _ => []

/-- The vector registers a command names as destination ("written by", 10_state.md section 1; R76). -/
def vectorDests : Instr → List VReg
  | .gfli _ _ => []
  | .gfalpha _ => []
  | .gfadd _ _ _ => []
  | .gfsub _ _ _ => []
  | .gfneg _ _ => []
  | .gfmul _ _ _ => []
  | .gfdiv _ _ _ => []
  | .gfpow _ _ _ => []
  | .gfrd _ => []
  | .vnew vd _ => [vd]
  | .vset vd _ _ => [vd]
  | .vget _ _ _ => []
  | .vlen _ => []
  | .padd vd _ _ => [vd]
  | .pmul vd _ _ => [vd]
  | .peval _ _ _ => []
  | .pdivmod vq _ _ vr => [vq, vr]
  | .ptrim vd _ => [vd]
  | .pisz _ => []
  | .bwdec vd _ _ => [vd]
  | .lfclr => []
  | .lfstep _ _ => []
  | .lfflush _ => []
  | .lfpar vd => [vd]
  | .csrr _ => []

/-- "The commands that return data" (R78). -/
def dataOpcodes : List Opcode := [.gfrd, .vlen, .pisz, .bwdec, .lfstep, .lfflush, .csrr]

/-- The commands that write the encoder's state (10_state.md section 1, R245). -/
def encoderOpcodes : List Opcode := [.lfstep, .lfflush, .lfclr]

/-- Which fault a decoded command raises, if any: R211's table with each command's own condition, the checks of `PDIVMOD`
in R213's order. -/
def faultOf (i : Instr) (s : State) : Option FaultCode :=
  match i with
  | .gfli _ imm => if imm.toNat < 2 ^ s.params.m then none else some .elemRange
  | .gfalpha _ => none
  | .gfadd _ _ _ => none
  | .gfsub _ _ _ => none
  | .gfneg _ _ => none
  | .gfmul _ _ _ => none
  | .gfdiv _ _ eb => if s.readE eb = 0 then some .divZero else none
  | .gfpow _ _ _ => none
  | .gfrd _ => none
  | .vnew _ len => if 1 ≤ len.toNat ∧ len.toNat ≤ s.params.pmax then none else some .length
  | .vset vd _ index => if index.toNat < (s.readV vd).length then none else some .index
  | .vget _ vs index => if index.toNat < (s.readV vs).length then none else some .index
  | .vlen _ => none
  | .padd _ _ _ => none
  | .pmul _ va vb =>
    if (polyMul s.params (s.readV va) (s.readV vb)).length ≤ s.params.pmax then none else some .vecOverflow
  | .peval _ _ _ => none
  | .pdivmod vq _ vb vr =>
    if vq = vr then some .operandAlias else if ∀ x ∈ s.readV vb, x = 0 then some .divZero else none
  | .ptrim _ _ => none
  | .pisz _ => none
  | .bwdec _ vs _ => if (s.readV vs).length = s.params.n then none else some .length
  | .lfclr => none
  | .lfstep _ _ => if s.idx = s.params.n then some .exhausted else none
  | .lfflush _ => if s.idx = s.params.n then some .exhausted else none
  | .lfpar _ => none
  | .csrr csr => if csr.toNat ≤ 4 then none else some .illegalCmd

/-! ## The rules' own characterisations -/

/-- The response of a command that completes with `data` (R78). -/
abbrev okResponse (data : Word) : Response := ⟨.ok, 0, data⟩

/-- The state after the fault procedure (R212): FCAUSE, FCMD and the response, nothing else. -/
abbrev State.afterFault (s : State) (code : BitVec 8) (w : Word) : State :=
  { s with fcause := code, fcmd := w, responses := s.responses ++ [⟨.fault, code, 0⟩] }

/-- The state after a `BWDEC` that completes (R168): the message, the status pair and the response, nothing else. -/
abbrev State.afterBwdec (s : State) (vd : VReg) (msg : List Nat) (errs : Word) (success : Bool) : State :=
  { s with v := s.v.set vd msg, bwerrs := errs, bwsucc := success, responses := s.responses ++ [okResponse errs] }

/-- The product of two polynomials over GF(2), each an integer whose bit j is the coefficient of x^j (R21), not
reduced. -/
def clmul (a b : Nat) : Nat :=
  gfsum ((List.range (b.log2 + 1)).map fun i => if b.testBit i then a <<< i else 0)

/-- `r` is the product of a and b "as polynomials over GF(2), reduced modulo IRRED" (R101). -/
abbrev IsReducedProduct (p : Params) (a b r : Nat) : Prop :=
  r < p.q ∧ ∃ c, clmul a b = clmul c p.irred ^^^ r

/-- "the product of n copies of a" (R104), one multiplication a copy. -/
def powerByCopies (p : Params) (a : Nat) : (n : Nat) → Nat
  | 0 => 1
  | n + 1 => gfmul p (powerByCopies p a n) a

/-- A canonical sequence (R23): `c[len−1] ≠ 0` or `len = 1`. -/
abbrev Canonical (c : List Nat) : Prop := 1 ≤ c.length ∧ (coeff c (c.length - 1) ≠ 0 ∨ c.length = 1)

/-- The value of a polynomial as R135's sum over j of `gfmul(a[j], gfpow(x, j))`. -/
def evalSum (p : Params) (a : List Nat) (x : Nat) : Nat :=
  gfsum ((List.range a.length).map fun j => gfmul p (coeff a j) (gfpow p x j))

/-- Position i is an error position (R167): the locator's value at pt[i], as R135's sum, is zero. -/
def vanishesAt (p : Params) (locator : List Nat) (i : Nat) : Bool := evalSum p locator (evalPoint p i) == 0

/-- `(quo, rem)` divides a by b (R136): canonical, `a = quo·b + rem`, and rem is zero or of lower degree than b. -/
abbrev IsDivision (p : Params) (a b quo rem : List Nat) : Prop :=
  Canonical quo ∧ Canonical rem ∧ AllElems p quo ∧ AllElems p rem ∧
    (∀ j, coeff a j = gfadd (mulCoeff p quo b j) (coeff rem j)) ∧ (isZero rem = true ∨ deg rem < deg b)

/-- The `gfadd`-sum over j < n of `gfmul(row[j], u[j])` (R161). -/
def dotProduct (p : Params) (n : Nat) (row u : List Nat) : Nat :=
  gfsum ((List.range n).map fun j => gfmul p (coeff row j) (coeff u j))

/-- u solves `A·u = rhs` (R161), for n unknowns. -/
abbrev Solves (p : Params) (n : Nat) (a : List (List Nat)) (rhs u : List Nat) : Prop :=
  u.length = n ∧ AllElems p u ∧ ∀ i < n, dotProduct p n (rowAt a i) u = coeff rhs i

/-- The word of the evaluation code of a polynomial of degree below K: `(P(pt[0]), …, P(pt[N−1]))` (R171). -/
def evalWord (p : Params) (poly : List Nat) : List Nat := (List.range p.n).map fun i => polyEval p poly (evalPoint p i)

end Sys2Proof.Machine
end

