-- ==== Sys2Proof/Certificates/Slice0/Obligations.lean ====
section
/-! DEFINITION. The statements for the provers. They hold for every legal configuration, since a state carries its own
(notes/assumptions/1.md); a statement that rests on a choice of the model names the log entry. Where a result is written
as a whole next state, everything the record update does not name is unchanged: that is the instruction's frame. -/

open Sys2Proof Sys2Proof.Machine

/-! ## Encoding -/

/-- Decoding the word of a well-formed instruction gives the instruction back, every operand at every value
(R70 to R73, R76). -/
def Obligations.DecodeOfEncode : Prop :=
  ∀ i : Instr, i.WellFormed → decode (encode i) = .ok i

/-- A word that decodes is the word of the instruction it decodes to: one word per instruction (R73, R77, D36). -/
def Obligations.EncodeOfDecode : Prop :=
  ∀ (w : Word) (i : Instr), decode w = .ok i → encode i = w ∧ i.WellFormed

/-- R77: every word matches exactly one row of R76 and decodes to that row's command, or is illegal by R75. -/
def Obligations.EveryWordMatchesOneRowOrIsIllegal : Prop :=
  ∀ w : Word,
    (∀ i, decode w = .ok i → i.opcode.selects w = true ∧ ∀ op : Opcode, op.selects w = true → op = i.opcode) ∧
    ((∃ i, decode w = .ok i) ↔ ∃ op : Opcode, op.selects w = true ∧ (op = .csrr → (fieldImm w).toNat ≤ 4)) ∧
    ((∃ err, decode w = .error err) ↔
      (∀ op : Opcode, op.byte ≠ fieldOpcode w) ∨
      (∃ op : Opcode, op.byte = fieldOpcode w ∧ w &&& op.mask ≠ op.matchWord) ∨
      (Opcode.csrr.selects w = true ∧ 4 < (fieldImm w).toNat))

/-- R75: an illegal word (unknown opcode; a must-be-zero field not zero; `CSRR` above 4) raises ILLEGAL_CMD with no other
effect. -/
def Obligations.IllegalWordRaisesIllegalCmd : Prop :=
  ∀ (s : State) (w : Word) (rest : List HostInput), s.port = .command w :: rest →
    ((∀ op : Opcode, op.byte ≠ fieldOpcode w) ∨
      (∃ op : Opcode, op.byte = fieldOpcode w ∧ w &&& op.mask ≠ op.matchWord) ∨
      (Opcode.csrr.selects w = true ∧ 4 < (fieldImm w).toNat)) →
    step s = .next ((s.withPort rest).afterFault 1 w)

/-- Words written out in the spec's examples decode to the instructions they stand for, one of each family and format. -/
def Obligations.SpecWordsDecode : Prop :=
  decode 0x10100005 = .ok (.gfli 1 5) ∧ decode 0x15012000 = .ok (.gfmul 0 1 2) ∧
    decode 0x17010003 = .ok (.gfpow 0 1 3) ∧ decode 0x21010002 = .ok (.vset 0 1 2) ∧
    decode 0x27312400 = .ok (.pdivmod 3 1 2 4) ∧ decode 0x30210000 = .ok (.bwdec 2 1 false) ∧
    decode 0x41210000 = .ok (.lfstep 2 1) ∧ decode 0x70000004 = .ok (.csrr 4)

/-! ## Steps, reset, idling -/

/-- A step runs the decoded instruction: the word at the port is taken from it and executed. -/
def Obligations.StepRunsDecodedInstruction : Prop :=
  ∀ (s : State) (w : Word) (rest : List HostInput) (i : Instr),
    s.port = .command w :: rest → decode w = .ok i → step s = exec i (s.withPort rest)

/-- R240: reset between commands puts every piece of state at its reset value, leaves the configuration, answers nothing.
That the words still to come and the responses already given stay is the model's (notes/assumptions/13.md). -/
def Obligations.ResetInputTakesResetValues : Prop :=
  ∀ (s : State) (rest : List HostInput), s.port = .reset :: rest →
    ∃ t, step s = .next t ∧ (∀ r, t.readE r = 0) ∧ (∀ r, t.readV r = [0]) ∧
      t.par = List.replicate s.params.t 0 ∧ t.idx = 0 ∧ t.fcause = 0 ∧ t.fcmd = 0 ∧ t.bwerrs = 0 ∧
      t.bwsucc = false ∧ t.cfg = s.cfg ∧ t.responses = s.responses ∧ t.port = rest

/-- R37: the reset values, for every configuration. -/
def Obligations.ResetValues : Prop :=
  ∀ c : Config, (∀ r, (State.resetOf c).readE r = 0) ∧ (∀ r, (State.resetOf c).readV r = [0]) ∧
    (State.resetOf c).par = List.replicate c.params.t 0 ∧ (State.resetOf c).idx = 0 ∧
    (State.resetOf c).fcause = 0 ∧ (State.resetOf c).fcmd = 0 ∧ (State.resetOf c).bwerrs = 0 ∧
    (State.resetOf c).bwsucc = false

/-- R225: with no command at the port "the engine idles with all state kept". -/
def Obligations.IdleKeepsAllState : Prop :=
  ∀ s : State, s.port = [] → step s = .next s

/-- Every step answers a next state: no command, legal or not, stops the machine or runs for ever (R212, R247). -/
def Obligations.EveryStepAnswersNext : Prop :=
  (∀ s : State, ∃ t, step s = .next t) ∧ ∀ (i : Instr) (s : State), ∃ t, exec i s = .next t

/-- A run answers every command word with one response and uses up the port, faulting words included (R27, R249). -/
def Obligations.RunAnswersEveryCommand : Prop :=
  ∀ (s : State) (ws : List Word),
    ∃ t, runWords s ws = .next t ∧ t.responses.length = s.responses.length + ws.length ∧ t.port = []

/-! ## Invariants -/

/-- The reset state of every configuration meets the invariants. -/
def Obligations.ResetMeetsInvariants : Prop :=
  ∀ c : Config, (State.resetOf c).Wf ∧ (State.resetOf c).BwStatusWf ∧ ∀ r ∈ (State.resetOf c).responses, r.Wf

/-- Every step keeps elements in [0, q), vectors at 1 to PMAX elements, T parity cells, idx in [0, N], and FCAUSE at a
code of R210 (R20, R22, R28, R29, R31). -/
def Obligations.StepKeepsRanges : Prop :=
  ∀ s t : State, s.Wf → step s = .next t → t.Wf

/-- Every step keeps BWERRS and BWSUCC consistent (R33, R34): success with a count of at most K, no success with −1, or
the reset values. -/
def Obligations.StepKeepsBwStatus : Prop :=
  ∀ s t : State, s.BwStatusWf → step s = .next t → t.BwStatusWf

/-- Every step keeps the responses in the form of R78. -/
def Obligations.StepKeepsResponseForm : Prop :=
  ∀ s t : State, (∀ r ∈ s.responses, r.Wf) → step s = .next t → ∀ r ∈ t.responses, r.Wf

/-- No step changes the configuration (R6, R30, R36). -/
def Obligations.StepKeepsConfiguration : Prop :=
  ∀ s t : State, step s = .next t → t.cfg = s.cfg

/-! ## Whole-machine rules -/

/-- Every command produces exactly one response, in the form of R78, with data 0 unless the command is one of those R78
lists as returning data. -/
def Obligations.OneResponsePerCommand : Prop :=
  ∀ (i : Instr) (s t : State), exec i s = .next t →
    ∃ r : Response, t.responses = s.responses ++ [r] ∧ r.Wf ∧ (i.opcode ∉ dataOpcodes → r.data = 0)

/-- "it is not state and a later command cannot read it" (R78): what was answered before changes neither the next state
nor the new responses. -/
def Obligations.ResponsesAreNotRead : Prop :=
  ∀ (s t : State) (given : List Response), step s = .next t →
    ∃ new, t.responses = s.responses ++ new ∧
      step { s with responses := given } = .next { t with responses := given ++ new }

/-- R212: a command word whose response is FAULT has changed FCAUSE and FCMD and nothing else; FCMD is the word itself,
the code is one of R210's. -/
def Obligations.FaultChangesOnlyFaultRegisters : Prop :=
  ∀ (s t : State) (w : Word) (rest : List HostInput) (code : BitVec 8) (data : Word),
    s.port = .command w :: rest → step s = .next t → t.responses = s.responses ++ [⟨.fault, code, data⟩] →
    t = (s.withPort rest).afterFault code w ∧ 1 ≤ code.toNat ∧ code.toNat ≤ 8

/-- "A command that completes without fault leaves it unchanged" (R31, and R32 for FCMD). -/
def Obligations.CompletionKeepsFaultRegisters : Prop :=
  ∀ (i : Instr) (s t : State) (data : Word), exec i s = .next t → t.responses = s.responses ++ [okResponse data] →
    t.fcause = s.fcause ∧ t.fcmd = s.fcmd

/-- R211 and R213: which command raises which fault, under its own condition, in the order written; otherwise it
completes. -/
def Obligations.FaultsExactlyWhenStated : Prop :=
  ∀ (i : Instr) (s : State),
    (∀ c, faultOf i s = some c → exec i s = .next (s.afterFault c.byte (encode i))) ∧
    (faultOf i s = none → ∃ t data, exec i s = .next t ∧ t.responses = s.responses ++ [okResponse data])

/-- Only a command's own destinations change among the registers, and no command touches the port (10_state.md
section 1, "written by"). -/
def Obligations.OnlyDestinationsChange : Prop :=
  ∀ (i : Instr) (s t : State), exec i s = .next t →
    (∀ r, r ∉ elementDests i → t.readE r = s.readE r) ∧ (∀ r, r ∉ vectorDests i → t.readV r = s.readV r) ∧
      t.port = s.port

/-- Only `LFSTEP`, `LFFLUSH` and `LFCLR` write `par` and `idx` (R28, R29, R245); reset is the other way. -/
def Obligations.OnlyEncoderCommandsWriteEncoder : Prop :=
  ∀ (i : Instr) (s t : State), exec i s = .next t → i.opcode ∉ encoderOpcodes → t.par = s.par ∧ t.idx = s.idx

/-- BWERRS and BWSUCC are "unchanged by a BWDEC that faults and by all other commands" (R33, R34). -/
def Obligations.OnlyCompletedBwdecWritesStatus : Prop :=
  ∀ (i : Instr) (s t : State), exec i s = .next t →
    i.opcode ≠ .bwdec ∨ (∃ code data, t.responses = s.responses ++ [⟨.fault, code, data⟩]) →
    t.bwerrs = s.bwerrs ∧ t.bwsucc = s.bwsucc

/-! ## Field arithmetic and the field commands -/

/-- `GFLI` (R106): the integer itself when it is in [0, q); else ELEM_RANGE. -/
def Obligations.GfliLoadsOrFaults : Prop :=
  ∀ (ed : EReg) (imm : Imm16) (s : State),
    (imm.toNat < 2 ^ s.params.m → exec (.gfli ed imm) s =
      .next { s with e := s.e.set ed imm.toNat, responses := s.responses ++ [okResponse 0] }) ∧
    (2 ^ s.params.m ≤ imm.toNat → exec (.gfli ed imm) s = .next (s.afterFault 2 (encode (.gfli ed imm))))

/-- `GFALPHA` (R107). -/
def Obligations.GfalphaLoadsAlpha : Prop :=
  ∀ (ed : EReg) (s : State), exec (.gfalpha ed) s =
    .next { s with e := s.e.set ed s.params.alpha, responses := s.responses ++ [okResponse 0] }

/-- `GFADD` and `GFSUB` are the exclusive-or, `GFNEG` the copy (R100, R108 to R110). -/
def Obligations.AddSubtractNegate : Prop :=
  ∀ (ed ea eb : EReg) (s : State),
    exec (.gfadd ed ea eb) s =
      .next { s with e := s.e.set ed (s.e[ea] ^^^ s.e[eb]), responses := s.responses ++ [okResponse 0] } ∧
    exec (.gfsub ed ea eb) s =
      .next { s with e := s.e.set ed (s.e[ea] ^^^ s.e[eb]), responses := s.responses ++ [okResponse 0] } ∧
    exec (.gfneg ed ea) s =
      .next { s with e := s.e.set ed s.e[ea], responses := s.responses ++ [okResponse 0] }

/-- `GFMUL` writes the product "as polynomials over GF(2), reduced modulo IRRED" (R101, R111), which is unique. -/
def Obligations.GfmulIsReducedProduct : Prop :=
  ∀ (ed ea eb : EReg) (s : State), s.Wf →
    ∃ r, IsReducedProduct s.params s.e[ea] s.e[eb] r ∧
      (∀ r', IsReducedProduct s.params s.e[ea] s.e[eb] r' → r' = r) ∧
      exec (.gfmul ed ea eb) s =
        .next { s with e := s.e.set ed r, responses := s.responses ++ [okResponse 0] }

/-- `GFDIV` writes the one x with `gfmul(x, b) = a` when b ≠ 0 (R103, R112), and faults DIV_ZERO when b = 0, whatever a. -/
def Obligations.GfdivIsTheQuotient : Prop :=
  ∀ (ed ea eb : EReg) (s : State), s.Wf →
    (s.e[eb] ≠ 0 → ∃ x < s.params.q, gfmul s.params x s.e[eb] = s.e[ea] ∧
      (∀ y < s.params.q, gfmul s.params y s.e[eb] = s.e[ea] → y = x) ∧
      exec (.gfdiv ed ea eb) s =
        .next { s with e := s.e.set ed x, responses := s.responses ++ [okResponse 0] }) ∧
    (s.e[eb] = 0 → exec (.gfdiv ed ea eb) s = .next (s.afterFault 3 (encode (.gfdiv ed ea eb))))

/-- `GFPOW` writes the product of n copies of a, and for a ≠ 0 exponents count modulo q − 1 (R104, R113). -/
def Obligations.GfpowIsRepeatedProduct : Prop :=
  ∀ (ed ea : EReg) (exp : Imm16) (s : State), s.Wf →
    exec (.gfpow ed ea exp) s =
      .next { s with
        e := s.e.set ed (powerByCopies s.params s.e[ea] exp.toNat), responses := s.responses ++ [okResponse 0] } ∧
    (s.e[ea] ≠ 0 →
      powerByCopies s.params s.e[ea] exp.toNat = powerByCopies s.params s.e[ea] (exp.toNat % (s.params.q - 1)))

/-- R105: every result is an element, and the field laws, for every legal configuration and all elements. -/
def Obligations.FieldLaws : Prop :=
  ∀ (c : Config) (x y z : Nat), x < c.params.q → y < c.params.q → z < c.params.q →
    gfadd x y < c.params.q ∧ gfmul c.params x y < c.params.q ∧ (y ≠ 0 → gfdiv c.params x y < c.params.q) ∧
    (∀ n, gfpow c.params x n < c.params.q) ∧
    gfadd x y = gfadd y x ∧ gfadd (gfadd x y) z = gfadd x (gfadd y z) ∧ gfadd x 0 = x ∧ gfadd x x = 0 ∧
    gfmul c.params x y = gfmul c.params y x ∧
    gfmul c.params (gfmul c.params x y) z = gfmul c.params x (gfmul c.params y z) ∧
    gfmul c.params x (gfadd y z) = gfadd (gfmul c.params x y) (gfmul c.params x z) ∧
    gfmul c.params x 1 = x ∧ (gfmul c.params x y = 0 → x = 0 ∨ y = 0) ∧
    (x ≠ 0 → ∃ i < c.params.q - 1, gfpow c.params c.params.alpha i = x ∧
      ∀ j < c.params.q - 1, gfpow c.params c.params.alpha j = x → j = i) ∧
    gfpow c.params c.params.alpha (c.params.q - 1) = 1

/-- What the check of a configuration is for (R6): IRRED has degree M and no factor but itself and 1 over GF(2). That the
check is by trial division is the model's (notes/assumptions/15.md). -/
def Obligations.LegalIrredIsIrreducible : Prop :=
  ∀ (c : Config) (x y : Nat), clmul x y = c.params.irred →
    (x = 1 ∨ y = 1) ∧ 2 ^ c.params.m ≤ c.params.irred ∧ c.params.irred < 2 ^ (c.params.m + 1)

/-! ## Vectors and polynomials -/

/-- `GFRD`, `VLEN` and `PISZ` answer the element, the length and the zero-test and write no state (R55, R114, R140,
R145). -/
def Obligations.ReadersOnlyAnswer : Prop :=
  ∀ (ea : EReg) (vs : VReg) (s : State),
    exec (.gfrd ea) s = .next { s with responses := s.responses ++ [okResponse (BitVec.ofNat 32 s.e[ea])] } ∧
    exec (.vlen vs) s = .next { s with responses := s.responses ++ [okResponse (BitVec.ofNat 32 s.v[vs].length)] } ∧
    ((∀ x ∈ s.v[vs], x = 0) →
      exec (.pisz vs) s = .next { s with responses := s.responses ++ [okResponse 1] }) ∧
    ((∃ x ∈ s.v[vs], x ≠ 0) →
      exec (.pisz vs) s = .next { s with responses := s.responses ++ [okResponse 0] })

/-- `VNEW` (R137): that many zeros for a length of 1 to PMAX, else LENGTH. -/
def Obligations.VnewMakesZerosOrFaults : Prop :=
  ∀ (vd : VReg) (len : Imm16) (s : State),
    (1 ≤ len.toNat ∧ len.toNat ≤ s.params.pmax → exec (.vnew vd len) s =
      .next { s with v := s.v.set vd (List.replicate len.toNat 0), responses := s.responses ++ [okResponse 0] }) ∧
    (len.toNat = 0 ∨ s.params.pmax < len.toNat →
      exec (.vnew vd len) s = .next (s.afterFault 4 (encode (.vnew vd len))))

/-- `VSET` (R138): one coefficient below the length is written, the others and the length are unchanged; else INDEX. -/
def Obligations.VsetWritesOneCoefficientOrFaults : Prop :=
  ∀ (vd : VReg) (es : EReg) (index : Imm16) (s : State),
    (index.toNat < s.v[vd].length → exec (.vset vd es index) s =
      .next { s with v := s.v.set vd (s.v[vd].set index.toNat s.e[es]), responses := s.responses ++ [okResponse 0] }) ∧
    (s.v[vd].length ≤ index.toNat →
      exec (.vset vd es index) s = .next (s.afterFault 5 (encode (.vset vd es index))))

/-- `VGET` (R139): one coefficient below the length is read; else INDEX. -/
def Obligations.VgetReadsOneCoefficientOrFaults : Prop :=
  ∀ (ed : EReg) (vs : VReg) (index : Imm16) (s : State),
    (∀ h : index.toNat < s.v[vs].length, exec (.vget ed vs index) s =
      .next { s with e := s.e.set ed (s.v[vs][index.toNat]'h), responses := s.responses ++ [okResponse 0] }) ∧
    (s.v[vs].length ≤ index.toNat →
      exec (.vget ed vs index) s = .next (s.afterFault 5 (encode (.vget ed vs index))))

/-- `PADD` writes the canonical sequence whose coefficients are the exclusive-ors (R133, R141). -/
def Obligations.PaddAddsCoefficients : Prop :=
  ∀ (vd va vb : VReg) (s : State),
    ∃ r, Canonical r ∧ (∀ j, coeff r j = coeff s.v[va] j ^^^ coeff s.v[vb] j) ∧
      exec (.padd vd va vb) s = .next { s with v := s.v.set vd r, responses := s.responses ++ [okResponse 0] }

/-- `PMUL` writes the canonical product, coefficient j the sum of `gfmul(a[i], b[j−i])`, when it fits, else faults
VEC_OVERFLOW (R134, R142). -/
def Obligations.PmulMultipliesOrFaults : Prop :=
  ∀ (vd va vb : VReg) (s : State),
    ∃ r, Canonical r ∧
      (∀ j, coeff r j =
        gfsum ((List.range (j + 1)).map fun i => gfmul s.params (coeff s.v[va] i) (coeff s.v[vb] (j - i)))) ∧
      (r.length ≤ s.params.pmax → exec (.pmul vd va vb) s =
        .next { s with v := s.v.set vd r, responses := s.responses ++ [okResponse 0] }) ∧
      (s.params.pmax < r.length → exec (.pmul vd va vb) s = .next (s.afterFault 7 (encode (.pmul vd va vb))))

/-- R134: the coefficients of a product; its degree is the sum of the degrees when neither factor is zero, and it is
`[0]` when either is. -/
def Obligations.ProductDegreesAdd : Prop :=
  ∀ (c : Config) (a b : List Nat), a ≠ [] → b ≠ [] → AllElems c.params a → AllElems c.params b →
    Canonical (polyMul c.params a b) ∧
    (∀ j, coeff (polyMul c.params a b) j =
      gfsum ((List.range (j + 1)).map fun i => gfmul c.params (coeff a i) (coeff b (j - i)))) ∧
    (isZero a = false ∧ isZero b = false → deg (polyMul c.params a b) = deg a + deg b) ∧
    (isZero a = true ∨ isZero b = true → polyMul c.params a b = [0])

/-- `PDIVMOD` writes "the one pair (quo, rem) of canonical sequences" with a = quo·b + rem and rem zero or of lower degree
(R136, R143). -/
def Obligations.PdivmodIsTheDivision : Prop :=
  ∀ (vq va vb vr : VReg) (s : State), s.Wf → vq ≠ vr → isZero s.v[vb] = false →
    ∃ quo rem, IsDivision s.params s.v[va] s.v[vb] quo rem ∧
      (∀ quo' rem', IsDivision s.params s.v[va] s.v[vb] quo' rem' → quo' = quo ∧ rem' = rem) ∧
      exec (.pdivmod vq va vb vr) s =
        .next { s with v := (s.v.set vq quo).set vr rem, responses := s.responses ++ [okResponse 0] }

/-- `PDIVMOD`'s faults in their order (R143, R213): one register as both destinations before a zero divisor. -/
def Obligations.PdivmodFaultsInOrder : Prop :=
  ∀ (vq va vb vr : VReg) (s : State),
    (vq = vr → exec (.pdivmod vq va vb vr) s = .next (s.afterFault 8 (encode (.pdivmod vq va vb vr)))) ∧
    (vq ≠ vr ∧ (∀ x ∈ s.v[vb], x = 0) →
      exec (.pdivmod vq va vb vr) s = .next (s.afterFault 3 (encode (.pdivmod vq va vb vr))))

/-- `PTRIM` writes the canonical sequence with the same coefficients (R130, R144). -/
def Obligations.PtrimTrims : Prop :=
  ∀ (vd vs : VReg) (s : State),
    ∃ r, Canonical r ∧ (∀ j, coeff r j = coeff s.v[vs] j) ∧
      exec (.ptrim vd vs) s = .next { s with v := s.v.set vd r, responses := s.responses ++ [okResponse 0] }

/-- `PEVAL` writes the sum over j of `gfmul(a[j], gfpow(x, j))` (R135, R146). -/
def Obligations.PevalEvaluates : Prop :=
  ∀ (ed : EReg) (va : VReg) (ex : EReg) (s : State), s.Wf →
    exec (.peval ed va ex) s =
      .next { s with e := s.e.set ed (evalSum s.params s.v[va] s.e[ex]), responses := s.responses ++ [okResponse 0] }

/-- Every polynomial command "gives the same result for a non-canonical value as for its canonical form" (R24). -/
def Obligations.CanonicalFormsGiveSameResults : Prop :=
  ∀ (p : Params) (a b : List Nat) (x : Nat),
    polyAdd (trim a) (trim b) = polyAdd a b ∧ polyMul p (trim a) (trim b) = polyMul p a b ∧
    polyEval p (trim a) x = polyEval p a x ∧ polyDivMod p (trim a) (trim b) = polyDivMod p a b ∧
    trim (trim a) = trim a ∧ isZero (trim a) = isZero a

/-! ## The Berlekamp–Welch decoder -/

/-- `BWDEC` (R168): on N symbols the decoder's result to vd, BWERRS, BWSUCC and the response; else LENGTH. The result is
what R164 to R167 make of the accepted trial (e, u): at e = 0 the first K symbols, zero errors and success, "whatever
`force` is" (R165); above it, with Q, E and their one division (F, R), the uncorrectable outcome when R ≠ 0 and `force`
is not set (R166), else F at the message positions where E vanishes and their number (R167). -/
def Obligations.BwdecWritesResultOrFaults : Prop :=
  ∀ (vd vs : VReg) (force : Bool) (s : State),
    (s.v[vs].length = s.params.n → exec (.bwdec vd vs force) s =
      .next { s with
        v := s.v.set vd (bwDecode s.params s.v[vs] force).msg
        bwerrs := BitVec.ofInt 32 (bwDecode s.params s.v[vs] force).errs
        bwsucc := (bwDecode s.params s.v[vs] force).success
        responses := s.responses ++ [okResponse (BitVec.ofInt 32 (bwDecode s.params s.v[vs] force).errs)] }) ∧
    (s.v[vs].length ≠ s.params.n →
      exec (.bwdec vd vs force) s = .next (s.afterFault 4 (encode (.bwdec vd vs force)))) ∧
    (s.Wf → s.v[vs].length = s.params.n →
      ∀ e u, bwTrials s.params s.v[vs] s.params.emax = (e, u) →
        (e = 0 → exec (.bwdec vd vs force) s = .next (s.afterBwdec vd (s.v[vs].take s.params.k) 0 true)) ∧
        (0 < e → ∃ f r, IsDivision s.params (trim (u.drop e)) (u.take e ++ [1]) f r ∧
          (∀ f' r', IsDivision s.params (trim (u.drop e)) (u.take e ++ [1]) f' r' → f' = f ∧ r' = r) ∧
          (isZero r = false ∧ force = false → exec (.bwdec vd vs force) s =
            .next (s.afterBwdec vd (s.v[vs].take s.params.k) 0xFFFFFFFF false)) ∧
          (isZero r = true ∨ force = true → exec (.bwdec vd vs force) s =
            .next (s.afterBwdec vd
              ((List.range s.params.k).map fun i =>
                if vanishesAt s.params (u.take e ++ [1]) i then evalSum s.params f (evalPoint s.params i)
                else coeff s.v[vs] i)
              (BitVec.ofNat 32 ((List.range s.params.k).countP (vanishesAt s.params (u.take e ++ [1])))) true))))

/-- R161: the solver returns the one solution, or SINGULAR exactly when the matrix is not invertible (some non-zero
vector solves the homogeneous system), whatever the right-hand side. -/
def Obligations.SolverIsExact : Prop :=
  ∀ (c : Config) (n : Nat) (a : List (List Nat)) (rhs : List Nat), a.length = n →
    (∀ row ∈ a, row.length = n ∧ AllElems c.params row) → rhs.length = n → AllElems c.params rhs →
    (∀ u, solveUnique c.params a rhs = some u →
      Solves c.params n a rhs u ∧ ∀ u', Solves c.params n a rhs u' → u' = u) ∧
    (solveUnique c.params a rhs = none ↔
      ∃ z, Solves c.params n a (List.replicate n 0) z ∧ z ≠ List.replicate n 0)

/-- R163: the accepted trial is the first from EMAX down whose system is not singular, with its solution. The model does
not solve the system of e = 0 (notes/assumptions/9.md). -/
def Obligations.TrialsRunFromEmaxDown : Prop :=
  ∀ (p : Params) (cw : List Nat) (e : Nat) (u : List Nat), bwTrials p cw p.emax = (e, u) →
    e ≤ p.emax ∧ (∀ e', e < e' → e' ≤ p.emax → solveUnique p (bwMatrix p cw e') (bwRhs p cw e') = none) ∧
      (0 < e → solveUnique p (bwMatrix p cw e) (bwRhs p cw e) = some u)

/-- The e = 0 trial is never singular, and its solution is the polynomial through the N points (R169). -/
def Obligations.TrialZeroInterpolates : Prop :=
  ∀ (c : Config) (cw : List Nat), cw.length = c.params.n → AllElems c.params cw →
    ∃ u, solveUnique c.params (bwMatrix c.params cw 0) (bwRhs c.params cw 0) = some u ∧
      u.length = c.params.n ∧ ∀ i < c.params.n, polyEval c.params u (evalPoint c.params i) = coeff cw i

/-- R171 (a) and (b): a word at distance at most EMAX from a word of the evaluation code decodes to that word's first K
symbols, with the number of wrong message symbols as the count, forced or not. -/
def Obligations.BwdecCorrectsUpToEmax : Prop :=
  ∀ (vd vs : VReg) (force : Bool) (s : State) (poly : List Nat), s.Wf → s.v[vs].length = s.params.n →
    poly.length ≤ s.params.k → AllElems s.params poly →
    (List.range s.params.n).countP (fun i => coeff s.v[vs] i != coeff (evalWord s.params poly) i) ≤ s.params.emax →
    exec (.bwdec vd vs force) s =
      .next { s with
        v := s.v.set vd ((evalWord s.params poly).take s.params.k)
        bwerrs := BitVec.ofNat 32
          ((List.range s.params.k).countP fun i => coeff s.v[vs] i != coeff (evalWord s.params poly) i)
        bwsucc := true
        responses := s.responses ++ [okResponse (BitVec.ofNat 32
          ((List.range s.params.k).countP fun i => coeff s.v[vs] i != coeff (evalWord s.params poly) i))] }

/-- R215: an uncorrectable decode completes with OK, data and BWERRS at −1, BWSUCC at 0 and FCAUSE and FCMD unchanged; its
message is the received symbols (R166, D19). It cannot happen when forced (R167). -/
def Obligations.UncorrectableIsNoFault : Prop :=
  ∀ (vd vs : VReg) (force : Bool) (s : State), s.v[vs].length = s.params.n →
    ((bwDecode s.params s.v[vs] force).errs = -1 → exec (.bwdec vd vs force) s =
      .next { s with
        v := s.v.set vd (s.v[vs].take s.params.k)
        bwerrs := 0xFFFFFFFF
        bwsucc := false
        responses := s.responses ++ [okResponse 0xFFFFFFFF] }) ∧
    (bwDecode s.params s.v[vs] true).success = true

/-- "the decoder never reads `GEN`" (42_bw_decoder.md, introduction; R160). -/
def Obligations.DecoderNeverReadsGenerator : Prop :=
  ∀ (p : Params) (gen cw : List Nat) (force : Bool), bwDecode { p with gen := gen } cw force = bwDecode p cw force

/-! ## The LFSR encoder -/

/-- `LFCLR` clears the encoder and nothing else (R183), to exactly the encoder's reset state (R241). -/
def Obligations.LfclrClears : Prop :=
  ∀ s : State, ∃ t, exec .lfclr s = .next t ∧
    t = { s with par := List.replicate s.params.t 0, idx := 0, responses := s.responses ++ [okResponse 0] } ∧
    t.par = (State.resetOf s.cfg).par ∧ t.idx = (State.resetOf s.cfg).idx

/-- `LFSTEP` below exhaustion (R181): the feedback, the register update cell by cell, and the output, which in the parity
phase is the updated top cell (D23); at idx = N it faults EXHAUSTED. -/
def Obligations.LfstepShiftsOrFaults : Prop :=
  ∀ (ed es : EReg) (s : State),
    (s.idx ≠ s.params.n → ∃ g new out,
      g = gfmul s.params (s.e[es] ^^^ coeff s.par (s.params.t - 1)) (s.params.genAt s.params.t) ∧
      new.length = s.params.t ∧ coeff new 0 = gfmul s.params g (s.params.genAt 0) ∧
      (∀ j, 1 ≤ j → j < s.params.t → coeff new j = coeff s.par (j - 1) ^^^ gfmul s.params g (s.params.genAt j)) ∧
      (s.idx < s.params.k → out = s.e[es]) ∧ (s.params.k ≤ s.idx → out = coeff new (s.params.t - 1)) ∧
      exec (.lfstep ed es) s =
        .next { s with
          e := s.e.set ed out
          par := new
          idx := s.idx + 1
          responses := s.responses ++ [okResponse (BitVec.ofNat 32 out)] }) ∧
    (s.idx = s.params.n → exec (.lfstep ed es) s = .next (s.afterFault 6 (encode (.lfstep ed es))))

/-- `LFFLUSH` below exhaustion (R182): the old top cell is the output, a zero is shifted in; at idx = N it faults
EXHAUSTED. -/
def Obligations.LfflushShiftsOrFaults : Prop :=
  ∀ (ed : EReg) (s : State),
    (s.idx ≠ s.params.n → exec (.lfflush ed) s =
      .next { s with
        e := s.e.set ed (coeff s.par (s.params.t - 1))
        par := 0 :: s.par.take (s.params.t - 1)
        idx := s.idx + 1
        responses := s.responses ++ [okResponse (BitVec.ofNat 32 (coeff s.par (s.params.t - 1)))] }) ∧
    (s.idx = s.params.n → exec (.lfflush ed) s = .next (s.afterFault 6 (encode (.lfflush ed))))

/-- `LFPAR` copies the parity register as it is (R184). -/
def Obligations.LfparCopies : Prop :=
  ∀ (vd : VReg) (s : State),
    exec (.lfpar vd) s = .next { s with v := s.v.set vd s.par, responses := s.responses ++ [okResponse 0] }

/-- R185: at idx = N both symbol commands fault EXHAUSTED and leave the encoder as it was; below N a completed one raises
idx by exactly one; `LFCLR` makes the encoder usable again. -/
def Obligations.ExhaustionUntilClear : Prop :=
  ∀ (i : Instr) (s : State), i.opcode = .lfstep ∨ i.opcode = .lfflush →
    (s.idx = s.params.n → exec i s = .next (s.afterFault 6 (encode i))) ∧
    (s.idx ≠ s.params.n → ∃ t, exec i s = .next t ∧ t.idx = s.idx + 1) ∧
    ∃ t, exec .lfclr s = .next t ∧ t.idx = 0 ∧ t.idx ≠ t.params.n

/-- R186: the command sequence of a whole codeword, for any generator: the K symbols come out unchanged, then the T cells
of the register from the top down, and the encoder ends with idx = N and a zero register. -/
def Obligations.EncodeSequenceEmitsMessageThenRegister : Prop :=
  ∀ (ed es : EReg) (s : State) (msg : List Nat), msg.length = s.params.k → AllElems s.params msg →
    ∃ t, execAll (encodeSequence s.params ed es msg) s = .next t ∧ t.idx = s.params.n ∧
      t.par = List.replicate s.params.t 0 ∧
      t.responses = s.responses ++ (okResponse 0 :: (msg.flatMap fun m => [okResponse 0, okResponse (BitVec.ofNat 32 m)]) ++
        ((msg.foldl (lfStepReg s.params) (List.replicate s.params.t 0)).reverse.map fun x =>
          okResponse (BitVec.ofNat 32 x)))

/-- R187: for a monic generator the symbols of R186's sequence are the block systematic codeword `BlockEnc`. -/
def Obligations.EncodeSequenceIsBlockEncode : Prop :=
  ∀ (ed es : EReg) (s : State) (msg : List Nat), msg.length = s.params.k → AllElems s.params msg →
    s.params.genAt s.params.t = 1 →
    ∃ t, execAll (encodeSequence s.params ed es msg) s = .next t ∧
      (blockEnc s.params msg).take s.params.k = msg ∧
      t.responses = s.responses ++ (okResponse 0 :: (msg.flatMap fun m => [okResponse 0, okResponse (BitVec.ofNat 32 m)]) ++
        (((blockEnc s.params msg).drop s.params.k).map fun x => okResponse (BitVec.ofNat 32 x)))

/-! ## The system command and the assembler -/

/-- `CSRR` (R200): the five registers by number, writing no state; any other number faults ILLEGAL_CMD. -/
def Obligations.CsrrReadsOrFaults : Prop :=
  ∀ s : State,
    exec (.csrr 0) s = .next { s with responses := s.responses ++ [okResponse (s.fcause.setWidth 32)] } ∧
    exec (.csrr 1) s = .next { s with responses := s.responses ++ [okResponse s.fcmd] } ∧
    exec (.csrr 2) s = .next { s with responses := s.responses ++ [okResponse s.bwerrs] } ∧
    exec (.csrr 3) s = .next { s with responses := s.responses ++ [okResponse (if s.bwsucc then 1 else 0)] } ∧
    exec (.csrr 4) s = .next { s with responses := s.responses ++ [okResponse (BitVec.ofNat 32 s.idx)] } ∧
    ∀ csr : Imm16, 4 < csr.toNat → exec (.csrr csr) s = .next (s.afterFault 1 (encode (.csrr csr)))

/-- R80: each pseudo-instruction, as text, stands for the word of its one-command expansion. -/
def Obligations.PseudoInstructionsExpand : Prop :=
  (∀ ed : EReg, assembleLine ("GFZERO ".toList ++ regText 'e' ed) = .command (encode (.gfli ed 0))) ∧
  (∀ ed : EReg, assembleLine ("GFONE ".toList ++ regText 'e' ed) = .command (encode (.gfli ed 1))) ∧
  (∀ vd vs : VReg, assembleLine ("BWDEC ".toList ++ regText 'v' vd ++ ", ".toList ++ regText 'v' vs) =
    .command (encode (.bwdec vd vs false))) ∧
  (∀ vd vs : VReg, assembleLine ("BWDECF ".toList ++ regText 'v' vd ++ ", ".toList ++ regText 'v' vs) =
    .command (encode (.bwdec vd vs true)))
end

