-- ==== Sys2Proof/Laws/Decode.lean ====
section
/-! SUPPORT. The fields of an encoded word, and the opcode bytes (R70 to R74). -/

namespace Sys2Proof

/-- The opcode of an opcode's byte is that opcode. -/
@[simp] theorem Opcode.ofByte?_byte (op : Opcode) : Opcode.ofByte? op.byte = some op := by
  cases op <;> rfl

/-- Only the byte of R74 names an opcode. -/
theorem Opcode.byte_of_ofByte? {b : BitVec 8} {op : Opcode} (h : Opcode.ofByte? b = some op) : op.byte = b := by
  revert b op
  decide

/-- Different opcodes have different bytes: "No two rows overlap, because the opcodes differ" (R77). -/
theorem Opcode.byte_injective (a b : Opcode) (h : a.byte = b.byte) : a = b := by
  simpa using congrArg Opcode.ofByte? h

/-- The low part of a concatenation from an offset inside it. -/
theorem extract_high {v w : Nat} (hi : BitVec v) (lo : BitVec w) (start len : Nat) (h : w ≤ start) :
    (hi ++ lo).extractLsb' start len = hi.extractLsb' (start - w) len :=
  BitVec.extractLsb'_append_eq_of_le h

/-- The field just above the low part of a concatenation. -/
theorem extract_exact {v w : Nat} (hi : BitVec v) (lo : BitVec w) : (hi ++ lo).extractLsb' 0 w = lo :=
  BitVec.extractLsb'_append_eq_right

section FormatR

variable (op : Opcode) (a b c d : Fin 16)

@[simp] theorem fieldOpcode_encodeR : fieldOpcode (encodeR op a b c d) = op.byte :=
  (extract_high _ (0 : BitVec 8) 24 8 (by decide)).trans <|
    (extract_high _ (regBits d) (24 - 8) 8 (by decide)).trans <|
    (extract_high _ (regBits c) ((24 - 8) - 4) 8 (by decide)).trans <|
    (extract_high _ (regBits b) (((24 - 8) - 4) - 4) 8 (by decide)).trans <|
    (extract_high _ (regBits a) ((((24 - 8) - 4) - 4) - 4) 8 (by decide)).trans <|
    BitVec.extractLsb'_eq_self

@[simp] theorem fieldA_encodeR : fieldA (encodeR op a b c d) = a :=
  congrArg BitVec.toFin <| (extract_high _ (0 : BitVec 8) 20 4 (by decide)).trans <|
    (extract_high _ (regBits d) (20 - 8) 4 (by decide)).trans <|
    (extract_high _ (regBits c) ((20 - 8) - 4) 4 (by decide)).trans <|
    (extract_high _ (regBits b) (((20 - 8) - 4) - 4) 4 (by decide)).trans <|
    extract_exact _ _

@[simp] theorem fieldB_encodeR : fieldB (encodeR op a b c d) = b :=
  congrArg BitVec.toFin <| (extract_high _ (0 : BitVec 8) 16 4 (by decide)).trans <|
    (extract_high _ (regBits d) (16 - 8) 4 (by decide)).trans <|
    (extract_high _ (regBits c) ((16 - 8) - 4) 4 (by decide)).trans <|
    extract_exact _ _

@[simp] theorem fieldC_encodeR : fieldC (encodeR op a b c d) = c :=
  congrArg BitVec.toFin <| (extract_high _ (0 : BitVec 8) 12 4 (by decide)).trans <|
    (extract_high _ (regBits d) (12 - 8) 4 (by decide)).trans <|
    extract_exact _ _

@[simp] theorem fieldD_encodeR : fieldD (encodeR op a b c d) = d :=
  congrArg BitVec.toFin <| (extract_high _ (0 : BitVec 8) 8 4 (by decide)).trans <|
    extract_exact _ _

@[simp] theorem fieldZero_encodeR : fieldZero (encodeR op a b c d) = 0 :=
  extract_exact _ _

/-- A word of format R without registers `c` and `d` has zeros in bits [15:0]. -/
@[simp] theorem fieldImm_encodeR : fieldImm (encodeR op a b 0 0) = 0 := by
  ext i hi
  simp only [fieldImm, encodeR, BitVec.getElem_extractLsb', BitVec.getLsbD_append, regBits]
  have hz : ∀ j, (BitVec.ofFin (0 : Fin 16) : BitVec 4).getLsbD j = false := fun j => BitVec.getLsbD_zero
  split
  · simp
  · split
    · simp
    · rw [if_pos (by omega), hz]
      simp

end FormatR

section FormatI

variable (op : Opcode) (a b : Fin 16) (imm : Imm16)

@[simp] theorem fieldOpcode_encodeI : fieldOpcode (encodeI op a b imm) = op.byte :=
  (extract_high _ imm 24 8 (by decide)).trans <|
    (extract_high _ (regBits b) (24 - 16) 8 (by decide)).trans <|
    (extract_high _ (regBits a) ((24 - 16) - 4) 8 (by decide)).trans <|
    BitVec.extractLsb'_eq_self

@[simp] theorem fieldA_encodeI : fieldA (encodeI op a b imm) = a :=
  congrArg BitVec.toFin <| (extract_high _ imm 20 4 (by decide)).trans <|
    (extract_high _ (regBits b) (20 - 16) 4 (by decide)).trans <|
    extract_exact _ _

@[simp] theorem fieldB_encodeI : fieldB (encodeI op a b imm) = b :=
  congrArg BitVec.toFin <| (extract_high _ imm 16 4 (by decide)).trans <|
    extract_exact _ _

@[simp] theorem fieldImm_encodeI : fieldImm (encodeI op a b imm) = imm :=
  extract_exact _ _

end FormatI

end Sys2Proof
end

