-- ==== Sys2Proof/Laws/Field.lean ====
section
/-! SUPPORT. What a legal configuration gives (R6), and the bounds and the linearity of the field functions. -/

namespace Sys2Proof

open Machine

/-! ## A legal configuration -/

/-- The constraints of R6 as one conjunction. -/
theorem Params.check_iff (p : Params) : p.check = true ↔
    2 ≤ p.m ∧ p.m ≤ 16 ∧ irreducibleOfDegree p.irred p.m = true ∧ 1 ≤ p.alpha ∧ p.alpha < p.q ∧
      p.alphaPowers.Nodup ∧ 1 ≤ p.k ∧ p.k < p.n ∧ p.n < p.q ∧ p.gen.length = p.t + 1 ∧ (∀ c ∈ p.gen, c < p.q) ∧
      p.genAt p.t ≠ 0 ∧ p.n ≤ p.pmax ∧ p.pmax ≤ 65535 := by
  simp [Params.check, and_assoc]

namespace Config

variable (c : Config)

theorem two_le_m : 2 ≤ c.params.m := ((Params.check_iff _).1 c.legal).1
theorem m_le : c.params.m ≤ 16 := ((Params.check_iff _).1 c.legal).2.1
theorem irreducible : irreducibleOfDegree c.params.irred c.params.m = true := ((Params.check_iff _).1 c.legal).2.2.1
theorem alpha_pos : 1 ≤ c.params.alpha := ((Params.check_iff _).1 c.legal).2.2.2.1
theorem alpha_lt : c.params.alpha < c.params.q := ((Params.check_iff _).1 c.legal).2.2.2.2.1
theorem alphaPowers_nodup : c.params.alphaPowers.Nodup := ((Params.check_iff _).1 c.legal).2.2.2.2.2.1
theorem k_pos : 1 ≤ c.params.k := ((Params.check_iff _).1 c.legal).2.2.2.2.2.2.1
theorem k_lt_n : c.params.k < c.params.n := ((Params.check_iff _).1 c.legal).2.2.2.2.2.2.2.1
theorem n_lt_q : c.params.n < c.params.q := ((Params.check_iff _).1 c.legal).2.2.2.2.2.2.2.2.1
theorem gen_length : c.params.gen.length = c.params.t + 1 := ((Params.check_iff _).1 c.legal).2.2.2.2.2.2.2.2.2.1
theorem gen_lt : ∀ x ∈ c.params.gen, x < c.params.q := ((Params.check_iff _).1 c.legal).2.2.2.2.2.2.2.2.2.2.1
theorem gen_top : c.params.genAt c.params.t ≠ 0 := ((Params.check_iff _).1 c.legal).2.2.2.2.2.2.2.2.2.2.2.1
theorem n_le_pmax : c.params.n ≤ c.params.pmax := ((Params.check_iff _).1 c.legal).2.2.2.2.2.2.2.2.2.2.2.2.1
theorem pmax_le : c.params.pmax ≤ 65535 := ((Params.check_iff _).1 c.legal).2.2.2.2.2.2.2.2.2.2.2.2.2

/-- T = N − K is at least 1 (R6). -/
theorem t_pos : 1 ≤ c.params.t := by
  have := c.k_lt_n
  simp only [Params.t]
  omega

/-- T ≤ N. -/
theorem t_le_n : c.params.t ≤ c.params.n := Nat.sub_le _ _

/-- q ≤ 2^16: an element fits in an immediate (D2). -/
theorem q_le : c.params.q ≤ 65536 := by
  have := Nat.pow_le_pow_right (n := 2) (by decide) c.m_le
  simpa [Params.q] using this

/-- 1 is an element. -/
theorem one_lt_q : 1 < c.params.q := by
  have := Nat.pow_le_pow_right (n := 2) (by decide) c.two_le_m
  simp only [Params.q]
  omega

/-- IRRED has degree M (R6). -/
theorem irred_log2 : c.params.irred.log2 = c.params.m ∧ c.params.irred ≠ 0 := by
  have h := c.irreducible
  simp only [irreducibleOfDegree, Bool.and_eq_true, beq_iff_eq, bne_iff_ne] at h
  exact h.1

/-- IRRED is an integer of M + 1 bits (R6). -/
theorem irred_lt : c.params.irred < 2 ^ (c.params.m + 1) := by
  have h := c.irred_log2
  exact h.1 ▸ Nat.lt_log2_self

/-- Bit M of IRRED is set (R6). -/
theorem irred_testBit : c.params.irred.testBit c.params.m = true := by
  have h := c.irred_log2
  exact h.1 ▸ Nat.testBit_log2 h.2

/-- A generator coefficient is an element (R6). -/
theorem genAt_lt (j : Nat) : c.params.genAt j < c.params.q := by
  have h0 : 0 < c.params.q := by have := c.one_lt_q; omega
  rw [Params.genAt, List.getD_eq_getElem?_getD]
  rcases h : c.params.gen[j]? with _ | x
  · simpa using h0
  · simpa using c.gen_lt x (List.mem_of_getElem? h)

end Config

namespace Machine

/-! ## Bounds: every result is in [0, q) (R105) -/

theorem gfadd_lt {p : Params} {a b : Nat} (ha : a < p.q) (hb : b < p.q) : gfadd a b < p.q :=
  Nat.xor_lt_two_pow ha hb

/-- A turn of the loop stays in [0, q): "IRRED has bit M set, so this clears bit M" (R101). -/
theorem gfxtimes_lt (c : Config) {a : Nat} (ha : a < c.params.q) : gfxtimes c.params a < c.params.q := by
  have hd : a <<< 1 < 2 ^ (c.params.m + 1) := by
    simp only [Params.q] at ha
    rw [Nat.shiftLeft_eq, pow_succ]
    omega
  have htop : ∀ i, c.params.m + 1 ≤ i → (a <<< 1).testBit i = false ∧ c.params.irred.testBit i = false := fun i hi =>
    ⟨Nat.testBit_lt_two_pow (lt_of_lt_of_le hd (Nat.pow_le_pow_right (by decide) hi)),
      Nat.testBit_lt_two_pow (lt_of_lt_of_le c.irred_lt (Nat.pow_le_pow_right (by decide) hi))⟩
  simp only [gfxtimes]
  refine Nat.lt_pow_two_of_testBit _ fun i hi => ?_
  rcases Nat.eq_or_lt_of_le hi with rfl | hlt
  · split
    · next hb => simp [Nat.testBit_xor, hb, c.irred_testBit]
    · next hb => simpa using hb
  · split
    · simp [Nat.testBit_xor, (htop i hlt).1, (htop i hlt).2]
    · exact (htop i hlt).1

theorem gfmulLoop_lt (c : Config) (n : Nat) : ∀ {a : Nat} (b : Nat), a < c.params.q →
    gfmulLoop c.params n a b < c.params.q := by
  induction n with
  | zero =>
    intro a b ha
    exact Nat.lt_of_le_of_lt (Nat.zero_le a) ha
  | succ n ih =>
    intro a b ha
    refine gfadd_lt ?_ (ih _ (gfxtimes_lt c ha))
    split
    · exact ha
    · exact Nat.lt_of_le_of_lt (Nat.zero_le a) ha

/-- A product is an element as soon as its first factor is (R101: 0 ≤ r < q). -/
theorem gfmul_lt (c : Config) {a : Nat} (b : Nat) (ha : a < c.params.q) : gfmul c.params a b < c.params.q :=
  gfmulLoop_lt c _ b ha

theorem gfpowLoop_lt (c : Config) (d : Nat) : ∀ {a : Nat} (n : Nat), a < c.params.q →
    gfpowLoop c.params d a n < c.params.q := by
  induction d with
  | zero =>
    intro a n _
    exact c.one_lt_q
  | succ d ih =>
    intro a n ha
    simp only [gfpowLoop]
    split
    · exact c.one_lt_q
    · split
      · exact gfmul_lt c _ ha
      · exact ih _ (gfmul_lt c _ ha)

theorem gfpow_lt (c : Config) {a : Nat} (n : Nat) (ha : a < c.params.q) : gfpow c.params a n < c.params.q :=
  gfpowLoop_lt c _ n ha

theorem gfinv_lt (c : Config) {b : Nat} (hb : b < c.params.q) : gfinv c.params b < c.params.q := gfpow_lt c _ hb

theorem gfdiv_lt (c : Config) {a : Nat} (b : Nat) (ha : a < c.params.q) : gfdiv c.params a b < c.params.q :=
  gfmul_lt c _ ha

theorem gfsum_lt (c : Config) {l : List Nat} (h : ∀ x ∈ l, x < c.params.q) : gfsum l < c.params.q := by
  induction l with
  | nil => exact lt_trans (by decide) c.one_lt_q
  | cons x l ih =>
    exact gfadd_lt (h x (by simp)) (ih fun y hy => h y (by simp [hy]))

/-! ## Addition is an abelian group of exponent two (R100) -/

theorem gfadd_comm (a b : Nat) : gfadd a b = gfadd b a := Nat.xor_comm a b

theorem gfadd_assoc (a b d : Nat) : gfadd (gfadd a b) d = gfadd a (gfadd b d) := Nat.xor_assoc a b d

@[simp] theorem gfadd_zero (a : Nat) : gfadd a 0 = a := Nat.xor_zero a

@[simp] theorem zero_gfadd (a : Nat) : gfadd 0 a = a := Nat.zero_xor a

@[simp] theorem gfadd_self (a : Nat) : gfadd a a = 0 := Nat.xor_self a

/-! ## Multiplication by zero, and linearity in each factor -/

@[simp] theorem gfxtimes_zero (p : Params) : gfxtimes p 0 = 0 := by simp [gfxtimes]

@[simp] theorem gfmul_zero_left (p : Params) (b : Nat) : gfmul p 0 b = 0 := by
  have loop : ∀ n b, gfmulLoop p n 0 b = 0 := by
    intro n
    induction n with
    | zero => exact fun _ => rfl
    | succ n ih =>
      intro b
      simp [gfmulLoop, ih]
  exact loop _ _

@[simp] theorem gfmul_zero_right (p : Params) (a : Nat) : gfmul p a 0 = 0 := by
  have loop : ∀ n a, gfmulLoop p n a 0 = 0 := by
    intro n
    induction n with
    | zero => exact fun _ => rfl
    | succ n ih =>
      intro a
      simp [gfmulLoop, ih]
  exact loop _ _

/-- Multiplication by x is additive. -/
theorem gfxtimes_gfadd (p : Params) (a b : Nat) : gfxtimes p (gfadd a b) = gfadd (gfxtimes p a) (gfxtimes p b) := by
  simp only [gfxtimes, gfadd, Nat.shiftLeft_xor_distrib, Nat.testBit_xor]
  cases (a <<< 1).testBit p.m <;> cases (b <<< 1).testBit p.m <;> simp [Nat.xor_comm, Nat.xor_left_comm]

end Machine

end Sys2Proof
end

