-- ==== Sys2Proof/Laws/State.lean ====
section
/-! SUPPORT. One lemma per field and update, so that no proof unfolds a record update. -/

namespace Sys2Proof.Machine.State

variable (s : State)

/-! ## Writing an element register -/

@[simp] theorem writeE_cfg (r : EReg) (x : Nat) : (s.writeE r x).cfg = s.cfg := rfl
@[simp] theorem writeE_e (r : EReg) (x : Nat) : (s.writeE r x).e = s.e.set r x := rfl
@[simp] theorem writeE_v (r : EReg) (x : Nat) : (s.writeE r x).v = s.v := rfl
@[simp] theorem writeE_par (r : EReg) (x : Nat) : (s.writeE r x).par = s.par := rfl
@[simp] theorem writeE_idx (r : EReg) (x : Nat) : (s.writeE r x).idx = s.idx := rfl
@[simp] theorem writeE_fcause (r : EReg) (x : Nat) : (s.writeE r x).fcause = s.fcause := rfl
@[simp] theorem writeE_fcmd (r : EReg) (x : Nat) : (s.writeE r x).fcmd = s.fcmd := rfl
@[simp] theorem writeE_bwerrs (r : EReg) (x : Nat) : (s.writeE r x).bwerrs = s.bwerrs := rfl
@[simp] theorem writeE_bwsucc (r : EReg) (x : Nat) : (s.writeE r x).bwsucc = s.bwsucc := rfl
@[simp] theorem writeE_port (r : EReg) (x : Nat) : (s.writeE r x).port = s.port := rfl
@[simp] theorem writeE_responses (r : EReg) (x : Nat) : (s.writeE r x).responses = s.responses := rfl
@[simp] theorem writeE_params (r : EReg) (x : Nat) : (s.writeE r x).params = s.params := rfl

/-- Reading an element register after writing one. -/
theorem readE_writeE (r r' : EReg) (x : Nat) :
    (s.writeE r x).readE r' = if r' = r then x else s.readE r' := by
  simp only [readE, writeE, Fin.getElem_fin, Vector.getElem_set, Fin.ext_iff]
  split <;> split <;> simp_all

@[simp] theorem readV_writeE (r : EReg) (x : Nat) (r' : VReg) : (s.writeE r x).readV r' = s.readV r' := rfl

/-! ## Writing a vector register -/

@[simp] theorem writeV_cfg (r : VReg) (c : List Nat) : (s.writeV r c).cfg = s.cfg := rfl
@[simp] theorem writeV_e (r : VReg) (c : List Nat) : (s.writeV r c).e = s.e := rfl
@[simp] theorem writeV_v (r : VReg) (c : List Nat) : (s.writeV r c).v = s.v.set r c := rfl
@[simp] theorem writeV_par (r : VReg) (c : List Nat) : (s.writeV r c).par = s.par := rfl
@[simp] theorem writeV_idx (r : VReg) (c : List Nat) : (s.writeV r c).idx = s.idx := rfl
@[simp] theorem writeV_fcause (r : VReg) (c : List Nat) : (s.writeV r c).fcause = s.fcause := rfl
@[simp] theorem writeV_fcmd (r : VReg) (c : List Nat) : (s.writeV r c).fcmd = s.fcmd := rfl
@[simp] theorem writeV_bwerrs (r : VReg) (c : List Nat) : (s.writeV r c).bwerrs = s.bwerrs := rfl
@[simp] theorem writeV_bwsucc (r : VReg) (c : List Nat) : (s.writeV r c).bwsucc = s.bwsucc := rfl
@[simp] theorem writeV_port (r : VReg) (c : List Nat) : (s.writeV r c).port = s.port := rfl
@[simp] theorem writeV_responses (r : VReg) (c : List Nat) : (s.writeV r c).responses = s.responses := rfl
@[simp] theorem writeV_params (r : VReg) (c : List Nat) : (s.writeV r c).params = s.params := rfl

/-- Reading a vector register after writing one. -/
theorem readV_writeV (r r' : VReg) (c : List Nat) :
    (s.writeV r c).readV r' = if r' = r then c else s.readV r' := by
  simp only [readV, writeV, Fin.getElem_fin, Vector.getElem_set, Fin.ext_iff]
  split <;> split <;> simp_all

@[simp] theorem readE_writeV (r : VReg) (c : List Nat) (r' : EReg) : (s.writeV r c).readE r' = s.readE r' := rfl

/-! ## Writing the encoder -/

@[simp] theorem writeLfsr_cfg (par : List Nat) (idx : Nat) : (s.writeLfsr par idx).cfg = s.cfg := rfl
@[simp] theorem writeLfsr_e (par : List Nat) (idx : Nat) : (s.writeLfsr par idx).e = s.e := rfl
@[simp] theorem writeLfsr_v (par : List Nat) (idx : Nat) : (s.writeLfsr par idx).v = s.v := rfl
@[simp] theorem writeLfsr_par (par : List Nat) (idx : Nat) : (s.writeLfsr par idx).par = par := rfl
@[simp] theorem writeLfsr_idx (par : List Nat) (idx : Nat) : (s.writeLfsr par idx).idx = idx := rfl
@[simp] theorem writeLfsr_fcause (par : List Nat) (idx : Nat) : (s.writeLfsr par idx).fcause = s.fcause := rfl
@[simp] theorem writeLfsr_fcmd (par : List Nat) (idx : Nat) : (s.writeLfsr par idx).fcmd = s.fcmd := rfl
@[simp] theorem writeLfsr_bwerrs (par : List Nat) (idx : Nat) : (s.writeLfsr par idx).bwerrs = s.bwerrs := rfl
@[simp] theorem writeLfsr_bwsucc (par : List Nat) (idx : Nat) : (s.writeLfsr par idx).bwsucc = s.bwsucc := rfl
@[simp] theorem writeLfsr_port (par : List Nat) (idx : Nat) : (s.writeLfsr par idx).port = s.port := rfl
@[simp] theorem writeLfsr_responses (par : List Nat) (idx : Nat) :
    (s.writeLfsr par idx).responses = s.responses := rfl
@[simp] theorem writeLfsr_params (par : List Nat) (idx : Nat) : (s.writeLfsr par idx).params = s.params := rfl
@[simp] theorem readE_writeLfsr (par : List Nat) (idx : Nat) (r : EReg) :
    (s.writeLfsr par idx).readE r = s.readE r := rfl
@[simp] theorem readV_writeLfsr (par : List Nat) (idx : Nat) (r : VReg) :
    (s.writeLfsr par idx).readV r = s.readV r := rfl

/-! ## Writing the decoder's status -/

@[simp] theorem writeBw_cfg (errs : Int) (succ : Bool) : (s.writeBw errs succ).cfg = s.cfg := rfl
@[simp] theorem writeBw_e (errs : Int) (succ : Bool) : (s.writeBw errs succ).e = s.e := rfl
@[simp] theorem writeBw_v (errs : Int) (succ : Bool) : (s.writeBw errs succ).v = s.v := rfl
@[simp] theorem writeBw_par (errs : Int) (succ : Bool) : (s.writeBw errs succ).par = s.par := rfl
@[simp] theorem writeBw_idx (errs : Int) (succ : Bool) : (s.writeBw errs succ).idx = s.idx := rfl
@[simp] theorem writeBw_fcause (errs : Int) (succ : Bool) : (s.writeBw errs succ).fcause = s.fcause := rfl
@[simp] theorem writeBw_fcmd (errs : Int) (succ : Bool) : (s.writeBw errs succ).fcmd = s.fcmd := rfl
@[simp] theorem writeBw_bwerrs (errs : Int) (succ : Bool) : (s.writeBw errs succ).bwerrs = sext32 errs := rfl
@[simp] theorem writeBw_bwsucc (errs : Int) (succ : Bool) : (s.writeBw errs succ).bwsucc = succ := rfl
@[simp] theorem writeBw_port (errs : Int) (succ : Bool) : (s.writeBw errs succ).port = s.port := rfl
@[simp] theorem writeBw_responses (errs : Int) (succ : Bool) : (s.writeBw errs succ).responses = s.responses := rfl
@[simp] theorem writeBw_params (errs : Int) (succ : Bool) : (s.writeBw errs succ).params = s.params := rfl
@[simp] theorem readE_writeBw (errs : Int) (succ : Bool) (r : EReg) : (s.writeBw errs succ).readE r = s.readE r := rfl
@[simp] theorem readV_writeBw (errs : Int) (succ : Bool) (r : VReg) : (s.writeBw errs succ).readV r = s.readV r := rfl

/-! ## The response -/

@[simp] theorem respond_cfg (r : Response) : (s.respond r).cfg = s.cfg := rfl
@[simp] theorem respond_e (r : Response) : (s.respond r).e = s.e := rfl
@[simp] theorem respond_v (r : Response) : (s.respond r).v = s.v := rfl
@[simp] theorem respond_par (r : Response) : (s.respond r).par = s.par := rfl
@[simp] theorem respond_idx (r : Response) : (s.respond r).idx = s.idx := rfl
@[simp] theorem respond_fcause (r : Response) : (s.respond r).fcause = s.fcause := rfl
@[simp] theorem respond_fcmd (r : Response) : (s.respond r).fcmd = s.fcmd := rfl
@[simp] theorem respond_bwerrs (r : Response) : (s.respond r).bwerrs = s.bwerrs := rfl
@[simp] theorem respond_bwsucc (r : Response) : (s.respond r).bwsucc = s.bwsucc := rfl
@[simp] theorem respond_port (r : Response) : (s.respond r).port = s.port := rfl
@[simp] theorem respond_responses (r : Response) : (s.respond r).responses = s.responses ++ [r] := rfl
@[simp] theorem respond_params (r : Response) : (s.respond r).params = s.params := rfl
@[simp] theorem readE_respond (r : Response) (x : EReg) : (s.respond r).readE x = s.readE x := rfl
@[simp] theorem readV_respond (r : Response) (x : VReg) : (s.respond r).readV x = s.readV x := rfl

/-! ## The command port -/

@[simp] theorem withPort_cfg (l : List HostInput) : (s.withPort l).cfg = s.cfg := rfl
@[simp] theorem withPort_e (l : List HostInput) : (s.withPort l).e = s.e := rfl
@[simp] theorem withPort_v (l : List HostInput) : (s.withPort l).v = s.v := rfl
@[simp] theorem withPort_par (l : List HostInput) : (s.withPort l).par = s.par := rfl
@[simp] theorem withPort_idx (l : List HostInput) : (s.withPort l).idx = s.idx := rfl
@[simp] theorem withPort_fcause (l : List HostInput) : (s.withPort l).fcause = s.fcause := rfl
@[simp] theorem withPort_fcmd (l : List HostInput) : (s.withPort l).fcmd = s.fcmd := rfl
@[simp] theorem withPort_bwerrs (l : List HostInput) : (s.withPort l).bwerrs = s.bwerrs := rfl
@[simp] theorem withPort_bwsucc (l : List HostInput) : (s.withPort l).bwsucc = s.bwsucc := rfl
@[simp] theorem withPort_port (l : List HostInput) : (s.withPort l).port = l := rfl
@[simp] theorem withPort_responses (l : List HostInput) : (s.withPort l).responses = s.responses := rfl
@[simp] theorem withPort_params (l : List HostInput) : (s.withPort l).params = s.params := rfl
@[simp] theorem readE_withPort (l : List HostInput) (r : EReg) : (s.withPort l).readE r = s.readE r := rfl
@[simp] theorem readV_withPort (l : List HostInput) (r : VReg) : (s.withPort l).readV r = s.readV r := rfl

/-! ## Reset -/

@[simp] theorem resetOf_cfg (c : Config) : (resetOf c).cfg = c := rfl
@[simp] theorem resetOf_params (c : Config) : (resetOf c).params = c.params := rfl
@[simp] theorem resetOf_par (c : Config) : (resetOf c).par = List.replicate c.params.t 0 := rfl
@[simp] theorem resetOf_idx (c : Config) : (resetOf c).idx = 0 := rfl
@[simp] theorem resetOf_fcause (c : Config) : (resetOf c).fcause = 0 := rfl
@[simp] theorem resetOf_fcmd (c : Config) : (resetOf c).fcmd = 0 := rfl
@[simp] theorem resetOf_bwerrs (c : Config) : (resetOf c).bwerrs = 0 := rfl
@[simp] theorem resetOf_bwsucc (c : Config) : (resetOf c).bwsucc = false := rfl
@[simp] theorem resetOf_port (c : Config) : (resetOf c).port = [] := rfl
@[simp] theorem resetOf_responses (c : Config) : (resetOf c).responses = [] := rfl

@[simp] theorem readE_resetOf (c : Config) (r : EReg) : (resetOf c).readE r = 0 := by
  simp [readE, resetOf]

@[simp] theorem readV_resetOf (c : Config) (r : VReg) : (resetOf c).readV r = [0] := by
  simp [readV, resetOf]

end Sys2Proof.Machine.State
end

