-- ==== Sys2Proof/Laws/Ops.lean ====
section
/-! SUPPORT. What each shared operation can do, once: the ends of a command, the fault procedure, reset, and one step by
what the host does. -/

namespace Sys2Proof.Machine

/-- A command that completes answers exactly the state with its writes and one OK response. -/
theorem complete_eq_next (s t : State) (data : Word) :
    complete s data = .next t ↔ t = s.respond ⟨.ok, 0, data⟩ := by
  simp [complete, eq_comm]

/-- The fault procedure answers exactly the state with FCAUSE, FCMD and one FAULT response. -/
theorem raiseFault_eq_next (code : FaultCode) (w : Word) (s t : State) :
    raiseFault code w s = .next t ↔ t = s.afterFault code.byte w := by
  simp only [raiseFault, Host.Outcome.next.injEq]
  exact eq_comm

/-- The codes of R210 are 1 to 8. -/
theorem FaultCode.byte_range (c : FaultCode) : 1 ≤ c.byte.toNat ∧ c.byte.toNat ≤ 8 := by
  cases c <;> decide

/-- Different fault causes have different codes (R210). -/
theorem FaultCode.byte_injective (c d : FaultCode) (h : c.byte = d.byte) : c = d := by
  cases c <;> cases d <;> first | rfl | exact absurd h (by decide)

@[simp] theorem takeReset_cfg (s : State) : (takeReset s).cfg = s.cfg := rfl
@[simp] theorem takeReset_port (s : State) : (takeReset s).port = s.port := rfl
@[simp] theorem takeReset_responses (s : State) : (takeReset s).responses = s.responses := rfl
@[simp] theorem takeReset_params (s : State) : (takeReset s).params = s.params := rfl
@[simp] theorem takeReset_par (s : State) : (takeReset s).par = List.replicate s.params.t 0 := rfl
@[simp] theorem takeReset_idx (s : State) : (takeReset s).idx = 0 := rfl
@[simp] theorem takeReset_fcause (s : State) : (takeReset s).fcause = 0 := rfl
@[simp] theorem takeReset_bwerrs (s : State) : (takeReset s).bwerrs = 0 := rfl
@[simp] theorem takeReset_bwsucc (s : State) : (takeReset s).bwsucc = false := rfl
@[simp] theorem readE_takeReset (s : State) (r : EReg) : (takeReset s).readE r = 0 := State.readE_resetOf s.cfg r
@[simp] theorem readV_takeReset (s : State) (r : VReg) : (takeReset s).readV r = [0] := State.readV_resetOf s.cfg r

/-- One step, by what stands at the port. -/
theorem step_cases (s t : State) (h : step s = .next t) :
    (s.port = [] ∧ t = s) ∨
    (∃ rest, s.port = .reset :: rest ∧ t = takeReset (s.withPort rest)) ∨
    (∃ w rest i, s.port = .command w :: rest ∧ decode w = .ok i ∧ exec i (s.withPort rest) = .next t) ∨
    (∃ w rest err, s.port = .command w :: rest ∧ decode w = .error err ∧
      t = (s.withPort rest).afterFault FaultCode.illegalCmd.byte w) := by
  unfold step at h
  split at h
  · next hp => exact .inl ⟨hp, by simpa using h.symm⟩
  · next rest hp => exact .inr (.inl ⟨rest, hp, by simpa using h.symm⟩)
  · next w rest hp =>
    split at h
    · next i hd => exact .inr (.inr (.inl ⟨w, rest, i, hp, hd, h⟩))
    · next err hd => exact .inr (.inr (.inr ⟨w, rest, err, hp, hd, (raiseFault_eq_next _ _ _ _).1 h⟩))

end Sys2Proof.Machine
end

