-- ==== Sys2Proof/Laws/PerInstr.lean ====
section
/-! SUPPORT. Laws per instruction, one lemma per constructor of `Instr`.

The family `OpcodeByte`: bits [31:24] of an instruction's word are its opcode (R70, R74). -/

namespace Sys2Proof.Laws.OpcodeByte

/-- "Bits [31:24] are the opcode in every command" (R70). -/
def Statement (i : Instr) : Prop := fieldOpcode (encode i) = i.opcode.byte

theorem gfli (ed : EReg) (imm : Imm16) : Statement (.gfli ed imm) := fieldOpcode_encodeI _ _ _ _

theorem gfalpha (ed : EReg) : Statement (.gfalpha ed) := fieldOpcode_encodeR _ _ _ _ _

theorem gfadd (ed : EReg) (ea : EReg) (eb : EReg) : Statement (.gfadd ed ea eb) := fieldOpcode_encodeR _ _ _ _ _

theorem gfsub (ed : EReg) (ea : EReg) (eb : EReg) : Statement (.gfsub ed ea eb) := fieldOpcode_encodeR _ _ _ _ _

theorem gfneg (ed : EReg) (ea : EReg) : Statement (.gfneg ed ea) := fieldOpcode_encodeR _ _ _ _ _

theorem gfmul (ed : EReg) (ea : EReg) (eb : EReg) : Statement (.gfmul ed ea eb) := fieldOpcode_encodeR _ _ _ _ _

theorem gfdiv (ed : EReg) (ea : EReg) (eb : EReg) : Statement (.gfdiv ed ea eb) := fieldOpcode_encodeR _ _ _ _ _

theorem gfpow (ed : EReg) (ea : EReg) (exp : Imm16) : Statement (.gfpow ed ea exp) := fieldOpcode_encodeI _ _ _ _

theorem gfrd (ea : EReg) : Statement (.gfrd ea) := fieldOpcode_encodeR _ _ _ _ _

theorem vnew (vd : VReg) (len : Imm16) : Statement (.vnew vd len) := fieldOpcode_encodeI _ _ _ _

theorem vset (vd : VReg) (es : EReg) (index : Imm16) : Statement (.vset vd es index) := fieldOpcode_encodeI _ _ _ _

theorem vget (ed : EReg) (vs : VReg) (index : Imm16) : Statement (.vget ed vs index) := fieldOpcode_encodeI _ _ _ _

theorem vlen (vs : VReg) : Statement (.vlen vs) := fieldOpcode_encodeR _ _ _ _ _

theorem padd (vd : VReg) (va : VReg) (vb : VReg) : Statement (.padd vd va vb) := fieldOpcode_encodeR _ _ _ _ _

theorem pmul (vd : VReg) (va : VReg) (vb : VReg) : Statement (.pmul vd va vb) := fieldOpcode_encodeR _ _ _ _ _

theorem peval (ed : EReg) (va : VReg) (ex : EReg) : Statement (.peval ed va ex) := fieldOpcode_encodeR _ _ _ _ _

theorem pdivmod (vq : VReg) (va : VReg) (vb : VReg) (vr : VReg) : Statement (.pdivmod vq va vb vr) := fieldOpcode_encodeR _ _ _ _ _

theorem ptrim (vd : VReg) (vs : VReg) : Statement (.ptrim vd vs) := fieldOpcode_encodeR _ _ _ _ _

theorem pisz (vs : VReg) : Statement (.pisz vs) := fieldOpcode_encodeR _ _ _ _ _

theorem bwdec (vd : VReg) (vs : VReg) (force : Bool) : Statement (.bwdec vd vs force) := fieldOpcode_encodeI _ _ _ _

theorem lfclr : Statement (.lfclr) := fieldOpcode_encodeR _ _ _ _ _

theorem lfstep (ed : EReg) (es : EReg) : Statement (.lfstep ed es) := fieldOpcode_encodeR _ _ _ _ _

theorem lfflush (ed : EReg) : Statement (.lfflush ed) := fieldOpcode_encodeR _ _ _ _ _

theorem lfpar (vd : VReg) : Statement (.lfpar vd) := fieldOpcode_encodeR _ _ _ _ _

theorem csrr (csr : Imm16) : Statement (.csrr csr) := fieldOpcode_encodeI _ _ _ _

end Sys2Proof.Laws.OpcodeByte
end

