-- ==== Sys2Proof/Laws/Poly.lean ====
section
/-! SUPPORT. Lengths, members and coefficients of the polynomial, decoder and encoder functions' results. -/

namespace Sys2Proof.Machine

/-! ## Coefficients -/

/-- A coefficient of a sequence of elements is an element. -/
theorem coeff_lt (c : Config) {a : List Nat} (h : ∀ x ∈ a, x < c.params.q) (j : Nat) : coeff a j < c.params.q := by
  rw [coeff, List.getD_eq_getElem?_getD]
  rcases hj : a[j]? with _ | x
  · simpa using lt_trans (by decide) c.one_lt_q
  · simpa using h x (List.mem_of_getElem? hj)

/-- "a[j] is 0 for j ≥ len(a)". -/
theorem coeff_of_length_le {a : List Nat} {j : Nat} (h : a.length ≤ j) : coeff a j = 0 := by
  simp [coeff, List.getD_eq_getElem?_getD, List.getElem?_eq_none h]

@[simp] theorem coeff_nil (j : Nat) : coeff [] j = 0 := rfl

@[simp] theorem coeff_cons_zero (x : Nat) (a : List Nat) : coeff (x :: a) 0 = x := rfl

@[simp] theorem coeff_cons_succ (x : Nat) (a : List Nat) (j : Nat) : coeff (x :: a) (j + 1) = coeff a j := rfl

/-! ## Trim (R130) -/

theorem dropTopZeros_length_le (a : List Nat) : (dropTopZeros a).length ≤ a.length := by
  induction a with
  | nil => simp [dropTopZeros]
  | cons x a ih =>
    simp only [dropTopZeros]
    split
    · split <;> simp
    · next top h => simpa using ih

theorem mem_of_mem_dropTopZeros {a : List Nat} {x : Nat} (h : x ∈ dropTopZeros a) : x ∈ a := by
  induction a with
  | nil => simp [dropTopZeros] at h
  | cons y a ih =>
    simp only [dropTopZeros] at h
    split at h
    · split at h <;> simp_all
    · next top hne =>
      rcases List.mem_cons.1 h with rfl | h
      · simp
      · exact List.mem_cons_of_mem _ (ih h)

/-- Removing the highest-index zeros changes no coefficient. -/
theorem coeff_dropTopZeros (a : List Nat) : ∀ j, coeff (dropTopZeros a) j = coeff a j := by
  induction a with
  | nil => simp [dropTopZeros]
  | cons x a ih =>
    intro j
    simp only [dropTopZeros]
    split
    · next h =>
      have hz : ∀ i, coeff a i = 0 := fun i => by rw [← ih i, h, coeff_nil]
      split
      · next hx => cases j <;> simp [hx, hz]
      · cases j <;> simp [hz]
    · cases j <;> simp [ih]

/-- `Trim` never gives the empty sequence (R25, R130). -/
theorem trim_length_pos (a : List Nat) : 1 ≤ (trim a).length := by
  simp only [trim]
  split
  · simp
  · next h => exact List.length_pos_iff.2 h

/-- `Trim` never lengthens a non-empty sequence. -/
theorem trim_length_le (a : List Nat) : (trim a).length ≤ max 1 a.length := by
  have := dropTopZeros_length_le a
  simp only [trim]
  split
  · simp
  · omega

/-- `Trim` keeps elements elements. -/
theorem trim_lt (c : Config) {a : List Nat} (h : ∀ x ∈ a, x < c.params.q) : ∀ x ∈ trim a, x < c.params.q := by
  intro x hx
  simp only [trim] at hx
  split at hx
  · simp at hx
    have := c.one_lt_q
    omega
  · exact h x (mem_of_mem_dropTopZeros hx)

/-- `Trim` changes no coefficient (R130). -/
@[simp] theorem coeff_trim (a : List Nat) (j : Nat) : coeff (trim a) j = coeff a j := by
  rw [← coeff_dropTopZeros a j]
  simp only [trim]
  split
  · next h => cases j <;> simp [h]
  · rfl

/-! ## The polynomial functions -/

theorem polyAdd_length_le (a b : List Nat) : (polyAdd a b).length ≤ max 1 (max a.length b.length) := by
  have h := trim_length_le ((List.range (max a.length b.length)).map fun j => gfadd (coeff a j) (coeff b j))
  rwa [List.length_map, List.length_range] at h

theorem polyAdd_lt (c : Config) {a b : List Nat} (ha : ∀ x ∈ a, x < c.params.q) (hb : ∀ x ∈ b, x < c.params.q) :
    ∀ x ∈ polyAdd a b, x < c.params.q := by
  refine trim_lt c fun x hx => ?_
  obtain ⟨j, -, rfl⟩ := List.mem_map.1 hx
  exact gfadd_lt (coeff_lt c ha j) (coeff_lt c hb j)

theorem mulCoeff_lt (c : Config) {a : List Nat} (b : List Nat) (ha : ∀ x ∈ a, x < c.params.q) (j : Nat) :
    mulCoeff c.params a b j < c.params.q := by
  refine gfsum_lt c fun x hx => ?_
  obtain ⟨i, -, rfl⟩ := List.mem_map.1 hx
  exact gfmul_lt c _ (coeff_lt c ha i)

theorem polyMul_lt (c : Config) {a : List Nat} (b : List Nat) (ha : ∀ x ∈ a, x < c.params.q) :
    ∀ x ∈ polyMul c.params a b, x < c.params.q := by
  refine trim_lt c fun x hx => ?_
  obtain ⟨j, -, rfl⟩ := List.mem_map.1 hx
  exact mulCoeff_lt c b ha j

theorem polyEval_lt (c : Config) {a : List Nat} (x : Nat) (ha : ∀ y ∈ a, y < c.params.q) :
    polyEval c.params a x < c.params.q := by
  induction a with
  | nil => exact lt_trans Nat.zero_lt_one c.one_lt_q
  | cons y a ih =>
    exact gfadd_lt (gfmul_lt c x (ih fun z hz => ha z (by simp [hz]))) (ha y (by simp))

@[simp] theorem subtractShifted_length (p : Params) (rem : List Nat) (s f : Nat) (b : List Nat) :
    (subtractShifted p rem s f b).length = rem.length := by
  simp [subtractShifted]

theorem subtractShifted_lt (c : Config) {rem : List Nat} (s : Nat) {f : Nat} (b : List Nat)
    (hr : ∀ x ∈ rem, x < c.params.q) (hf : f < c.params.q) :
    ∀ x ∈ subtractShifted c.params rem s f b, x < c.params.q := by
  intro x hx
  obtain ⟨i, hi, rfl⟩ := List.mem_mapIdx.1 hx
  split
  · exact gfadd_lt (hr _ (List.getElem_mem hi)) (gfmul_lt c _ hf)
  · exact hr _ (List.getElem_mem hi)

theorem divLoop_length (p : Params) (b : List Nat) (n : Nat) : ∀ quo rem : List Nat,
    (divLoop p b n quo rem).1.length = quo.length ∧ (divLoop p b n quo rem).2.length = rem.length := by
  induction n with
  | zero => exact fun _ _ => ⟨rfl, rfl⟩
  | succ n ih =>
    intro quo rem
    simp [divLoop, ih]

theorem divLoop_lt (c : Config) (b : List Nat) (n : Nat) : ∀ quo rem : List Nat,
    (∀ x ∈ quo, x < c.params.q) → (∀ x ∈ rem, x < c.params.q) →
      (∀ x ∈ (divLoop c.params b n quo rem).1, x < c.params.q) ∧
        (∀ x ∈ (divLoop c.params b n quo rem).2, x < c.params.q) := by
  induction n with
  | zero => exact fun _ _ hq hr => ⟨hq, hr⟩
  | succ n ih =>
    intro quo rem hq hr
    have hf : gfdiv c.params (coeff rem (n + (b.length - 1))) (coeff b (b.length - 1)) < c.params.q :=
      gfdiv_lt c _ (coeff_lt c hr _)
    exact ih _ _ (fun x hx => (List.mem_or_eq_of_mem_set hx).elim (hq x) fun h => h ▸ hf) (subtractShifted_lt c n b hr hf)

/-- "both results are no longer than the dividend" (R143). -/
theorem polyDivMod_length_le (p : Params) {a : List Nat} (b : List Nat) (ha : 1 ≤ a.length) :
    (polyDivMod p a b).1.length ≤ a.length ∧ (polyDivMod p a b).2.length ≤ a.length := by
  have h1 := trim_length_le a
  have h2 := trim_length_pos a
  simp only [polyDivMod]
  split
  · constructor
    · simpa using ha
    · show (trim a).length ≤ a.length
      omega
  · have hl := divLoop_length p (trim b) ((trim a).length - 1 - ((trim b).length - 1) + 1)
      (List.replicate ((trim a).length - 1 - ((trim b).length - 1) + 1) 0) (trim a)
    rw [List.length_replicate] at hl
    have hq := trim_length_le (divLoop p (trim b) ((trim a).length - 1 - ((trim b).length - 1) + 1)
      (List.replicate ((trim a).length - 1 - ((trim b).length - 1) + 1) 0) (trim a)).1
    have hr := trim_length_le (divLoop p (trim b) ((trim a).length - 1 - ((trim b).length - 1) + 1)
      (List.replicate ((trim a).length - 1 - ((trim b).length - 1) + 1) 0) (trim a)).2
    dsimp only
    omega

theorem polyDivMod_lt (c : Config) {a : List Nat} (b : List Nat) (ha : ∀ x ∈ a, x < c.params.q) :
    (∀ x ∈ (polyDivMod c.params a b).1, x < c.params.q) ∧ (∀ x ∈ (polyDivMod c.params a b).2, x < c.params.q) := by
  have h0 : 0 < c.params.q := lt_trans (by decide) c.one_lt_q
  simp only [polyDivMod]
  split
  · exact ⟨by simpa using h0, trim_lt c ha⟩
  · have h := divLoop_lt c (trim b) ((trim a).length - 1 - ((trim b).length - 1) + 1)
      (List.replicate ((trim a).length - 1 - ((trim b).length - 1) + 1) 0) (trim a)
      (fun x hx => (List.eq_of_mem_replicate hx).symm ▸ h0) (trim_lt c ha)
    exact ⟨trim_lt c h.1, trim_lt c h.2⟩

/-! ## The decoder -/

/-- The message of a decode has K symbols, whatever the outcome (R168). -/
theorem bwFinish_msg_length (c : Config) {cw : List Nat} (h : cw.length = c.params.n) (force : Bool) (e : Nat)
    (u : List Nat) : (bwFinish c.params cw force e u).msg.length = c.params.k := by
  have := c.k_lt_n
  simp only [bwFinish]
  split
  · simp
    omega
  · split
    · simp
      omega
    · simp [bwCorrect]

/-! ## The encoder -/

@[simp] theorem lfStepReg_length (p : Params) (par : List Nat) (m : Nat) : (lfStepReg p par m).length = p.t := by
  simp [lfStepReg]

theorem lfFlushReg_length (c : Config) {par : List Nat} (h : par.length = c.params.t) :
    (lfFlushReg c.params par).length = c.params.t := by
  have := c.t_pos
  simp [lfFlushReg, h]
  omega

theorem lfFeedback_lt (c : Config) {par : List Nat} {m : Nat} (hp : ∀ x ∈ par, x < c.params.q) (hm : m < c.params.q) :
    lfFeedback c.params par m < c.params.q :=
  gfmul_lt c _ (gfadd_lt hm (coeff_lt c hp _))

theorem lfStepReg_lt (c : Config) {par : List Nat} {m : Nat} (hp : ∀ x ∈ par, x < c.params.q) (hm : m < c.params.q) :
    ∀ x ∈ lfStepReg c.params par m, x < c.params.q := by
  intro x hx
  obtain ⟨j, -, rfl⟩ := List.mem_map.1 hx
  have hg := lfFeedback_lt c hp hm
  cases j with
  | zero => exact gfmul_lt c _ hg
  | succ j => exact gfadd_lt (coeff_lt c hp j) (gfmul_lt c _ hg)

theorem lfFlushReg_lt (c : Config) {par : List Nat} (hp : ∀ x ∈ par, x < c.params.q) :
    ∀ x ∈ lfFlushReg c.params par, x < c.params.q := by
  intro x hx
  rcases List.mem_cons.1 hx with rfl | hx
  · exact lt_trans (by decide) c.one_lt_q
  · exact hp x (List.mem_of_mem_take hx)

end Sys2Proof.Machine
end

