-- ==== Sys2Proof/Tests/Slice0.lean ====
section
/-! SUPPORT. The model's own tests, each on one step of a small state, with expected results from the spec's examples and
vectors (named in each comment), and for every statement with hypotheses a witness that meets them. -/

namespace Sys2Proof.Tests

open Machine

/-- The reset state of a configuration with some element and vector registers written. -/
def st (c : Config) (es : List (EReg × Nat)) (vs : List (VReg × List Nat)) : State :=
  vs.foldl (fun s x => s.writeV x.1 x.2) (es.foldl (fun s x => s.writeE x.1 x.2) (State.resetOf c))

/-- The next state of a result. -/
def after (r : Result) : State :=
  match r with
  | .next t => t
  | .fault _ => State.reset
  | .refused _ => State.reset

/-- The state after one step on the word `w`. -/
def run1 (s : State) (w : Word) : State := after (step (s.withPort [.command w]))

/-- The responses to one step on the word `w`. -/
def answer (s : State) (w : Word) : List Response := (run1 s w).responses

/-! ## WellFormed smoke -/

/-- R75 (c): no CSR has number 5. -/
theorem test_wf_refuses_csr5 : (Instr.csrr 5).wf = false := by decide
theorem test_wf_admits_csr4 : (Instr.csrr 4).wf = true := by decide

/-! ## Decoding: a word of every instruction, from its rule's example (40 to 44) -/

theorem test_decode_gfli : decode 0x10100005 = .ok (.gfli 1 5) := by decide
theorem test_decode_gfalpha : decode 0x11300000 = .ok (.gfalpha 3) := by decide
theorem test_decode_gfadd : decode 0x12012000 = .ok (.gfadd 0 1 2) := by decide
theorem test_decode_gfsub : decode 0x13012000 = .ok (.gfsub 0 1 2) := by decide
theorem test_decode_gfneg : decode 0x14010000 = .ok (.gfneg 0 1) := by decide
theorem test_decode_gfmul : decode 0x15012000 = .ok (.gfmul 0 1 2) := by decide
theorem test_decode_gfdiv : decode 0x16012000 = .ok (.gfdiv 0 1 2) := by decide
theorem test_decode_gfpow : decode 0x17010003 = .ok (.gfpow 0 1 3) := by decide
theorem test_decode_gfrd : decode 0x18020000 = .ok (.gfrd 2) := by decide
theorem test_decode_vnew : decode 0x20000007 = .ok (.vnew 0 7) := by decide
theorem test_decode_vset : decode 0x21010002 = .ok (.vset 0 1 2) := by decide
theorem test_decode_vget : decode 0x22200002 = .ok (.vget 2 0 2) := by decide
theorem test_decode_vlen : decode 0x23030000 = .ok (.vlen 3) := by decide
theorem test_decode_padd : decode 0x24012000 = .ok (.padd 0 1 2) := by decide
theorem test_decode_pmul : decode 0x25012000 = .ok (.pmul 0 1 2) := by decide
theorem test_decode_peval : decode 0x26012000 = .ok (.peval 0 1 2) := by decide
theorem test_decode_pdivmod : decode 0x27312400 = .ok (.pdivmod 3 1 2 4) := by decide
theorem test_decode_ptrim : decode 0x28010000 = .ok (.ptrim 0 1) := by decide
theorem test_decode_pisz : decode 0x29010000 = .ok (.pisz 1) := by decide
theorem test_decode_bwdec : decode 0x30210000 = .ok (.bwdec 2 1 false) := by decide
theorem test_decode_bwdec_force : decode 0x30310001 = .ok (.bwdec 3 1 true) := by decide
theorem test_decode_lfclr : decode 0x40000000 = .ok (.lfclr) := by decide
theorem test_decode_lfstep : decode 0x41210000 = .ok (.lfstep 2 1) := by decide
theorem test_decode_lfflush : decode 0x42200000 = .ok (.lfflush 2) := by decide
theorem test_decode_lfpar : decode 0x43500000 = .ok (.lfpar 5) := by decide
theorem test_decode_csrr : decode 0x70000004 = .ok (.csrr 4) := by decide

/-- T-SY2: the illegal words, with the reason R75 gives each. -/
theorem test_decode_illegal_words :
    decode 0x00000000 = .error .unknownOpcode ∧ decode 0xFFFFFFFF = .error .unknownOpcode ∧
      decode 0x19000000 = .error .unknownOpcode ∧ decode 0x12123001 = .error .nonzeroField ∧
      decode 0x40100000 = .error .nonzeroField ∧ decode 0x18100000 = .error .nonzeroField ∧
      decode 0x11010000 = .error .nonzeroField ∧ decode 0x30210002 = .error .nonzeroField ∧
      decode 0x70000005 = .error .unknownCsr := by decide

/-- The host's reading of a row gives the row's instruction, and the step runs it first after reset. -/
theorem test_table_word : decodeTableWord 32 0x11300000 = some (.gfalpha 3) := by decide
theorem test_fetch_word : (after (step (State.reset.withFetchWord 32 0x11300000))).readE 3 = 2 := by decide

/-! ## Field commands (40_gf_scalar.md examples; T-GF1, T-GF2; P4, P5) -/

theorem test_gfli : (run1 State.reset 0x10100005).readE 1 = 5 := by decide
theorem test_gfli_range : answer (st .cfgB [(1, 5)] []) 0x10100008 = [⟨.fault, 2, 0⟩] ∧
    (run1 (st .cfgB [(1, 5)] []) 0x10100008).readE 1 = 5 := by decide
theorem test_gfadd : (run1 (st .cfgB [(1, 5), (2, 3)] []) 0x12012000).readE 0 = 6 := by decide
theorem test_gfsub : (run1 (st .cfgB [(1, 5), (2, 3)] []) 0x13012000).readE 0 = 6 := by decide
theorem test_gfneg : (run1 (st .cfgB [(1, 5)] []) 0x14010000).readE 0 = 5 := by decide
theorem test_gfmul : (run1 (st .cfgB [(1, 3), (2, 6)] []) 0x15012000).readE 0 = 1 := by decide
/-- T-GF2: 53 · CA = 8F in GF(256). -/
theorem test_gfmul_gf256 : (run1 (st .cfgA [(1, 0x53), (10, 0xCA)] []) 0x15B1A000).readE 11 = 0x8F := by decide +kernel
theorem test_gfdiv : (run1 (st .cfgB [(1, 5), (2, 3)] []) 0x16012000).readE 0 = 3 := by decide
theorem test_gfdiv_zero : answer (st .cfgB [(1, 5)] []) 0x16210000 = [⟨.fault, 3, 0⟩] := by decide
theorem test_gfpow : (run1 (st .cfgB [(1, 3)] []) 0x1701FFFF).readE 0 = 3 := by decide +kernel
theorem test_gfpow_zero_zero : (run1 State.reset 0x17E00000).readE 14 = 1 := by decide
theorem test_gfrd : answer (st .cfgB [(2, 7)] []) 0x18020000 = [⟨.ok, 0, 7⟩] := by decide

/-- T-GF1: row 5 and row 7 of the multiplication table of GF(8). -/
theorem test_gfmul_table : (List.range 8).map (gfmul .cfgB 5) = [0, 5, 1, 4, 2, 7, 3, 6] ∧
    (List.range 8).map (gfmul .cfgB 7) = [0, 7, 5, 2, 1, 6, 4, 3] := by decide

/-! ## Vectors and polynomials (41_poly_vector.md examples; T-PV1 to T-PV5) -/

theorem test_vnew : (run1 State.reset 0x20000007).readV 0 = [0, 0, 0, 0, 0, 0, 0] := by decide
theorem test_vnew_capacity : answer State.reset 0x20100011 = [⟨.fault, 4, 0⟩] := by decide
theorem test_vset : (run1 (st .cfgB [(1, 5)] [(0, [0, 0, 0])]) 0x21010002).readV 0 = [0, 0, 5] := by decide
theorem test_vset_never_extends : answer (st .cfgB [(1, 5)] [(0, [0, 0, 0])]) 0x21010003 = [⟨.fault, 5, 0⟩] := by decide
theorem test_vget : (run1 (st .cfgB [] [(0, [0, 0, 5])]) 0x22200002).readE 2 = 5 := by decide
theorem test_vget_index : answer State.reset 0x22300001 = [⟨.fault, 5, 0⟩] := by decide
theorem test_vlen : answer (st .cfgB [] [(0, [0, 0, 5])]) 0x23000000 = [⟨.ok, 0, 3⟩] := by decide
theorem test_padd : (run1 (st .cfgB [] [(1, [1, 2, 3]), (2, [4, 2, 3])]) 0x24012000).readV 0 = [5] := by decide
theorem test_pmul : (run1 (st .cfgB [] [(1, [3, 6, 4, 0, 0]), (2, [2, 1, 0])]) 0x25012000).readV 0 = [6, 4, 5, 4] := by
  decide +kernel
theorem test_pmul_overflow :
    answer (st .cfgB [] [(1, List.replicate 15 0 ++ [5])]) 0x25211000 = [⟨.fault, 7, 0⟩] := by decide +kernel
theorem test_peval : (run1 (st .cfgB [(2, 2)] [(1, [3, 6, 4])]) 0x26012000).readE 0 = 2 := by decide
theorem test_pdivmod :
    (run1 (st .cfgB [] [(1, [0, 0, 0, 0, 3, 2, 1]), (2, [5, 7, 7, 4, 1])]) 0x27312400).readV 3 = [1, 6, 1] ∧
      (run1 (st .cfgB [] [(1, [0, 0, 0, 0, 3, 2, 1]), (2, [5, 7, 7, 4, 1])]) 0x27312400).readV 4 = [5, 4, 6, 7] := by
  decide +kernel
/-- P4: both faults apply, OPERAND_ALIAS comes first. -/
theorem test_pdivmod_alias_first : answer State.reset 0x27310300 = [⟨.fault, 8, 0⟩] := by decide
theorem test_ptrim : (run1 (st .cfgB [] [(1, [0, 5, 0])]) 0x28010000).readV 0 = [0, 5] := by decide
theorem test_pisz : answer (st .cfgB [] [(1, [0, 0, 0])]) 0x29010000 = [⟨.ok, 0, 1⟩] := by decide
theorem test_pisz_nonzero : answer (st .cfgB [] [(1, [0, 5, 0])]) 0x29010000 = [⟨.ok, 0, 0⟩] := by decide

/-! ## The decoder (42_bw_decoder.md section 6; T-BW2, T-BW5, T-BW6, T-BW8) -/

theorem test_bwdec : (run1 (st .cfgB [] [(1, [1, 7, 3, 0, 2, 0, 1])]) 0x30210000).readV 2 = [1, 2, 3] := by
  decide +kernel
theorem test_bwdec_uncorrectable :
    answer (st .cfgB [] [(1, [0, 3, 2, 0, 2, 0, 1])]) 0x30210000 = [⟨.ok, 0, 0xFFFFFFFF⟩] := by decide +kernel
theorem test_bw_counts_message_positions :
    bwDecode .cfgB [2, 2, 3, 0, 2, 6, 1] false = ⟨[1, 2, 3], 1, true⟩ ∧
      bwDecode .cfgB [1, 2, 3, 5, 2, 6, 1] false = ⟨[1, 2, 3], 0, true⟩ := by decide +kernel
theorem test_bw_beyond_emax :
    bwDecode .cfgB [0, 0, 5, 0, 2, 0, 1] false = ⟨[0, 0, 5], 0, true⟩ ∧
      bwDecode .cfgB [0, 2, 3, 1, 4, 0, 1] false = ⟨[0, 5, 5], 2, true⟩ ∧
      bwDecode .cfgB [0, 3, 2, 0, 2, 0, 1] true = ⟨[0, 3, 2], 0, true⟩ := by decide +kernel
/-- T-BW9, T-BW10: the codes K = 4 and T = 1. -/
theorem test_bw_other_codes :
    bwDecode .cfgK4 [5, 0, 3, 1, 0, 4, 7] false = ⟨[5, 0, 7, 1], 1, true⟩ ∧
      bwDecode .cfgT1 [1, 2, 3, 4] false = ⟨[1, 2, 3], 0, true⟩ := by decide +kernel

/-! ## The encoder (T-LF1, T-LF3, T-LF5) -/

theorem test_lfstep_first : (run1 (st .cfgB [(1, 1)] []) 0x41210000).par = [5, 7, 7, 4] ∧
    answer (st .cfgB [(1, 1)] []) 0x41210000 = [⟨.ok, 0, 1⟩] := by decide
/-- T-LF3: in the parity phase the output is the updated top cell (3), not the old one (7). -/
theorem test_lfstep_parity_phase :
    (run1 ((st .cfgB [(1, 6)] []).writeLfsr [6, 6, 7, 7] 4) 0x41210000).par = [5, 1, 1, 3] ∧
      (run1 ((st .cfgB [(1, 6)] []).writeLfsr [6, 6, 7, 7] 4) 0x41210000).readE 2 = 3 := by decide
theorem test_lfflush : (run1 (State.reset.writeLfsr [5, 4, 6, 7] 3) 0x42200000).par = [0, 5, 4, 6] ∧
    (run1 (State.reset.writeLfsr [5, 4, 6, 7] 3) 0x42200000).readE 2 = 7 := by decide
theorem test_lfflush_exhausted : answer (State.reset.writeLfsr [0, 0, 0, 0] 7) 0x42200000 = [⟨.fault, 6, 0⟩] := by decide
theorem test_lfclr : (run1 (State.reset.writeLfsr [5, 4, 6, 7] 7) 0x40000000).par = [0, 0, 0, 0] ∧
    (run1 (State.reset.writeLfsr [5, 4, 6, 7] 7) 0x40000000).idx = 0 := by decide
theorem test_lfpar : (run1 (State.reset.writeLfsr [5, 4, 6, 7] 3) 0x43500000).readV 5 = [5, 4, 6, 7] := by decide
theorem test_block_encode : blockEnc .cfgB [1, 2, 3] = [1, 2, 3, 7, 6, 4, 5] := by decide +kernel
/-- T-LF5: a non-monic generator multiplies the feedback by GEN[T], so the register is not the remainder. -/
theorem test_nonmonic :
    [1, 2, 3].foldl (lfStepReg { Params.cfgB with gen := [1, 5, 5, 3, 2] }) [0, 0, 0, 0] = [5, 4, 1, 1] := by decide

/-! ## The system command, faults and reset (T-SY1, P4) -/

theorem test_csrr_lfidx : answer (State.reset.writeLfsr [0, 0, 0, 0] 7) 0x70000004 = [⟨.ok, 0, 7⟩] := by decide
theorem test_csrr_bwsucc : answer (State.reset.writeBw 1 true) 0x70000003 = [⟨.ok, 0, 1⟩] := by decide
theorem test_fault_registers : (run1 (st .cfgB [(1, 5)] []) 0x10100008).fcause = 2 ∧
    (run1 (st .cfgB [(1, 5)] []) 0x10100008).fcmd = 0x10100008 := by decide
theorem test_illegal_word : answer State.reset 0x19000000 = [⟨.fault, 1, 0⟩] := by decide
theorem test_reset_input :
    (after (step ((st .cfgB [(1, 5)] [(2, [1, 2])]).withPort [.reset]))) = State.reset := by decide

/-! ## The assembler (R79, R80; P1, P2, P5) -/

theorem test_asm_lines : assembleLine "PDIVMOD v3,v2,v1,v4 ; v3 = [1,6,1]".toList = .command 0x27321400 ∧
    assembleLine "GFLI e10, #0xCA".toList = .command 0x10A000CA ∧
    assembleLine "CSRR #LFIDX".toList = .command 0x70000004 ∧ assembleLine "  ; a comment".toList = .blank ∧
    assembleLine "GFLI e16, #1".toList = .malformed := by decide +kernel
theorem test_asm_writes : instrText (.pdivmod 3 2 1 4) = "PDIVMOD v3, v2, v1, v4".toList := by decide +kernel
/-- Every instruction's text, one of each constructor, is read back as its word. -/
theorem test_asm_round_trip :
    ([.gfli 1 65535, .gfalpha 3, .gfadd 15 1 2, .gfsub 0 1 2, .gfneg 0 1, .gfmul 0 10 2, .gfdiv 0 1 2, .gfpow 0 1 3,
      .gfrd 2, .vnew 0 7, .vset 0 1 2, .vget 2 0 2, .vlen 3, .padd 0 1 2, .pmul 0 1 2, .peval 0 1 2, .pdivmod 3 1 2 4,
      .ptrim 0 1, .pisz 1, .bwdec 2 1 true, .lfclr, .lfstep 2 1, .lfflush 2, .lfpar 5, .csrr 4] : List Instr).all
      (fun i => decide (assembleLine (instrText i) = .command (encode i))) = true := by decide +kernel

/-! ## Witnesses: for each statement with hypotheses, states and operands that meet them; a statement of several
clauses has one for each clause at a boundary -/

/-- The word `w` at the port of the reset state, an `LFCLR` behind it. -/
def atPort (w : Word) : State := State.reset.withPort [.command w, .command 0x40000000]

theorem witness_DecodeOfEncode : (Instr.csrr 4).WellFormed := by decide
theorem witness_EncodeOfDecode : decode 0x70000004 = .ok (.csrr 4) := by decide

theorem witness_IllegalWord_unknownOpcode :
    (atPort 0x19000000).port = .command 0x19000000 :: [.command 0x40000000] ∧
      ∀ op : Opcode, op.byte ≠ fieldOpcode 0x19000000 := by
  refine ⟨rfl, fun op => ?_⟩
  cases op <;> decide
theorem witness_IllegalWord_nonzeroField :
    (atPort 0x12123001).port = .command 0x12123001 :: [.command 0x40000000] ∧
      ∃ op : Opcode, op.byte = fieldOpcode 0x12123001 ∧ 0x12123001 &&& op.mask ≠ op.matchWord :=
  ⟨rfl, .gfadd, by decide⟩
theorem witness_IllegalWord_unknownCsr :
    (atPort 0x70000005).port = .command 0x70000005 :: [.command 0x40000000] ∧
      Opcode.csrr.selects 0x70000005 = true ∧ 4 < (fieldImm 0x70000005).toNat := ⟨rfl, by decide⟩
theorem witness_LegalWord_lastCsr :
    Opcode.csrr.selects 0x70000004 = true ∧ (fieldImm 0x70000004).toNat ≤ 4 := by decide

theorem witness_StepRunsDecodedInstruction :
    (atPort 0x11300000).port = .command 0x11300000 :: [.command 0x40000000] ∧ decode 0x11300000 = .ok (.gfalpha 3) :=
  ⟨rfl, by decide⟩
theorem witness_ResetInput : (State.reset.withPort [.reset, .command 0]).port = .reset :: [.command 0] := rfl
theorem witness_Idle : State.reset.port = [] := rfl

/-- A state with every kind of register written, a decode and a fault behind it, and an `LFFLUSH` at the port. -/
def busy : State :=
  ((((st .cfgB [(1, 7), (2, 3)] [(1, [2, 2, 3, 0, 2, 6, 1]), (2, [0, 5, 0])]).writeLfsr [5, 4, 6, 7] 6).writeBw 3
    true).respond ⟨.fault, 2, 0⟩).withPort [.command 0x42200000]

theorem witness_StepKeepsRanges : busy.Wf ∧ step busy = .next (after (step busy)) := ⟨by decide +kernel, rfl⟩
theorem witness_StepKeepsBwStatus_success :
    (busy.bwsucc = true ∧ busy.bwerrs.toNat ≤ busy.params.k) ∧ step busy = .next (after (step busy)) :=
  ⟨by decide, rfl⟩
theorem witness_StepKeepsBwStatus_uncorrectable :
    (busy.writeBw (-1) false).bwsucc = false ∧ (busy.writeBw (-1) false).bwerrs = 0xFFFFFFFF ∧
      step (busy.writeBw (-1) false) = .next (after (step (busy.writeBw (-1) false))) := ⟨rfl, by decide, rfl⟩
theorem witness_StepKeepsBwStatus_reset :
    State.reset.bwsucc = false ∧ State.reset.bwerrs = 0 ∧ step State.reset = .next State.reset := ⟨rfl, rfl, rfl⟩
theorem witness_StepKeepsResponseForm :
    (∀ r ∈ busy.responses, r.Wf) ∧ step busy = .next (after (step busy)) := ⟨by decide, rfl⟩
theorem witness_StepKeepsConfiguration : step busy = .next (after (step busy)) := rfl

theorem witness_OneResponse_noData :
    exec (.gfalpha 3) busy = .next (after (exec (.gfalpha 3) busy)) ∧ (Instr.gfalpha 3).opcode ∉ dataOpcodes :=
  ⟨rfl, by decide⟩
theorem witness_OneResponse_data :
    exec (.gfrd 1) busy = .next (after (exec (.gfrd 1) busy)) ∧ (Instr.gfrd 1).opcode ∈ dataOpcodes := ⟨rfl, by decide⟩
theorem witness_ResponsesAreNotRead : step busy = .next (after (step busy)) := rfl
theorem witness_FaultChangesOnlyFaultRegisters :
    (atPort 0x10100008).port = .command 0x10100008 :: [.command 0x40000000] ∧
      step (atPort 0x10100008) = .next (after (step (atPort 0x10100008))) ∧
      (after (step (atPort 0x10100008))).responses = (atPort 0x10100008).responses ++ [⟨.fault, 2, 0⟩] :=
  ⟨rfl, rfl, by decide⟩
theorem witness_CompletionKeepsFaultRegisters :
    exec (.gfrd 1) busy = .next (after (exec (.gfrd 1) busy)) ∧
      (after (exec (.gfrd 1) busy)).responses = busy.responses ++ [okResponse 7] := ⟨rfl, by decide⟩
/-- Every fault of R210 but the one of illegal words is raised by some decoded command, and some command raises none. -/
theorem witness_FaultsExactlyWhenStated :
    faultOf (.gfli 1 8) State.reset = some .elemRange ∧ faultOf (.gfli 1 7) State.reset = none ∧
      faultOf (.gfdiv 1 2 3) State.reset = some .divZero ∧ faultOf (.vnew 1 17) State.reset = some .length ∧
      faultOf (.vget 1 0 1) State.reset = some .index ∧ faultOf (.vset 0 1 0) State.reset = none ∧
      faultOf (.lfflush 1) (State.reset.writeLfsr [0, 0, 0, 0] 7) = some .exhausted ∧
      faultOf (.pmul 2 1 1) (st .cfgB [] [(1, List.replicate 15 0 ++ [5])]) = some .vecOverflow ∧
      faultOf (.pdivmod 3 0 0 3) State.reset = some .operandAlias ∧
      faultOf (.pdivmod 3 0 0 4) State.reset = some .divZero ∧ faultOf (.bwdec 2 1 true) State.reset = some .length ∧
      faultOf (.csrr 5) State.reset = some .illegalCmd ∧ faultOf (.csrr 4) State.reset = none := by decide +kernel
theorem witness_OnlyDestinationsChange :
    exec (.lfstep 2 1) busy = .next (after (exec (.lfstep 2 1) busy)) ∧ (3 : EReg) ∉ elementDests (.lfstep 2 1) ∧
      (2 : VReg) ∉ vectorDests (.lfstep 2 1) := ⟨rfl, by decide, by decide⟩
theorem witness_OnlyEncoderCommandsWriteEncoder :
    exec (.lfpar 1) busy = .next (after (exec (.lfpar 1) busy)) ∧ (Instr.lfpar 1).opcode ∉ encoderOpcodes :=
  ⟨rfl, by decide⟩
theorem witness_OnlyCompletedBwdec_other :
    exec (.ptrim 1 2) busy = .next (after (exec (.ptrim 1 2) busy)) ∧ (Instr.ptrim 1 2).opcode ≠ .bwdec :=
  ⟨rfl, by decide⟩
theorem witness_OnlyCompletedBwdec_faulting :
    exec (.bwdec 1 2 false) busy = .next (after (exec (.bwdec 1 2 false) busy)) ∧
      (after (exec (.bwdec 1 2 false) busy)).responses = busy.responses ++ [⟨.fault, 4, 0⟩] := ⟨rfl, by decide⟩

theorem witness_Gfli : (7 : Imm16).toNat < 2 ^ State.reset.params.m ∧ 2 ^ State.reset.params.m ≤ (8 : Imm16).toNat := by
  decide
theorem witness_Gfmul : busy.Wf := by decide +kernel
theorem witness_Gfdiv : busy.Wf ∧ busy.e[(1 : EReg)] ≠ 0 ∧ busy.e[(0 : EReg)] = 0 := by decide +kernel
theorem witness_Gfpow : busy.Wf ∧ busy.e[(1 : EReg)] ≠ 0 := by decide +kernel
theorem witness_FieldLaws : 7 < Config.cfgB.params.q ∧ (7 : Nat) ≠ 0 ∧ (0 : Nat) < Config.cfgB.params.q ∧ gfmul Config.cfgB.params 7 0 = 0 := by decide
theorem witness_LegalIrred : clmul 1 0b1011 = Config.cfgB.params.irred := by decide

theorem witness_Readers_pisz :
    (∀ x ∈ State.reset.v[(0 : VReg)], x = 0) ∧ ∃ x ∈ busy.v[(2 : VReg)], x ≠ 0 := ⟨by decide, 5, by decide⟩
/-- PMAX = 16 in CFG-B: the least and greatest legal lengths and the illegal ones next to them. -/
theorem witness_Vnew :
    (1 ≤ (1 : Imm16).toNat ∧ (1 : Imm16).toNat ≤ State.reset.params.pmax) ∧
      (1 ≤ (16 : Imm16).toNat ∧ (16 : Imm16).toNat ≤ State.reset.params.pmax) ∧ (0 : Imm16).toNat = 0 ∧
      State.reset.params.pmax < (17 : Imm16).toNat := by decide
theorem witness_Vset :
    (2 : Imm16).toNat < busy.v[(2 : VReg)].length ∧ busy.v[(2 : VReg)].length ≤ (3 : Imm16).toNat := by decide
theorem witness_Vget :
    (6 : Imm16).toNat < busy.v[(1 : VReg)].length ∧ busy.v[(1 : VReg)].length ≤ (7 : Imm16).toNat := by decide
/-- The longest product that fits (16 coefficients) and the shortest that does not (17). -/
theorem witness_Pmul :
    (polyMul .cfgB (List.replicate 15 0 ++ [1]) [1]).length = Params.cfgB.pmax ∧
      Params.cfgB.pmax < (polyMul .cfgB (List.replicate 15 0 ++ [1]) [0, 1]).length := by decide +kernel
theorem witness_ProductDegrees :
    [3, 6, 4, 0] ≠ [] ∧ AllElems Config.cfgB.params [3, 6, 4, 0] ∧ isZero [3, 6, 4, 0] = false ∧ isZero [0, 0] = true := by
  decide
theorem witness_Pdivmod : busy.Wf ∧ (3 : VReg) ≠ 4 ∧ isZero busy.v[(2 : VReg)] = false := by decide +kernel
theorem witness_PdivmodFaults : (3 : VReg) = 3 ∧ (3 : VReg) ≠ 4 ∧ ∀ x ∈ busy.v[(0 : VReg)], x = 0 := by decide
theorem witness_Peval : busy.Wf := by decide +kernel

theorem witness_Bwdec :
    busy.v[(1 : VReg)].length = busy.params.n ∧ busy.v[(2 : VReg)].length ≠ busy.params.n := by decide
/-- The reset state with a received word in v1. -/
def received (cw : List Nat) : State := st .cfgB [] [(1, cw)]
/-- The received word of a state of these tests and the trial accepted on it. -/
abbrev Accepts (s : State) (e : Nat) (u : List Nat) : Prop :=
  s.Wf ∧ s.v[(1 : VReg)].length = s.params.n ∧ bwTrials s.params s.v[(1 : VReg)] s.params.emax = (e, u)
/-- T-BW5: the exit at e = 0. -/
theorem witness_Bwdec_exit : Accepts (received [0, 0, 5, 0, 2, 0, 1]) 0 [] := by decide +kernel
/-- T-BW8: an accepted trial e = 2 with R = [3], for the uncorrectable and the forced outcome. -/
theorem witness_Bwdec_remainder :
    Accepts (received [0, 3, 2, 0, 2, 0, 1]) 2 [2, 7, 4, 3, 6, 3, 2] ∧
      polyDivMod .cfgB [4, 3, 6, 3, 2] [2, 7, 1] = ([6, 6, 2], [3]) := by decide +kernel
/-- T-BW2, index 1: an accepted trial e = 1 with R = [0], for the correction. -/
theorem witness_Bwdec_correction :
    Accepts (received [1, 7, 3, 0, 2, 0, 1]) 1 [2, 6, 4, 5, 4, 0, 0] ∧
      polyDivMod .cfgB [6, 4, 5, 4] [2, 1] = ([3, 6, 4], [0]) := by decide +kernel
theorem witness_Solver_unique :
    [[3]].length = 1 ∧ (∀ row ∈ [[3]], row.length = 1 ∧ AllElems Config.cfgB.params row) ∧ [5].length = 1 ∧
      AllElems Config.cfgB.params [5] ∧ solveUnique Config.cfgB.params [[3]] [5] = some [3] := by decide +kernel
theorem witness_Solver_singular :
    solveUnique Config.cfgB.params [[1, 2], [2, 4]] [1, 2] = none ∧
      Solves Config.cfgB.params 2 [[1, 2], [2, 4]] (List.replicate 2 0) [2, 1] := by decide +kernel
/-- T-BW2: a trial accepted at e = EMAX and, T-BW1, one that falls through to e = 0. -/
theorem witness_Trials :
    bwTrials .cfgB [2, 2, 3, 0, 2, 6, 1] Params.cfgB.emax = (2, [7, 6, 2, 5, 0, 3, 4]) ∧
      bwTrials .cfgB [1, 2, 3, 0, 2, 0, 1] Params.cfgB.emax = (0, []) := by decide +kernel
theorem witness_TrialZero :
    [1, 2, 3, 0, 2, 0, 1].length = Config.cfgB.params.n ∧ AllElems Config.cfgB.params [1, 2, 3, 0, 2, 0, 1] := by decide
/-- Exactly EMAX = 2 wrong symbols (T-BW2, indices 0 and 5 of the word of P = [3,6,4]). -/
theorem witness_BwdecCorrects :
    busy.Wf ∧ busy.v[(1 : VReg)].length = busy.params.n ∧ [3, 6, 4].length ≤ busy.params.k ∧
      AllElems busy.params [3, 6, 4] ∧
      (List.range busy.params.n).countP
        (fun i => coeff busy.v[(1 : VReg)] i != coeff (evalWord busy.params [3, 6, 4]) i) = busy.params.emax := by
  decide +kernel
/-- T-BW8. -/
theorem witness_Uncorrectable :
    (st .cfgB [] [(1, [0, 3, 2, 0, 2, 0, 1])]).v[(1 : VReg)].length = Params.cfgB.n ∧
      (bwDecode Params.cfgB (st .cfgB [] [(1, [0, 3, 2, 0, 2, 0, 1])]).v[(1 : VReg)] false).errs = -1 := by
  decide +kernel

/-- The last step of the message phase, the first and the last of the parity phase, and exhaustion (K = 3, N = 7). -/
theorem witness_Lfstep :
    (State.reset.writeLfsr [5, 4, 6, 7] 2).idx < State.reset.params.k ∧
      State.reset.params.k ≤ (State.reset.writeLfsr [5, 4, 6, 7] 3).idx ∧ busy.idx ≠ busy.params.n ∧
      (busy.writeLfsr [0, 0, 0, 0] 7).idx = busy.params.n := by decide
theorem witness_Lfflush :
    busy.idx ≠ busy.params.n ∧ (busy.writeLfsr [0, 0, 0, 0] 7).idx = busy.params.n := by decide
theorem witness_Exhaustion :
    (Instr.lfflush 2).opcode = .lfflush ∧ busy.idx ≠ busy.params.n ∧
      (busy.writeLfsr [0, 0, 0, 0] 7).idx = busy.params.n := by decide
/-- T-S1, T-LF1: Scenario B's message under CFG-B, whose generator is monic. -/
theorem witness_EncodeSequence :
    [1, 2, 3].length = State.reset.params.k ∧ AllElems State.reset.params [1, 2, 3] ∧
      State.reset.params.genAt State.reset.params.t = 1 := by decide
theorem witness_Csrr : 4 < (5 : Imm16).toNat := by decide

end Sys2Proof.Tests
end

section
/-! # No step changes the configuration

How every command ends: with the fault procedure on the state it found, or with the OK response after writes to the
element, vector, encoder and decoder-status registers alone (R57, R78, R212). -/

namespace Sys2Proof.Machine

/-- `u` is `s` but for the registers a completing command may write: the configuration, the fault registers and the
host's two lists are those of `s`. -/
structure State.WritesOnlyRegisters (s u : State) : Prop where
  cfg : u.cfg = s.cfg
  fcause : u.fcause = s.fcause
  fcmd : u.fcmd = s.fcmd
  port : u.port = s.port
  responses : u.responses = s.responses

namespace State.WritesOnlyRegisters

variable {s u : State}

theorem refl (s : State) : s.WritesOnlyRegisters s := ⟨rfl, rfl, rfl, rfl, rfl⟩

theorem writeE (h : s.WritesOnlyRegisters u) (r : EReg) (x : Nat) : s.WritesOnlyRegisters (u.writeE r x) :=
  ⟨h.cfg, h.fcause, h.fcmd, h.port, h.responses⟩

theorem writeV (h : s.WritesOnlyRegisters u) (r : VReg) (c : List Nat) : s.WritesOnlyRegisters (u.writeV r c) :=
  ⟨h.cfg, h.fcause, h.fcmd, h.port, h.responses⟩

theorem writeLfsr (h : s.WritesOnlyRegisters u) (par : List Nat) (idx : Nat) :
    s.WritesOnlyRegisters (u.writeLfsr par idx) :=
  ⟨h.cfg, h.fcause, h.fcmd, h.port, h.responses⟩

theorem writeBw (h : s.WritesOnlyRegisters u) (errs : Int) (success : Bool) :
    s.WritesOnlyRegisters (u.writeBw errs success) :=
  ⟨h.cfg, h.fcause, h.fcmd, h.port, h.responses⟩

end State.WritesOnlyRegisters

/-- The two ways the command `i` may end from the state `s`. -/
inductive EndsCommand (i : Instr) (s : State) : Result → Prop
  /-- the fault procedure on the unchanged state (R212) -/
  | faults (code : FaultCode) : EndsCommand i s (raiseFault code (encode i) s)
  /-- the OK response after register writes (R78) -/
  | completes {u : State} (hu : s.WritesOnlyRegisters u) (data : Word) : EndsCommand i s (complete u data)

/-- A command that checks a condition ends well when both its branches do. -/
theorem EndsCommand.ite {i : Instr} {s : State} {cond : Prop} [Decidable cond] {yes no : Result}
    (hyes : EndsCommand i s yes) (hno : EndsCommand i s no) : EndsCommand i s (if cond then yes else no) := by
  split
  · exact hyes
  · exact hno

theorem execCsrr_ends (csr : Imm16) (s : State) : EndsCommand (.csrr csr) s (execCsrr csr s) := by
  unfold execCsrr
  split
  · exact .completes (.refl s) _
  · exact .faults _

/-- Every command ends in one of the two ways: the checks its meaning makes, then its writes. -/
theorem exec_ends (i : Instr) (s : State) : EndsCommand i s (exec i s) := by
  have hs := State.WritesOnlyRegisters.refl s
  cases i with
  | gfli ed imm => exact .ite (.faults _) (.completes (hs.writeE ed _) _)
  | gfalpha ed => exact .completes (hs.writeE ed _) _
  | gfadd ed _ _ => exact .completes (hs.writeE ed _) _
  | gfsub ed _ _ => exact .completes (hs.writeE ed _) _
  | gfneg ed _ => exact .completes (hs.writeE ed _) _
  | gfmul ed _ _ => exact .completes (hs.writeE ed _) _
  | gfdiv ed _ _ => exact .ite (.faults _) (.completes (hs.writeE ed _) _)
  | gfpow ed _ _ => exact .completes (hs.writeE ed _) _
  | gfrd _ => exact .completes hs _
  | vnew vd _ => exact .ite (.faults _) (.completes (hs.writeV vd _) _)
  | vset vd _ _ => exact .ite (.faults _) (.completes (hs.writeV vd _) _)
  | vget ed _ _ => exact .ite (.faults _) (.completes (hs.writeE ed _) _)
  | vlen _ => exact .completes hs _
  | padd vd _ _ => exact .completes (hs.writeV vd _) _
  | pmul vd _ _ => exact .ite (.faults _) (.completes (hs.writeV vd _) _)
  | peval ed _ _ => exact .completes (hs.writeE ed _) _
  | pdivmod vq _ _ vr =>
    exact .ite (.faults _) (.ite (.faults _) (.completes ((hs.writeV vq _).writeV vr _) _))
  | ptrim vd _ => exact .completes (hs.writeV vd _) _
  | pisz _ => exact .completes hs _
  | bwdec vd _ _ => exact .ite (.faults _) (.completes ((hs.writeV vd _).writeBw _ _) _)
  | lfclr => exact .completes (hs.writeLfsr _ _) _
  | lfstep ed _ => exact .ite (.faults _) (.completes ((hs.writeLfsr _ _).writeE ed _) _)
  | lfflush ed => exact .ite (.faults _) (.completes ((hs.writeLfsr _ _).writeE ed _) _)
  | lfpar vd => exact .completes (hs.writeV vd _) _
  | csrr csr => exact execCsrr_ends csr s

/-- The next state of a command: after the fault procedure, or after register writes and one OK response. -/
theorem exec_cases {i : Instr} {s t : State} (h : exec i s = .next t) :
    (∃ code : FaultCode, t = s.afterFault code.byte (encode i)) ∨
      ∃ u data, s.WritesOnlyRegisters u ∧ t = u.respond ⟨.ok, 0, data⟩ := by
  have hends := exec_ends i s
  rw [h] at hends
  generalize hr : Host.Outcome.next t = r at hends
  cases hends with
  | faults code => exact .inl ⟨code, (raiseFault_eq_next _ _ _ _).1 hr.symm⟩
  | completes hu data => exact .inr ⟨_, data, hu, (complete_eq_next _ _ _).1 hr.symm⟩

/-- No command changes the configuration. -/
theorem exec_cfg {i : Instr} {s t : State} (h : exec i s = .next t) : t.cfg = s.cfg := by
  rcases exec_cases h with ⟨code, rfl⟩ | ⟨u, data, hu, rfl⟩
  · rfl
  · simpa using hu.cfg

/-- Settles O16: by what stands at the port, and for a command by the two ways it may end. -/
theorem stepKeepsConfiguration : Obligations.StepKeepsConfiguration := by
  intro s t h
  rcases step_cases s t h with ⟨-, rfl⟩ | ⟨rest, -, rfl⟩ | ⟨w, rest, i, -, -, hexec⟩ | ⟨w, rest, err, -, -, rfl⟩
  · rfl
  · simp
  · simpa using exec_cfg hexec
  · simp

end Sys2Proof.Machine
end

section
/-! # IRRED of a legal configuration is irreducible

Integers as polynomials over GF(2) (R21): xor is the sum, a left shift the product by a power of x, `clmul` the
product, `gf2Mod` the remainder. -/

namespace Sys2Proof.Machine

open Polynomial

/-- The polynomial over GF(2) an integer stands for: bit j is the coefficient of x^j (R21). -/
noncomputable def gf2Poly (n : Nat) : (ZMod 2)[X] :=
  ∑ j ∈ Finset.range (n.log2 + 1), if n.testBit j then X ^ j else 0

theorem testBit_eq_false_of_log2_lt {n j : Nat} (h : n.log2 < j) : n.testBit j = false :=
  Nat.testBit_lt_two_pow (lt_of_lt_of_le Nat.lt_log2_self (Nat.pow_le_pow_right two_pos h))

@[simp] theorem coeff_gf2Poly (n j : Nat) : (gf2Poly n).coeff j = if n.testBit j then 1 else 0 := by
  have hterm : ∀ i, (if n.testBit i then X ^ i else 0 : (ZMod 2)[X]).coeff j =
      if j = i then (if n.testBit j then 1 else 0) else 0 := by
    intro i
    by_cases hij : j = i
    · subst hij
      split <;> simp
    · split <;> simp [coeff_X_pow, hij]
  simp only [gf2Poly, finsetSum_coeff, hterm, Finset.sum_ite_eq, Finset.mem_range]
  by_cases hj : j < n.log2 + 1
  · rw [if_pos hj]
  · rw [if_neg hj, testBit_eq_false_of_log2_lt (by omega)]
    rfl

theorem gf2Poly_injective : Function.Injective gf2Poly := by
  intro a b h
  refine Nat.eq_of_testBit_eq fun j => ?_
  have hj : (if a.testBit j then 1 else 0 : ZMod 2) = if b.testBit j then 1 else 0 := by
    rw [← coeff_gf2Poly, ← coeff_gf2Poly, h]
  revert hj
  cases a.testBit j <;> cases b.testBit j <;> decide

@[simp] theorem gf2Poly_zero : gf2Poly 0 = 0 := by
  ext j
  simp

@[simp] theorem gf2Poly_one : gf2Poly 1 = 1 := by
  ext j
  simp [Nat.testBit_one_eq_true_iff_self_eq_zero, coeff_one]

@[simp] theorem gf2Poly_eq_zero_iff (n : Nat) : gf2Poly n = 0 ↔ n = 0 :=
  gf2Poly_zero ▸ gf2Poly_injective.eq_iff

@[simp] theorem gf2Poly_eq_one_iff (n : Nat) : gf2Poly n = 1 ↔ n = 1 :=
  gf2Poly_one ▸ gf2Poly_injective.eq_iff

@[simp] theorem gf2Poly_xor (a b : Nat) : gf2Poly (a ^^^ b) = gf2Poly a + gf2Poly b := by
  ext j
  simp only [coeff_gf2Poly, coeff_add, Nat.testBit_xor]
  cases a.testBit j <;> cases b.testBit j <;> decide

@[simp] theorem gf2Poly_shiftLeft (a k : Nat) : gf2Poly (a <<< k) = gf2Poly a * X ^ k := by
  ext j
  by_cases hk : k ≤ j <;> simp [coeff_mul_X_pow', Nat.testBit_shiftLeft, hk]

/-- Every polynomial over GF(2) is that of an integer. -/
theorem gf2Poly_surjective : Function.Surjective gf2Poly := by
  intro p
  induction p using Polynomial.induction_on' with
  | add p q hp hq =>
    obtain ⟨a, rfl⟩ := hp
    obtain ⟨b, rfl⟩ := hq
    exact ⟨a ^^^ b, gf2Poly_xor a b⟩
  | monomial k c =>
    have hc : c = 0 ∨ c = 1 := by
      revert c
      decide
    rcases hc with rfl | rfl
    · exact ⟨0, by simp⟩
    · exact ⟨1 <<< k, by rw [gf2Poly_shiftLeft, gf2Poly_one, one_mul, monomial_one_right_eq_X_pow]⟩

/-! ## Degrees -/

theorem degree_gf2Poly_lt_iff (n k : Nat) : (gf2Poly n).degree < k ↔ n < 2 ^ k := by
  rw [degree_lt_iff_coeff_zero]
  refine ⟨fun h => Nat.lt_pow_two_of_testBit n fun j hj => ?_, fun h j hj => ?_⟩
  · simpa using h j hj
  · simp [Nat.testBit_lt_two_pow (lt_of_lt_of_le h (Nat.pow_le_pow_right two_pos hj))]

theorem natDegree_gf2Poly_le (n : Nat) : (gf2Poly n).natDegree ≤ n.log2 :=
  natDegree_le_iff_coeff_eq_zero.2 fun j hj => by simp [testBit_eq_false_of_log2_lt hj]

theorem natDegree_gf2Poly {n : Nat} (hn : n ≠ 0) : (gf2Poly n).natDegree = n.log2 :=
  natDegree_eq_of_le_of_coeff_ne_zero (natDegree_gf2Poly_le n) (by simp [Nat.testBit_log2 hn])

theorem monic_gf2Poly {n : Nat} (hn : n ≠ 0) : (gf2Poly n).Monic :=
  monic_of_natDegree_le_of_coeff_eq_one _ (natDegree_gf2Poly_le n) (by simp [Nat.testBit_log2 hn])

/-- The one unit among the polynomials over GF(2) is 1. -/
theorem eq_one_of_isUnit_gf2Poly {x : Nat} (h : IsUnit (gf2Poly x)) : x = 1 := by
  have hx : x ≠ 0 := by
    rintro rfl
    simp at h
  exact (gf2Poly_eq_one_iff x).1 ((monic_gf2Poly hx).eq_one_of_isUnit h)

/-! ## The product -/

theorem gf2Poly_gfsum (l : List Nat) : gf2Poly (gfsum l) = (l.map gf2Poly).sum := by
  induction l with
  | nil => exact gf2Poly_zero
  | cons x l ih =>
    rw [List.map_cons, List.sum_cons, ← ih]
    exact gf2Poly_xor x (gfsum l)

@[simp] theorem gf2Poly_clmul (a b : Nat) : gf2Poly (clmul a b) = gf2Poly a * gf2Poly b := by
  have hterm : ∀ i, gf2Poly (if b.testBit i then a <<< i else 0) =
      gf2Poly a * if b.testBit i then X ^ i else 0 := by
    intro i
    split <;> simp
  calc gf2Poly (clmul a b)
      = ∑ i ∈ Finset.range (b.log2 + 1), gf2Poly (if b.testBit i then a <<< i else 0) := by
        rw [clmul, gf2Poly_gfsum, List.map_map]
        rfl
    _ = gf2Poly a * gf2Poly b := by
        simp only [hterm, ← Finset.mul_sum]
        rfl

/-! ## The remainder of the trial division -/

/-- Every step of the division subtracts a multiple of the divisor. -/
theorem dvd_sub_gf2ModLoop (d s : Nat) : ∀ a, gf2Poly d ∣ gf2Poly a - gf2Poly (gf2ModLoop d s a) := by
  induction s with
  | zero => simp [gf2ModLoop]
  | succ s ih =>
    intro a
    rw [gf2ModLoop]
    split
    · have h := (ih (a ^^^ d <<< s)).sub (Dvd.intro (X ^ s) rfl)
      rw [gf2Poly_xor, gf2Poly_shiftLeft] at h
      convert h using 1
      ring
    · exact ih a

theorem lt_two_pow_of_testBit_eq_false {a k : Nat} (ha : a < 2 ^ (k + 1)) (hk : a.testBit k = false) : a < 2 ^ k := by
  refine Nat.lt_pow_two_of_testBit a fun j hj => ?_
  rcases Nat.eq_or_lt_of_le hj with rfl | hlt
  · exact hk
  · exact Nat.testBit_lt_two_pow (lt_of_lt_of_le ha (Nat.pow_le_pow_right two_pos hlt))

/-- One step of the division clears bit `s + log2 d`: when it is set, so is the shifted divisor's top bit. -/
theorem gf2ModStep_lt {a d s : Nat} (hd : d ≠ 0) (ha : a < 2 ^ (s + d.log2 + 1)) :
    (if a.testBit (s + d.log2) then a ^^^ (d <<< s) else a) < 2 ^ (s + d.log2) := by
  split
  · next htop =>
    have hshift : d <<< s < 2 ^ (s + d.log2 + 1) := by
      rw [Nat.shiftLeft_eq, mul_comm, add_assoc, pow_add]
      exact Nat.mul_lt_mul_of_pos_left Nat.lt_log2_self (Nat.two_pow_pos s)
    refine lt_two_pow_of_testBit_eq_false (Nat.xor_lt_two_pow ha hshift) ?_
    simp [Nat.testBit_xor, Nat.testBit_shiftLeft, htop, Nat.testBit_log2 hd]
  · next htop => exact lt_two_pow_of_testBit_eq_false ha (by simpa using htop)

/-- The division clears the bits from the top one down to the divisor's degree. -/
theorem gf2ModLoop_lt {d : Nat} (hd : d ≠ 0) (s : Nat) :
    ∀ a, a < 2 ^ (s + d.log2) → gf2ModLoop d s a < 2 ^ d.log2 := by
  induction s with
  | zero => simp [gf2ModLoop]
  | succ s ih =>
    intro a ha
    exact ih _ (gf2ModStep_lt hd (by rwa [Nat.add_right_comm] at ha))

theorem gf2Poly_gf2Mod (a : Nat) {d : Nat} (hd : d ≠ 0) : gf2Poly (gf2Mod a d) = gf2Poly a %ₘ gf2Poly d := by
  obtain ⟨c, hc⟩ := dvd_sub_gf2ModLoop d (a.log2 + 1 - d.log2) a
  have hlt : gf2Mod a d < 2 ^ d.log2 :=
    gf2ModLoop_lt hd _ a (lt_of_lt_of_le Nat.lt_log2_self (Nat.pow_le_pow_right two_pos (by omega)))
  refine ((div_modByMonic_unique c _ (monic_gf2Poly hd) ⟨?_, ?_⟩).2).symm
  · rw [gf2Mod, ← hc]
    ring
  · rw [degree_eq_natDegree (monic_gf2Poly hd).ne_zero, natDegree_gf2Poly hd]
    exact (degree_gf2Poly_lt_iff _ _).2 hlt

theorem gf2Mod_eq_zero_iff_dvd (a : Nat) {d : Nat} (hd : d ≠ 0) : gf2Mod a d = 0 ↔ gf2Poly d ∣ gf2Poly a := by
  rw [← gf2Poly_eq_zero_iff, gf2Poly_gf2Mod a hd, modByMonic_eq_zero_iff_dvd (monic_gf2Poly hd)]

/-! ## The check of a configuration -/

/-- Trial division by every polynomial of degree 1 to M / 2 decides irreducibility. -/
theorem irreducible_of_irreducibleOfDegree {f m : Nat} (hm : m ≠ 0) (h : irreducibleOfDegree f m = true) :
    Irreducible (gf2Poly f) := by
  simp only [irreducibleOfDegree, Bool.and_eq_true, beq_iff_eq, bne_iff_ne, List.all_eq_true, List.mem_range,
    Bool.or_eq_true, decide_eq_true_eq] at h
  obtain ⟨⟨hdeg, hf⟩, htrial⟩ := h
  have hne1 : gf2Poly f ≠ 1 := by
    rw [Ne, gf2Poly_eq_one_iff]
    rintro rfl
    exact hm hdeg.symm
  refine ((monic_gf2Poly hf).irreducible_iff_lt_natDegree_lt hne1).2 fun g hg hgdeg hdvd => ?_
  obtain ⟨d, rfl⟩ := gf2Poly_surjective g
  have hd : d ≠ 0 := by simpa using hg.ne_zero
  rw [natDegree_gf2Poly hd, natDegree_gf2Poly hf, hdeg, Finset.mem_Ioc] at hgdeg
  have hlt : d < 2 ^ (m / 2 + 1) := (Nat.log2_lt hd).1 (by omega)
  rcases htrial d hlt with hsmall | hmod
  · have : d.log2 < 1 := (Nat.log2_lt hd).2 (by omega)
    omega
  · exact hmod ((gf2Mod_eq_zero_iff_dvd f hd).2 hdvd)

end Sys2Proof.Machine

namespace Sys2Proof.Config

open Machine

/-- IRRED stands for an irreducible polynomial (R6). -/
theorem irreducible_gf2Poly_irred (c : Config) : Irreducible (gf2Poly c.params.irred) :=
  irreducible_of_irreducibleOfDegree (by have := c.two_le_m; omega) c.irreducible

end Sys2Proof.Config

namespace Sys2Proof.Machine

/-- Settles O32: trial division decides irreducibility, and a unit over GF(2) is 1. -/
theorem legalIrredIsIrreducible : Obligations.LegalIrredIsIrreducible := by
  intro c x y hxy
  refine ⟨?_, Nat.ge_two_pow_of_testBit c.irred_testBit, c.irred_lt⟩
  have hmul : gf2Poly c.params.irred = gf2Poly x * gf2Poly y := by rw [← hxy, gf2Poly_clmul]
  exact (c.irreducible_gf2Poly_irred.isUnit_or_isUnit hmul).imp eq_one_of_isUnit_gf2Poly eq_one_of_isUnit_gf2Poly

end Sys2Proof.Machine
end

section
/-! # What a command answers

A property of the state a command answers is shown along the meaning's own shape: its checks, then the fault procedure
or the response after its writes. -/

namespace Sys2Proof.Machine

/-- Every next state the result answers has the property `P`. -/
def Answers (P : State → Prop) (r : Result) : Prop := ∀ t, r = .next t → P t

namespace Answers

variable {P : State → Prop}

theorem complete {u : State} {data : Word} (h : P (u.respond ⟨.ok, 0, data⟩)) : Answers P (complete u data) :=
  fun t ht => (complete_eq_next u t data).1 ht ▸ h

theorem raiseFault {code : FaultCode} {w : Word} {s : State} (h : P (s.afterFault code.byte w)) :
    Answers P (raiseFault code w s) :=
  fun t ht => (raiseFault_eq_next code w s t).1 ht ▸ h

/-- A command that checks a condition, and runs the fault procedure when it holds. -/
theorem raiseFault_or {cond : Prop} [Decidable cond] {code : FaultCode} {w : Word} {s : State} {r : Result}
    (hfault : ∀ code w, P (s.afterFault (FaultCode.byte code) w)) (hno : ¬cond → Answers P r) :
    Answers P (if cond then Machine.raiseFault code w s else r) := by
  split
  · exact raiseFault (hfault _ _)
  · next h => exact hno h

/-- `CSRR` writes nothing when it completes. -/
theorem execCsrr {csr : Imm16} {s : State} (hfault : ∀ code w, P (s.afterFault (FaultCode.byte code) w))
    (hok : ∀ data, Answers P (Machine.complete s data)) : Answers P (execCsrr csr s) := by
  unfold Machine.execCsrr
  split
  · exact hok _
  · exact raiseFault (hfault _ _)

end Answers

/-! ## One response -/

/-- A command answers a next state with one response more, and leaves the port as it is (R78). -/
theorem exec_answers_once (i : Instr) (s : State) :
    ∃ t r, exec i s = .next t ∧ t.responses = s.responses ++ [r] ∧ t.port = s.port := by
  have hends := exec_ends i s
  generalize exec i s = result at hends ⊢
  cases hends with
  | faults code => exact ⟨_, _, rfl, rfl, rfl⟩
  | completes hu data => exact ⟨_, _, rfl, by rw [State.respond_responses, hu.responses], hu.port⟩

/-- A command whose response is FAULT has run the fault procedure on the state it found (R212). -/
theorem exec_of_fault_response {i : Instr} {s t : State} {code : BitVec 8} {data : Word} (h : exec i s = .next t)
    (hr : t.responses = s.responses ++ [⟨.fault, code, data⟩]) :
    ∃ c : FaultCode, t = s.afterFault c.byte (encode i) := by
  rcases exec_cases h with hfault | ⟨u, data', hu, rfl⟩
  · exact hfault
  · simp [hu.responses] at hr

/-- A command whose response is OK has written registers alone (R78). -/
theorem exec_of_ok_response {i : Instr} {s t : State} {data : Word} (h : exec i s = .next t)
    (hr : t.responses = s.responses ++ [okResponse data]) :
    ∃ u, s.WritesOnlyRegisters u ∧ t = u.respond (okResponse data) := by
  rcases exec_cases h with ⟨code, rfl⟩ | ⟨u, data', hu, rfl⟩
  · simp at hr
  · simp only [State.respond_responses, hu.responses, List.append_cancel_left_eq, List.cons.injEq, and_true] at hr
    exact ⟨u, hu, by rw [hr]⟩

/-- Settles O20: a command that completes writes registers alone, and the fault registers are not among them. -/
theorem completionKeepsFaultRegisters : Obligations.CompletionKeepsFaultRegisters := by
  intro i s t data h hr
  obtain ⟨u, hu, rfl⟩ := exec_of_ok_response h hr
  exact ⟨hu.fcause, hu.fcmd⟩

/-! ## A run -/

/-- A command word at the port is taken from it and answered once, legal or not (R78, R249). -/
theorem step_answers_once {s : State} {w : Word} {rest : List HostInput} (hp : s.port = .command w :: rest) :
    ∃ t r, step s = .next t ∧ t.responses = s.responses ++ [r] ∧ t.port = rest := by
  rw [step, hp]
  dsimp only
  cases decode w with
  | ok i => simpa using exec_answers_once i (s.withPort rest)
  | error err => exact ⟨_, _, rfl, rfl, rfl⟩

theorem run_succ_of_step {M : Host.Core} {s t : M.State} (h : M.step s = .next t) (k : Nat) :
    M.run (k + 1) s = M.run k t := by
  simp only [Host.Core.run, h]

/-- As many steps as there are words at the port answer them all. -/
theorem run_answers_all (ws : List Word) : ∀ s : State, s.port = ws.map .command →
    ∃ t : State, Sys2Proof.core.run ws.length s = .next t ∧
      t.responses.length = s.responses.length + ws.length ∧ t.port = [] := by
  induction ws with
  | nil => exact fun s hp => ⟨s, rfl, rfl, hp⟩
  | cons w ws ih =>
    intro s hp
    obtain ⟨s', r, hstep, hresp, hport⟩ := step_answers_once hp
    obtain ⟨t, hrun, hlen, hempty⟩ := ih s' hport
    refine ⟨t, (run_succ_of_step (M := Sys2Proof.core) hstep _).trans hrun, ?_, hempty⟩
    rw [hlen, hresp]
    simp only [List.length_append, List.length_cons, List.length_nil]
    omega

/-- Settles O11: by induction on the words presented. -/
theorem runAnswersEveryCommand : Obligations.RunAnswersEveryCommand :=
  fun s ws => run_answers_all ws (s.withPort (ws.map .command)) rfl

/-! ## Who writes the encoder and the decoder's status -/

/-- `t` has the encoder of `s`. -/
structure State.KeepsEncoder (s t : State) : Prop where
  par : t.par = s.par
  idx : t.idx = s.idx

/-- `t` has the decode status of `s`. -/
structure State.KeepsBwStatus (s t : State) : Prop where
  bwerrs : t.bwerrs = s.bwerrs
  bwsucc : t.bwsucc = s.bwsucc

/-- The encoder changes by `LFSTEP`, `LFFLUSH` and `LFCLR` alone, the decode status by `BWDEC` alone. -/
structure KeepsUnits (i : Instr) (s t : State) : Prop where
  encoder : i.opcode ∉ encoderOpcodes → s.KeepsEncoder t
  status : i.opcode ≠ .bwdec → s.KeepsBwStatus t

namespace KeepsUnits

variable {i : Instr} {s t : State}

theorem of_kept (he : s.KeepsEncoder t) (hb : s.KeepsBwStatus t) : KeepsUnits i s t := ⟨fun _ => he, fun _ => hb⟩

theorem of_encoder (hi : i.opcode ∈ encoderOpcodes) (hb : s.KeepsBwStatus t) : KeepsUnits i s t :=
  ⟨fun h => absurd hi h, fun _ => hb⟩

theorem of_bwdec (hi : i.opcode = .bwdec) (he : s.KeepsEncoder t) : KeepsUnits i s t :=
  ⟨fun _ => he, fun h => absurd hi h⟩

theorem afterFault (code : FaultCode) (w : Word) : KeepsUnits i s (s.afterFault code.byte w) :=
  of_kept ⟨rfl, rfl⟩ ⟨rfl, rfl⟩

theorem answers_unchanged {data : Word} : Answers (KeepsUnits i s) (complete s data) :=
  .complete (of_kept ⟨rfl, rfl⟩ ⟨rfl, rfl⟩)

theorem answers_writeE {r : EReg} {x : Nat} {data : Word} : Answers (KeepsUnits i s) (complete (s.writeE r x) data) :=
  .complete (of_kept ⟨rfl, rfl⟩ ⟨rfl, rfl⟩)

theorem answers_writeV {r : VReg} {c : List Nat} {data : Word} :
    Answers (KeepsUnits i s) (complete (s.writeV r c) data) :=
  .complete (of_kept ⟨rfl, rfl⟩ ⟨rfl, rfl⟩)

end KeepsUnits

open KeepsUnits in
/-- Every command keeps the units it does not belong to. -/
theorem exec_keepsUnits (i : Instr) (s : State) : Answers (KeepsUnits i s) (exec i s) := by
  cases i with
  | gfli => exact .raiseFault_or afterFault fun _ => answers_writeE
  | gfalpha => exact answers_writeE
  | gfadd => exact answers_writeE
  | gfsub => exact answers_writeE
  | gfneg => exact answers_writeE
  | gfmul => exact answers_writeE
  | gfdiv => exact .raiseFault_or afterFault fun _ => answers_writeE
  | gfpow => exact answers_writeE
  | gfrd => exact answers_unchanged
  | vnew => exact .raiseFault_or afterFault fun _ => answers_writeV
  | vset => exact .raiseFault_or afterFault fun _ => answers_writeV
  | vget => exact .raiseFault_or afterFault fun _ => answers_writeE
  | vlen => exact answers_unchanged
  | padd => exact answers_writeV
  | pmul => exact .raiseFault_or afterFault fun _ => answers_writeV
  | peval => exact answers_writeE
  | pdivmod =>
    exact .raiseFault_or afterFault fun _ => .raiseFault_or afterFault fun _ =>
      .complete (of_kept ⟨rfl, rfl⟩ ⟨rfl, rfl⟩)
  | ptrim => exact answers_writeV
  | pisz => exact answers_unchanged
  | bwdec => exact .raiseFault_or afterFault fun _ => .complete (of_bwdec rfl ⟨rfl, rfl⟩)
  | lfclr => exact .complete (of_encoder (by simp [Instr.opcode, encoderOpcodes]) ⟨rfl, rfl⟩)
  | lfstep =>
    exact .raiseFault_or afterFault fun _ => .complete (of_encoder (by simp [Instr.opcode, encoderOpcodes]) ⟨rfl, rfl⟩)
  | lfflush =>
    exact .raiseFault_or afterFault fun _ => .complete (of_encoder (by simp [Instr.opcode, encoderOpcodes]) ⟨rfl, rfl⟩)
  | lfpar => exact answers_writeV
  | csrr csr => exact .execCsrr afterFault fun _ => answers_unchanged

/-- Settles O23: the encoder's part of what every command keeps. -/
theorem onlyEncoderCommandsWriteEncoder : Obligations.OnlyEncoderCommandsWriteEncoder := by
  intro i s t h hi
  obtain ⟨hpar, hidx⟩ := (exec_keepsUnits i s t h).encoder hi
  exact ⟨hpar, hidx⟩

/-- Settles O24: the decode status's part of what every command keeps, and the fault procedure writes neither. -/
theorem onlyCompletedBwdecWritesStatus : Obligations.OnlyCompletedBwdecWritesStatus := by
  rintro i s t h (hi | ⟨code, data, hr⟩)
  · obtain ⟨herrs, hsucc⟩ := (exec_keepsUnits i s t h).status hi
    exact ⟨herrs, hsucc⟩
  · obtain ⟨c, rfl⟩ := exec_of_fault_response h hr
    exact ⟨rfl, rfl⟩

end Sys2Proof.Machine
end

section
/-! # Every step keeps the ranges of the registers

The values of the functions are elements and vectors again (R25, R105), the linear solver's and the decoder's included;
then one rule per write, and one line per command. -/

namespace Sys2Proof.Machine

/-- What holds of every pair of entries holds of every entry of a combination of two sequences. -/
theorem forall_mem_zipWith {α β γ : Type} {f : α → β → γ} {l : List α} {l' : List β} {P : γ → Prop}
    (h : ∀ x ∈ l, ∀ y ∈ l', P (f x y)) : ∀ z ∈ List.zipWith f l l', P z := by
  rw [← List.map_uncurry_zip_eq_zipWith, List.forall_mem_map]
  exact fun xy hxy => h _ (List.of_mem_zip hxy).1 _ (List.of_mem_zip hxy).2

/-! ## The linear solver keeps elements (R161) -/

/-- Every entry of every row is an element. -/
abbrev AllRowsElems (p : Params) (w : List (List Nat)) : Prop := ∀ row ∈ w, AllElems p row

section Solver

variable {c : Config} {w : List (List Nat)}

theorem allElems_rowAt (h : AllRowsElems c.params w) (r : Nat) : AllElems c.params (rowAt w r) := by
  rw [rowAt, List.getD_eq_getElem?_getD]
  rcases hr : w[r]? with _ | row
  · exact List.forall_mem_nil _
  · exact h row (List.mem_of_getElem? hr)

theorem AllRowsElems.set (h : AllRowsElems c.params w) {row : List Nat} (hrow : AllElems c.params row) (r : Nat) :
    AllRowsElems c.params (w.set r row) := fun row' hmem =>
  (List.mem_or_eq_of_mem_set hmem).elim (h row') fun heq => heq ▸ hrow

theorem allRowsElems_swapRows (h : AllRowsElems c.params w) (i j : Nat) : AllRowsElems c.params (swapRows w i j) :=
  (h.set (allElems_rowAt h j) i).set (allElems_rowAt h i) j

theorem allRowsElems_normaliseRow (h : AllRowsElems c.params w) (col : Nat) :
    AllRowsElems c.params (normaliseRow c.params w col) := by
  refine h.set (fun x hx => ?_) col
  obtain ⟨y, -, rfl⟩ := List.mem_map.1 hx
  exact gfmul_lt c y (gfinv_lt c (coeff_lt c (allElems_rowAt h col) col))

/-- The sum of a row and a multiple of another. -/
theorem allElems_addMultiple {row : List Nat} (pivot : List Nat) {f : Nat} (hrow : AllElems c.params row)
    (hf : f < c.params.q) : AllElems c.params (List.zipWith (fun x y => gfadd x (gfmul c.params f y)) row pivot) :=
  forall_mem_zipWith fun x hx y _ => gfadd_lt (hrow x hx) (gfmul_lt c y hf)

theorem allRowsElems_eliminateColumn (h : AllRowsElems c.params w) (col : Nat) :
    AllRowsElems c.params (eliminateColumn c.params w col) := by
  intro row hrow
  obtain ⟨r, hr, rfl⟩ := List.mem_mapIdx.1 hrow
  have hold : AllElems c.params w[r] := h _ (List.getElem_mem hr)
  dsimp only
  split
  · exact allElems_addMultiple _ hold (coeff_lt c hold col)
  · exact hold

theorem allRowsElems_gaussJordan (cols : List Nat) : ∀ {w w' : List (List Nat)}, AllRowsElems c.params w →
    gaussJordan c.params cols w = some w' → AllRowsElems c.params w' := by
  induction cols with
  | nil =>
    intro w w' h heq
    obtain rfl : w = w' := by simpa [gaussJordan] using heq
    exact h
  | cons col cols ih =>
    intro w w' h heq
    rw [gaussJordan] at heq
    split at heq
    · cases heq
    · next piv _ =>
      exact ih (allRowsElems_eliminateColumn (allRowsElems_normaliseRow (allRowsElems_swapRows h col piv) col) col) heq

/-- A solution of a system over the field is a sequence of elements. -/
theorem allElems_solveUnique {a : List (List Nat)} {rhs u : List Nat} (ha : AllRowsElems c.params a)
    (hrhs : AllElems c.params rhs) (hu : solveUnique c.params a rhs = some u) : AllElems c.params u := by
  have haug : AllRowsElems c.params (List.zipWith (fun row r => row ++ [r]) a rhs) :=
    forall_mem_zipWith fun row hrow r hr =>
      List.forall_mem_append.2 ⟨ha row hrow, List.forall_mem_singleton.2 (hrhs r hr)⟩
  rw [solveUnique] at hu
  split at hu
  · cases hu
  · next w hw =>
    cases hu
    intro x hx
    obtain ⟨row, hrow, rfl⟩ := List.mem_map.1 hx
    exact coeff_lt c (allRowsElems_gaussJordan _ haug hw row hrow) _

end Solver

/-! ## The decoder keeps elements (R162 to R167) -/

section Decoder

variable {c : Config} {cw : List Nat}

theorem evalPoint_lt (c : Config) (i : Nat) : evalPoint c.params i < c.params.q := gfpow_lt c i c.alpha_lt

theorem allRowsElems_bwMatrix (hcw : AllElems c.params cw) (e : Nat) :
    AllRowsElems c.params (bwMatrix c.params cw e) := by
  intro row hrow
  obtain ⟨i, -, rfl⟩ := List.mem_map.1 hrow
  refine List.forall_mem_append.2 ⟨fun x hx => ?_, fun x hx => ?_⟩
  · obtain ⟨j, -, rfl⟩ := List.mem_map.1 hx
    exact gfmul_lt c _ (coeff_lt c hcw i)
  · obtain ⟨j, -, rfl⟩ := List.mem_map.1 hx
    exact gfpow_lt c j (evalPoint_lt c i)

theorem allElems_bwRhs (hcw : AllElems c.params cw) (e : Nat) : AllElems c.params (bwRhs c.params cw e) := by
  intro x hx
  obtain ⟨i, -, rfl⟩ := List.mem_map.1 hx
  exact gfmul_lt c _ (coeff_lt c hcw i)

theorem allElems_bwTrials (hcw : AllElems c.params cw) (e : Nat) : AllElems c.params (bwTrials c.params cw e).2 := by
  induction e with
  | zero => exact List.forall_mem_nil _
  | succ e ih =>
    rw [bwTrials]
    split
    · next u hu => exact allElems_solveUnique (allRowsElems_bwMatrix hcw _) (allElems_bwRhs hcw _) hu
    · exact ih

theorem allElems_bwCorrect (hcw : AllElems c.params cw) {f : List Nat} (hf : AllElems c.params f)
    (locator : List Nat) : AllElems c.params (bwCorrect c.params cw locator f).msg := by
  intro x hx
  obtain ⟨i, -, rfl⟩ := List.mem_map.1 hx
  split
  · exact polyEval_lt c _ hf
  · exact coeff_lt c hcw i

theorem allElems_bwFinish (hcw : AllElems c.params cw) (force : Bool) (e : Nat) {u : List Nat}
    (hu : AllElems c.params u) : AllElems c.params (bwFinish c.params cw force e u).msg := by
  have hreceived : AllElems c.params (cw.take c.params.k) := fun x hx => hcw x (List.mem_of_mem_take hx)
  have hnum : AllElems c.params (trim (u.drop e)) := trim_lt c fun x hx => hu x (List.mem_of_mem_drop hx)
  simp only [bwFinish]
  split
  · exact hreceived
  · split
    · exact hreceived
    · exact allElems_bwCorrect hcw (polyDivMod_lt c _ hnum).1 _

theorem allElems_bwDecode (hcw : AllElems c.params cw) (force : Bool) :
    AllElems c.params (bwDecode c.params cw force).msg :=
  allElems_bwFinish hcw force _ (allElems_bwTrials hcw _)

end Decoder

/-! ## What a vector register may hold (R22, R25) -/

section Vectors

variable {c : Config} {a b : List Nat}

theorem vectorWf_replicate {n : Nat} (hpos : 1 ≤ n) (hmax : n ≤ c.params.pmax) :
    VectorWf c.params (List.replicate n 0) := by
  refine ⟨by simpa using hpos, by simpa using hmax, fun x hx => ?_⟩
  rw [List.eq_of_mem_replicate hx]
  exact Nat.zero_lt_of_lt c.one_lt_q

theorem VectorWf.set (h : VectorWf c.params a) (i : Nat) {x : Nat} (hx : x < c.params.q) :
    VectorWf c.params (a.set i x) := by
  obtain ⟨hpos, hmax, helem⟩ := h
  refine ⟨by simpa using hpos, by simpa using hmax, fun y hy => ?_⟩
  exact (List.mem_or_eq_of_mem_set hy).elim (helem y) fun heq => heq ▸ hx

theorem VectorWf.trim (h : VectorWf c.params a) : VectorWf c.params (trim a) := by
  obtain ⟨hpos, hmax, helem⟩ := h
  have hlen := trim_length_le a
  exact ⟨trim_length_pos a, by omega, trim_lt c helem⟩

theorem VectorWf.polyAdd (ha : VectorWf c.params a) (hb : VectorWf c.params b) : VectorWf c.params (polyAdd a b) := by
  obtain ⟨hapos, hamax, haelem⟩ := ha
  obtain ⟨hbpos, hbmax, hbelem⟩ := hb
  have hlen := polyAdd_length_le a b
  exact ⟨trim_length_pos _, by omega, polyAdd_lt c haelem hbelem⟩

/-- A product is a vector when it fits; "the product is not truncated" (R142). -/
theorem vectorWf_polyMul (ha : AllElems c.params a) (hfits : (polyMul c.params a b).length ≤ c.params.pmax) :
    VectorWf c.params (polyMul c.params a b) :=
  ⟨trim_length_pos _, hfits, polyMul_lt c b ha⟩

theorem polyDivMod_length_pos (p : Params) (a b : List Nat) :
    1 ≤ (polyDivMod p a b).1.length ∧ 1 ≤ (polyDivMod p a b).2.length := by
  simp only [polyDivMod]
  split
  · exact ⟨le_rfl, trim_length_pos a⟩
  · exact ⟨trim_length_pos _, trim_length_pos _⟩

theorem VectorWf.polyDivMod (h : VectorWf c.params a) (b : List Nat) :
    VectorWf c.params (polyDivMod c.params a b).1 ∧ VectorWf c.params (polyDivMod c.params a b).2 := by
  obtain ⟨hpos, hmax, helem⟩ := h
  obtain ⟨hquoPos, hremPos⟩ := polyDivMod_length_pos c.params a b
  obtain ⟨hquoLen, hremLen⟩ := polyDivMod_length_le c.params b hpos
  obtain ⟨hquo, hrem⟩ := polyDivMod_lt c b helem
  exact ⟨⟨hquoPos, hquoLen.trans hmax, hquo⟩, ⟨hremPos, hremLen.trans hmax, hrem⟩⟩

/-- The message of a decode is K elements, and 1 ≤ K < N ≤ PMAX (R6, R168). -/
theorem vectorWf_bwDecode (hcw : AllElems c.params a) (hlen : a.length = c.params.n) (force : Bool) :
    VectorWf c.params (bwDecode c.params a force).msg := by
  have hmsg : (bwDecode c.params a force).msg.length = c.params.k := bwFinish_msg_length c hlen force _ _
  rw [VectorWf, hmsg]
  exact ⟨c.k_pos, c.k_lt_n.le.trans c.n_le_pmax, allElems_bwDecode hcw force⟩

end Vectors

/-! ## The invariant, write by write -/

namespace State.Wf

variable {s : State}

theorem readE_lt (h : s.Wf) (r : EReg) : s.readE r < s.params.q := h.1 r

theorem vectorWf_readV (h : s.Wf) (r : VReg) : VectorWf s.params (s.readV r) := h.2.1 r

theorem allElems_readV (h : s.Wf) (r : VReg) : AllElems s.params (s.readV r) := (h.vectorWf_readV r).2.2

theorem par_length (h : s.Wf) : s.par.length = s.params.t := h.2.2.1

theorem par_lt (h : s.Wf) : AllElems s.params s.par := h.2.2.2.1

theorem idx_le (h : s.Wf) : s.idx ≤ s.params.n := h.2.2.2.2.1

theorem fcause_le (h : s.Wf) : s.fcause.toNat ≤ 8 := h.2.2.2.2.2

/-- The parity register is T elements, and T ≤ N ≤ PMAX (R6). -/
theorem vectorWf_par (h : s.Wf) : VectorWf s.params s.par := by
  rw [VectorWf, h.par_length]
  exact ⟨s.cfg.t_pos, s.cfg.t_le_n.trans s.cfg.n_le_pmax, h.par_lt⟩

theorem writeE (h : s.Wf) {x : Nat} (hx : x < s.params.q) (r : EReg) : (s.writeE r x).Wf := by
  refine ⟨fun r' => ?_, h.vectorWf_readV, h.par_length, h.par_lt, h.idx_le, h.fcause_le⟩
  rw [readE_writeE]
  split
  · exact hx
  · exact h.readE_lt r'

theorem writeV (h : s.Wf) {a : List Nat} (ha : VectorWf s.params a) (r : VReg) : (s.writeV r a).Wf := by
  refine ⟨h.readE_lt, fun r' => ?_, h.par_length, h.par_lt, h.idx_le, h.fcause_le⟩
  rw [readV_writeV]
  split
  · exact ha
  · exact h.vectorWf_readV r'

theorem writeLfsr (h : s.Wf) {par : List Nat} {idx : Nat} (hlen : par.length = s.params.t)
    (hpar : AllElems s.params par) (hidx : idx ≤ s.params.n) : (s.writeLfsr par idx).Wf :=
  ⟨h.readE_lt, h.vectorWf_readV, hlen, hpar, hidx, h.fcause_le⟩

theorem writeBw (h : s.Wf) (errs : Int) (success : Bool) : (s.writeBw errs success).Wf := h

theorem respond (h : s.Wf) (r : Response) : (s.respond r).Wf := h

theorem withPort (h : s.Wf) (port : List HostInput) : (s.withPort port).Wf := h

/-- The fault procedure puts a code of R210 into FCAUSE. -/
theorem afterFault (h : s.Wf) (code : FaultCode) (w : Word) : (s.afterFault code.byte w).Wf :=
  ⟨h.readE_lt, h.vectorWf_readV, h.par_length, h.par_lt, h.idx_le, code.byte_range.2⟩

/-- The index of a symbol command below exhaustion stays in [0, N] (R29, R181, R182). -/
theorem idx_succ_le (h : s.Wf) (hidx : s.idx ≠ s.params.n) : s.idx + 1 ≤ s.params.n := lt_of_le_of_ne h.idx_le hidx

theorem answers (h : s.Wf) {data : Word} : Answers State.Wf (complete s data) := .complete (h.respond _)

theorem answers_writeE (h : s.Wf) {x : Nat} (hx : x < s.params.q) {r : EReg} {data : Word} :
    Answers State.Wf (complete (s.writeE r x) data) :=
  (h.writeE hx r).answers

theorem answers_writeV (h : s.Wf) {a : List Nat} (ha : VectorWf s.params a) {r : VReg} {data : Word} :
    Answers State.Wf (complete (s.writeV r a) data) :=
  (h.writeV ha r).answers

end State.Wf

/-- The output symbol of `LFSTEP` is an element (R181). -/
theorem lfStepOut_lt (c : Config) {par : List Nat} {m : Nat} (hpar : AllElems c.params par) (hm : m < c.params.q)
    (idx : Nat) : lfStepOut c.params par idx m < c.params.q := by
  rw [lfStepOut]
  split
  · exact hm
  · exact coeff_lt c (lfStepReg_lt c hpar hm) _

theorem execLfstep_wf {s : State} (h : s.Wf) (ed es : EReg) : Answers State.Wf (execLfstep ed es s) := by
  have hout := lfStepOut_lt s.cfg h.par_lt (h.readE_lt es) s.idx
  have hreg := lfStepReg_lt s.cfg h.par_lt (h.readE_lt es)
  exact .raiseFault_or h.afterFault fun hidx =>
    ((h.writeLfsr (lfStepReg_length _ _ _) hreg (h.idx_succ_le hidx)).writeE hout ed).answers

theorem execLfflush_wf {s : State} (h : s.Wf) (ed : EReg) : Answers State.Wf (execLfflush ed s) := by
  have hout : lfFlushOut s.params s.par < s.params.q := coeff_lt s.cfg h.par_lt _
  have hreg := lfFlushReg_lt s.cfg h.par_lt
  exact .raiseFault_or h.afterFault fun hidx =>
    ((h.writeLfsr (lfFlushReg_length s.cfg h.par_length) hreg (h.idx_succ_le hidx)).writeE hout ed).answers

theorem execLfclr_wf {s : State} (h : s.Wf) : Answers State.Wf (execLfclr s) := by
  have hzero : AllElems s.params (List.replicate s.params.t 0) :=
    (vectorWf_replicate (c := s.cfg) s.cfg.t_pos (s.cfg.t_le_n.trans s.cfg.n_le_pmax)).2.2
  exact (h.writeLfsr List.length_replicate hzero (Nat.zero_le _)).answers

theorem execPdivmod_wf {s : State} (h : s.Wf) (vq va vb vr : VReg) :
    Answers State.Wf (execPdivmod vq va vb vr s) := by
  obtain ⟨hquo, hrem⟩ := VectorWf.polyDivMod (c := s.cfg) (h.vectorWf_readV va) (s.readV vb)
  exact .raiseFault_or h.afterFault fun _ => .raiseFault_or h.afterFault fun _ =>
    ((h.writeV hquo vq).writeV hrem vr).answers

theorem execBwdec_wf {s : State} (h : s.Wf) (vd vs : VReg) (force : Bool) :
    Answers State.Wf (execBwdec vd vs force s) := by
  refine .raiseFault_or h.afterFault fun hlen => ?_
  have hmsg : VectorWf s.params (bwDecode s.params (s.readV vs) force).msg :=
    vectorWf_bwDecode (c := s.cfg) (h.allElems_readV vs) (not_not.1 hlen) force
  exact ((h.writeV hmsg vd).writeBw (bwDecode s.params (s.readV vs) force).errs
    (bwDecode s.params (s.readV vs) force).success).answers

/-- Every command keeps the ranges: what it writes is an element, a vector or a register of T cells again. -/
theorem exec_wf {s : State} (h : s.Wf) (i : Instr) : Answers State.Wf (exec i s) := by
  have hadd : ∀ ea eb, gfadd (s.readE ea) (s.readE eb) < s.params.q := fun ea eb =>
    gfadd_lt (h.readE_lt ea) (h.readE_lt eb)
  cases i with
  | gfli ed imm => exact .raiseFault_or h.afterFault fun hlt => h.answers_writeE (Nat.not_le.1 hlt)
  | gfalpha ed => exact h.answers_writeE s.cfg.alpha_lt
  | gfadd ed ea eb => exact h.answers_writeE (hadd ea eb)
  | gfsub ed ea eb => exact h.answers_writeE (hadd ea eb)
  | gfneg ed ea => exact h.answers_writeE (h.readE_lt ea)
  | gfmul ed ea eb => exact h.answers_writeE (gfmul_lt s.cfg _ (h.readE_lt ea))
  | gfdiv ed ea eb => exact .raiseFault_or h.afterFault fun _ => h.answers_writeE (gfdiv_lt s.cfg _ (h.readE_lt ea))
  | gfpow ed ea exp => exact h.answers_writeE (gfpow_lt s.cfg _ (h.readE_lt ea))
  | gfrd ea => exact h.answers
  | vnew vd len =>
    refine .raiseFault_or h.afterFault fun hlen => h.answers_writeV (vectorWf_replicate (c := s.cfg) ?_ ?_)
    · exact Nat.not_lt.1 fun hlt => hlen (.inl hlt)
    · exact Nat.not_lt.1 fun hlt => hlen (.inr hlt)
  | vset vd es index =>
    exact .raiseFault_or h.afterFault fun _ =>
      h.answers_writeV (VectorWf.set (c := s.cfg) (h.vectorWf_readV vd) _ (h.readE_lt es))
  | vget ed vs index =>
    exact .raiseFault_or h.afterFault fun _ => h.answers_writeE (coeff_lt s.cfg (h.allElems_readV vs) _)
  | vlen vs => exact h.answers
  | padd vd va vb =>
    exact h.answers_writeV (VectorWf.polyAdd (c := s.cfg) (h.vectorWf_readV va) (h.vectorWf_readV vb))
  | pmul vd va vb =>
    exact .raiseFault_or h.afterFault fun hfits =>
      h.answers_writeV (vectorWf_polyMul (c := s.cfg) (h.allElems_readV va) (Nat.not_lt.1 hfits))
  | peval ed va ex => exact h.answers_writeE (polyEval_lt s.cfg _ (h.allElems_readV va))
  | pdivmod vq va vb vr => exact execPdivmod_wf h vq va vb vr
  | ptrim vd vs => exact h.answers_writeV (VectorWf.trim (c := s.cfg) (h.vectorWf_readV vs))
  | pisz vs => exact h.answers
  | bwdec vd vs force => exact execBwdec_wf h vd vs force
  | lfclr => exact execLfclr_wf h
  | lfstep ed es => exact execLfstep_wf h ed es
  | lfflush ed => exact execLfflush_wf h ed
  | lfpar vd => exact h.answers_writeV h.vectorWf_par
  | csrr csr => exact .execCsrr h.afterFault fun _ => h.answers

/-! ## Reset -/

/-- Settles O8: the reset state, register by register. -/
theorem resetValues : Obligations.ResetValues :=
  fun c => ⟨State.readE_resetOf c, State.readV_resetOf c, rfl, rfl, rfl, rfl, rfl, rfl⟩

theorem resetOf_wf (c : Config) : (State.resetOf c).Wf := by
  have hzeros : ∀ n, 1 ≤ n → n ≤ c.params.pmax → VectorWf c.params (List.replicate n 0) := fun n =>
    vectorWf_replicate
  refine ⟨fun r => ?_, fun r => ?_, List.length_replicate, ?_, Nat.zero_le _, Nat.zero_le _⟩
  · rw [State.readE_resetOf]
    exact Nat.zero_lt_of_lt c.one_lt_q
  · rw [State.readV_resetOf]
    exact hzeros 1 le_rfl (c.k_pos.trans (c.k_lt_n.le.trans c.n_le_pmax))
  · exact (hzeros _ c.t_pos (c.t_le_n.trans c.n_le_pmax)).2.2

theorem takeReset_wf (s : State) : (takeReset s).Wf := resetOf_wf s.cfg

/-- The status registers after reset: no decode yet (R37). -/
theorem resetOf_bwStatusWf (c : Config) : (State.resetOf c).BwStatusWf := .inr ⟨rfl, .inr rfl⟩

/-- Settles O12: the zeros of reset are in range, and no response has been given. -/
theorem resetMeetsInvariants : Obligations.ResetMeetsInvariants := by
  intro c
  exact ⟨resetOf_wf c, resetOf_bwStatusWf c, List.forall_mem_nil _⟩

/-- Settles O13: by what stands at the port, and for a command by what it writes. -/
theorem stepKeepsRanges : Obligations.StepKeepsRanges := by
  intro s t hs h
  rcases step_cases s t h with ⟨-, rfl⟩ | ⟨rest, -, rfl⟩ | ⟨w, rest, i, -, -, hexec⟩ | ⟨w, rest, err, -, -, rfl⟩
  · exact hs
  · exact takeReset_wf _
  · exact exec_wf (hs.withPort rest) i t hexec
  · exact (hs.withPort rest).afterFault _ w

end Sys2Proof.Machine
end

section
/-! # The decode status stays consistent

The decoder's answer is a success with a count of at most K message positions, or no success with −1 (R165 to R167). -/

namespace Sys2Proof.Machine

/-- A success with a count of at most K, or no success with −1. -/
def BwResult.StatusWf (p : Params) (r : BwResult) : Prop :=
  (r.success = true ∧ ∃ n ≤ p.k, r.errs = Int.ofNat n) ∨ (r.success = false ∧ r.errs = -1)

theorem bwCorrect_statusWf (p : Params) (cw locator f : List Nat) : (bwCorrect p cw locator f).StatusWf p := by
  refine .inl ⟨rfl, (List.range p.k).countP (isErrorPosition p locator), ?_, rfl⟩
  exact List.countP_le_length.trans_eq List.length_range

theorem bwFinish_statusWf (p : Params) (cw : List Nat) (force : Bool) (e : Nat) (u : List Nat) :
    (bwFinish p cw force e u).StatusWf p := by
  simp only [bwFinish]
  split
  · exact .inl ⟨rfl, 0, Nat.zero_le _, rfl⟩
  · split
    · exact .inr ⟨rfl, rfl⟩
    · exact bwCorrect_statusWf p cw _ _

theorem bwDecode_statusWf (p : Params) (cw : List Nat) (force : Bool) : (bwDecode p cw force).StatusWf p :=
  bwFinish_statusWf p cw force _ _

/-- A count written to 32 bits reads back as at most itself. -/
theorem toNat_sext32_ofNat_le (n : Nat) : (sext32 (Int.ofNat n)).toNat ≤ n := by
  rw [sext32, Int.ofNat_eq_natCast, BitVec.ofInt_natCast, BitVec.toNat_ofNat]
  exact Nat.mod_le n _

/-- The invariant in terms of the registers it reads. -/
theorem State.KeepsBwStatus.bwStatusWf {s t : State} (h : s.KeepsBwStatus t) (hcfg : t.cfg = s.cfg)
    (hs : s.BwStatusWf) : t.BwStatusWf := by
  rwa [State.BwStatusWf, h.bwerrs, h.bwsucc, State.params, hcfg]

/-- The pair a decode writes meets the invariant, whatever the registers held before (R33, R34). -/
theorem writeBw_bwStatusWf {s : State} {r : BwResult} (h : r.StatusWf s.params) :
    (s.writeBw r.errs r.success).BwStatusWf := by
  rcases h with ⟨hsucc, n, hn, herrs⟩ | ⟨hsucc, herrs⟩
  · refine .inl ⟨hsucc, ?_⟩
    rw [State.writeBw_bwerrs, herrs]
    exact (toNat_sext32_ofNat_le n).trans hn
  · refine .inr ⟨hsucc, .inl ?_⟩
    rw [State.writeBw_bwerrs, herrs]
    rfl

theorem execBwdec_bwStatusWf {s : State} (hs : s.BwStatusWf) (vd vs : VReg) (force : Bool) :
    Answers State.BwStatusWf (execBwdec vd vs force s) := by
  refine .raiseFault_or (fun _ _ => hs) fun _ => .complete ?_
  exact writeBw_bwStatusWf (s := s.writeV vd (bwDecode s.params (s.readV vs) force).msg)
    (bwDecode_statusWf s.params (s.readV vs) force)

/-- A command other than `BWDEC` keeps the registers and the configuration; `BWDEC` writes a consistent pair. -/
theorem exec_bwStatusWf {s : State} (hs : s.BwStatusWf) (i : Instr) : Answers State.BwStatusWf (exec i s) := by
  intro t h
  by_cases hi : i.opcode = .bwdec
  · cases i with
    | bwdec vd vs force => exact execBwdec_bwStatusWf hs vd vs force t h
    | _ => cases hi
  · exact ((exec_keepsUnits i s t h).status hi).bwStatusWf (exec_cfg h) hs

/-- Settles O14: by what stands at the port, and for a command by whether it is `BWDEC`. -/
theorem stepKeepsBwStatus : Obligations.StepKeepsBwStatus := by
  intro s t hs h
  rcases step_cases s t h with ⟨-, rfl⟩ | ⟨rest, -, rfl⟩ | ⟨w, rest, i, -, -, hexec⟩ | ⟨w, rest, err, -, -, rfl⟩
  · exact hs
  · exact resetOf_bwStatusWf s.cfg
  · exact exec_bwStatusWf (s := s.withPort rest) hs i t hexec
  · exact hs

end Sys2Proof.Machine
end

section
/-! # Trailing zeros are not seen

`Trim` and the zero-test depend on a sequence's coefficients alone (R24), and `Trim` changes none. -/

namespace Sys2Proof.Machine

/-! ## Trim depends on the coefficients alone -/

theorem dropTopZeros_eq_nil {a : List Nat} (h : ∀ j, coeff a j = 0) : dropTopZeros a = [] := by
  induction a with
  | nil => rfl
  | cons x a ih =>
    rw [dropTopZeros, ih fun j => h (j + 1)]
    exact if_pos (h 0)

theorem dropTopZeros_congr {a : List Nat} : ∀ {b : List Nat}, (∀ j, coeff a j = coeff b j) →
    dropTopZeros a = dropTopZeros b := by
  induction a with
  | nil => exact fun h => (dropTopZeros_eq_nil fun j => (h j).symm).symm
  | cons x a ih =>
    intro b h
    cases b with
    | nil => exact dropTopZeros_eq_nil h
    | cons y b =>
      obtain rfl : x = y := h 0
      rw [dropTopZeros, dropTopZeros, ih fun j => h (j + 1)]

/-- Sequences with the same coefficients have one canonical form. -/
theorem trim_congr {a b : List Nat} (h : ∀ j, coeff a j = coeff b j) : trim a = trim b := by
  rw [trim, trim, dropTopZeros_congr h]

@[simp] theorem trim_trim (a : List Nat) : trim (trim a) = trim a := trim_congr (coeff_trim a)

/-! ## The zero-test and the value -/

theorem isZero_iff_coeff (a : List Nat) : isZero a = true ↔ ∀ j, coeff a j = 0 := by
  induction a with
  | nil => simp [isZero]
  | cons x a ih =>
    have hcons : isZero (x :: a) = true ↔ x = 0 ∧ isZero a = true := by simp [isZero]
    rw [hcons, ih]
    exact ⟨fun ⟨hx, h⟩ j => by cases j <;> simp [hx, h], fun h => ⟨h 0, fun j => h (j + 1)⟩⟩

@[simp] theorem isZero_trim (a : List Nat) : isZero (trim a) = isZero a :=
  Bool.eq_iff_iff.2 (by simp only [isZero_iff_coeff, coeff_trim])

theorem polyEval_cons (p : Params) (y : Nat) (a : List Nat) (x : Nat) :
    polyEval p (y :: a) x = gfadd (gfmul p (polyEval p a x) x) y := rfl

theorem polyEval_dropTopZeros (p : Params) (a : List Nat) (x : Nat) :
    polyEval p (dropTopZeros a) x = polyEval p a x := by
  induction a with
  | nil => rfl
  | cons y a ih =>
    rw [dropTopZeros, polyEval_cons, ← ih]
    split
    · next hnil =>
      rw [hnil]
      split
      · next hy => simp [hy, polyEval]
      · rfl
    · rfl

@[simp] theorem polyEval_trim (p : Params) (a : List Nat) (x : Nat) : polyEval p (trim a) x = polyEval p a x := by
  rw [← polyEval_dropTopZeros p a, trim]
  split
  · next hnil => simp [hnil, polyEval]
  · rfl

/-! ## The coefficients of a sum and of a product -/

/-- The coefficients of the sequence of the first n values of a function. -/
theorem coeff_map_range (f : Nat → Nat) (n j : Nat) :
    coeff ((List.range n).map f) j = if j < n then f j else 0 := by
  rw [coeff, List.getD_eq_getElem?_getD]
  split
  · next h => simp [h]
  · next h => simp [Nat.not_lt.1 h]

theorem gfsum_eq_zero {l : List Nat} (h : ∀ x ∈ l, x = 0) : gfsum l = 0 := by
  induction l with
  | nil => rfl
  | cons x l ih =>
    obtain ⟨hx, hl⟩ := List.forall_mem_cons.1 h
    rw [show gfsum (x :: l) = gfadd x (gfsum l) from rfl, hx, ih hl]
    rfl

/-- A product has no coefficient at or above the sum of the lengths less one (R134). -/
theorem mulCoeff_eq_zero (p : Params) {a b : List Nat} {j : Nat} (h : a.length + b.length - 1 ≤ j) :
    mulCoeff p a b j = 0 := by
  refine gfsum_eq_zero (List.forall_mem_map.2 fun i hi => ?_)
  have hij : i < j + 1 := List.mem_range.1 hi
  rcases Nat.lt_or_ge i a.length with hlt | hge
  · rw [coeff_of_length_le (a := b) (by omega), gfmul_zero_right]
  · rw [coeff_of_length_le hge, gfmul_zero_left]

@[simp] theorem coeff_polyMul (p : Params) (a b : List Nat) (j : Nat) :
    coeff (polyMul p a b) j = mulCoeff p a b j := by
  rw [polyMul, coeff_trim, coeff_map_range]
  split
  · rfl
  · next h => exact (mulCoeff_eq_zero p (Nat.not_lt.1 h)).symm

@[simp] theorem coeff_polyAdd (a b : List Nat) (j : Nat) : coeff (polyAdd a b) j = gfadd (coeff a j) (coeff b j) := by
  rw [polyAdd, coeff_trim, coeff_map_range]
  split
  · rfl
  · next h => rw [coeff_of_length_le (a := a) (by omega), coeff_of_length_le (a := b) (by omega), gfadd_zero]

/-! ## The functions on canonical forms -/

/-- A canonical form is its own, so equal coefficients make equal sums and products. -/
theorem eq_of_trim_eq_self {a b : List Nat} (ha : trim a = a) (hb : trim b = b) (h : ∀ j, coeff a j = coeff b j) :
    a = b := by
  rw [← ha, ← hb, trim_congr h]

theorem polyAdd_trim (a b : List Nat) : polyAdd (trim a) (trim b) = polyAdd a b :=
  eq_of_trim_eq_self (trim_trim _) (trim_trim _) fun j => by simp only [coeff_polyAdd, coeff_trim]

theorem polyMul_trim (p : Params) (a b : List Nat) : polyMul p (trim a) (trim b) = polyMul p a b :=
  eq_of_trim_eq_self (trim_trim _) (trim_trim _) fun j => by simp only [coeff_polyMul, mulCoeff, coeff_trim]

theorem polyDivMod_trim (p : Params) (a b : List Nat) : polyDivMod p (trim a) (trim b) = polyDivMod p a b := by
  simp only [polyDivMod, trim_trim]

/-- Settles O44: each function depends on the coefficients alone, and `Trim` changes none. -/
theorem canonicalFormsGiveSameResults : Obligations.CanonicalFormsGiveSameResults :=
  fun p a b x => ⟨polyAdd_trim a b, polyMul_trim p a b, polyEval_trim p a x, polyDivMod_trim p a b, trim_trim a,
    isZero_trim a⟩

end Sys2Proof.Machine
end

section
/-! # One step by the word at the port

What `step` answers when the next input is a command word that decodes (R57). -/

namespace Sys2Proof.Machine

/-- The port picks the command branch, and the decoder picks `exec` over ILLEGAL_CMD. -/
theorem step_eq_exec_of_decode {s : State} {w : Word} {rest : List HostInput} {i : Instr}
    (hport : s.port = .command w :: rest) (hdecode : decode w = .ok i) : step s = exec i (s.withPort rest) := by
  simp only [step, hport, hdecode]

/-- Settles O6: the command branch of `step`, for a word that decodes. -/
theorem stepRunsDecodedInstruction : Obligations.StepRunsDecodedInstruction :=
  fun _ _ _ _ hport hdecode => step_eq_exec_of_decode hport hdecode

end Sys2Proof.Machine
end

section
/-! # Encoding and decoding

A word is its fields (R70 to R72). The mask of a row of R76 tests, field by field, what the decoder tests. So a row
selects a word exactly when the decoder reads the row's command from it, but for the CSR numbers above 4 (R75 to R77). -/

namespace Sys2Proof

/-! ## A word is its fields -/

/-- Two bit vectors agree on a field exactly when they agree on its high and on its low part. -/
theorem extract_eq_iff_high_low {n : Nat} {x y : BitVec n} (start low high : Nat) :
    x.extractLsb' start (high + low) = y.extractLsb' start (high + low) ↔
      x.extractLsb' (start + low) high = y.extractLsb' (start + low) high ∧
        x.extractLsb' start low = y.extractLsb' start low := by
  simp only [← BitVec.extractLsb'_append_extractLsb'_eq_extractLsb' (rfl : start + low = start + low)]
  refine ⟨fun h => ⟨?_, ?_⟩, fun ⟨hhigh, hlow⟩ => by rw [hhigh, hlow]⟩
  · simpa [BitVec.extractLsb'_append_eq_of_le] using congrArg (BitVec.extractLsb' low high) h
  · simpa [BitVec.extractLsb'_append_eq_right] using congrArg (BitVec.extractLsb' 0 low) h

theorem eq_iff_high_low {low high : Nat} {x y : BitVec (high + low)} :
    x = y ↔ x.extractLsb' low high = y.extractLsb' low high ∧ x.extractLsb' 0 low = y.extractLsb' 0 low := by
  simpa [BitVec.extractLsb'_eq_self] using extract_eq_iff_high_low (x := x) (y := y) 0 low high

/-- The fields of format I are the whole word (R72). -/
theorem word_eq_iff (w w' : Word) : w = w' ↔
    fieldOpcode w = fieldOpcode w' ∧ fieldA w = fieldA w' ∧ fieldB w = fieldB w' ∧ fieldImm w = fieldImm w' :=
  (eq_iff_high_low (low := 24) (high := 8)).trans <| and_congr Iff.rfl <|
    (extract_eq_iff_high_low 0 20 4).trans <| and_congr BitVec.toFin_inj.symm <|
      (extract_eq_iff_high_low 0 16 4).trans <| and_congr BitVec.toFin_inj.symm Iff.rfl

/-- Fields `c`, `d` and `zero` of format R are the immediate of format I (R71, R72). -/
theorem fieldImm_eq_iff (w w' : Word) : fieldImm w = fieldImm w' ↔
    fieldC w = fieldC w' ∧ fieldD w = fieldD w' ∧ fieldZero w = fieldZero w' :=
  (extract_eq_iff_high_low 0 12 4).trans <| and_congr BitVec.toFin_inj.symm <|
    (extract_eq_iff_high_low 0 8 4).trans <| and_congr BitVec.toFin_inj.symm Iff.rfl

theorem extract_fieldImm (w : Word) {start len : Nat} (h : start + len ≤ 16) :
    (fieldImm w).extractLsb' start len = w.extractLsb' start len := by
  refine BitVec.eq_of_getLsbD_eq fun i hi => ?_
  have hin : start + i < 16 := by omega
  simp [fieldImm, hi, hin]

theorem getLsbD_zero_fieldImm (w : Word) : (fieldImm w).getLsbD 0 = w.getLsbD 0 := by
  simp [fieldImm]

/-- `BWDEC`'s immediate is its FORCE bit when the bits above are zero (R76). -/
theorem force_eq_fieldImm {w : Word} (h : w.extractLsb' 1 15 = 0) : (if w.getLsbD 0 then 1 else 0) = fieldImm w := by
  rw [← getLsbD_zero_fieldImm]
  refine (eq_iff_high_low (low := 1) (high := 15)).2 ⟨?_, BitVec.eq_of_getLsbD_eq fun i hi => ?_⟩
  · rw [extract_fieldImm w (by decide), h]
    split <;> rfl
  · obtain rfl : i = 0 := by omega
    cases hbit : (fieldImm w).getLsbD 0 <;> simpa using hbit

/-- "Bits [31:24] are the opcode in every command" (R70). -/
theorem fieldOpcode_encode (i : Instr) : fieldOpcode (encode i) = i.opcode.byte := by
  cases i <;> simp [encode, Instr.opcode]

/-! ## The decoder -/

theorem ifZero_eq_ok {fieldsZero : Bool} {i j : Instr} : ifZero fieldsZero i = .ok j ↔ fieldsZero = true ∧ i = j := by
  cases fieldsZero <;> simp [ifZero]

theorem decode_eq_ok_iff {w : Word} {i : Instr} :
    decode w = .ok i ↔ ∃ op : Opcode, op.byte = fieldOpcode w ∧ decodeFields op w = .ok i := by
  constructor
  · intro h
    unfold decode at h
    split at h
    · cases h
    · next op hop => exact ⟨op, Opcode.byte_of_ofByte? hop, h⟩
  · rintro ⟨op, hop, h⟩
    simpa [decode, ← hop] using h

/-- Each row reads back the operands the encoder placed, and finds its must-be-zero fields zero. -/
theorem decodeFields_encode {i : Instr} (h : i.WellFormed) : decodeFields i.opcode (encode i) = .ok i := by
  cases i with
  | bwdec vd vs force =>
    have hzero : (encode (.bwdec vd vs force)).extractLsb' 1 15 = 0 := by
      rw [← extract_fieldImm _ (by decide), encode, fieldImm_encodeI]
      cases force <;> rfl
    have hforce : (encode (.bwdec vd vs force)).getLsbD 0 = force := by
      rw [← getLsbD_zero_fieldImm, encode, fieldImm_encodeI]
      cases force <;> rfl
    simp only [decodeFields, Instr.opcode, hzero, hforce]
    simp [encode, ifZero]
  | csrr csr =>
    have hcsr : csr.toNat ≤ lastCsr := of_decide_eq_true h
    simp [decodeFields, encode, Instr.opcode, ifZero, hcsr]
  | _ => simp [decodeFields, encode, Instr.opcode, ifZero]

/-- Settles O1: the opcode byte picks the instruction's row, and the row reads back its operands. -/
theorem decodeOfEncode : Obligations.DecodeOfEncode :=
  fun i h => decode_eq_ok_iff.2 ⟨i.opcode, (fieldOpcode_encode i).symm, decodeFields_encode h⟩

/-- What a row reads from a word, and the zeros it finds there, are the whole word. -/
theorem encode_of_decodeFields {op : Opcode} {w : Word} {i : Instr} (hop : op.byte = fieldOpcode w)
    (h : decodeFields op w = .ok i) : encode i = w ∧ i.WellFormed := by
  cases op with
  | gfpow | vset | vget =>
    cases h
    exact ⟨(word_eq_iff _ _).2 (by simp [encode, hop]), rfl⟩
  | bwdec =>
    obtain ⟨hzero, rfl⟩ := ifZero_eq_ok.1 h
    have himm := force_eq_fieldImm (beq_iff_eq.1 hzero)
    exact ⟨(word_eq_iff _ _).2 (by simpa [encode, hop] using himm), rfl⟩
  | csrr =>
    simp only [decodeFields] at h
    split at h
    · next hcsr =>
      obtain ⟨hzero, rfl⟩ := ifZero_eq_ok.1 h
      simp only [Bool.and_eq_true, beq_iff_eq] at hzero
      exact ⟨(word_eq_iff _ _).2 (by simp [encode, hop, hzero]), decide_eq_true hcsr⟩
    · cases h
  | _ =>
    obtain ⟨hzero, rfl⟩ := ifZero_eq_ok.1 h
    simp only [Bool.and_eq_true, beq_iff_eq] at hzero
    exact ⟨(word_eq_iff _ _).2 (by simp [encode, hop, hzero, fieldImm_eq_iff]), rfl⟩

/-- Settles O2: the row that decodes the word reads all of it. -/
theorem encodeOfDecode : Obligations.EncodeOfDecode := by
  intro w i h
  obtain ⟨op, hop, hfields⟩ := decode_eq_ok_iff.1 h
  exact encode_of_decodeFields hop hfields

/-! ## The masks of R76, field by field -/

theorem extract_eq_zero_iff {n : Nat} (x : BitVec n) (start len : Nat) :
    x.extractLsb' start len = 0#len ↔ ∀ i < len, x.getLsbD (start + i) = false := by
  refine ⟨fun h i hi => by simpa [hi] using congrArg (BitVec.getLsbD · i) h, fun h => ?_⟩
  exact BitVec.eq_of_getLsbD_eq fun i hi => by simp [hi, h]

/-- A mask of `len` ones from bit `start` up tests exactly that field. -/
theorem and_ones_eq_zero_iff {n : Nat} (x : BitVec n) (start len : Nat) :
    x &&& ((BitVec.allOnes len).setWidth n <<< start) = 0#n ↔ x.extractLsb' start len = 0#len := by
  rw [extract_eq_zero_iff]
  constructor
  · intro h i hi
    by_cases hn : start + i < n
    · have hin : i < n := by omega
      simpa [hi, hn, hin] using congrArg (BitVec.getLsbD · (start + i)) h
    · exact BitVec.getLsbD_of_ge x _ (Nat.le_of_not_lt hn)
  · intro h
    refine BitVec.eq_of_getLsbD_eq fun i hi => ?_
    by_cases hmask : start ≤ i ∧ i - start < len
    · have hbit := h (i - start) hmask.2
      rw [Nat.add_sub_cancel' hmask.1] at hbit
      simp [hbit]
    · simp
      omega

theorem and_eq_zero_of_full {m : Fin 16} (hm : m = 15) (r : Fin 16) : r &&& m = 0 ↔ r = 0 := by decide +revert

theorem and_eq_zero_of_clear {m : Fin 16} (hm : m = 0) (r : Fin 16) : r &&& m = 0 := by decide +revert

section Masks

variable {m : Imm16} (w : Word)

theorem fieldImm_and_none (hm : m = 0#16) : fieldImm w &&& m = 0#16 := by
  simp [hm]

theorem fieldImm_and_all (hm : m = 0xFFFF#16) : fieldImm w &&& m = 0#16 ↔ fieldImm w = 0#16 := by
  subst hm
  exact (and_ones_eq_zero_iff (fieldImm w) 0 16).trans (by rw [BitVec.extractLsb'_eq_self])

/-- The mask of the rows with three registers leaves field `c` out (R71). -/
theorem fieldImm_and_dZero (hm : m = 0x0FFF#16) : fieldImm w &&& m = 0#16 ↔ fieldD w = 0 ∧ fieldZero w = 0#8 := by
  subst hm
  refine (and_ones_eq_zero_iff (fieldImm w) 0 12).trans ?_
  rw [extract_fieldImm w (by decide)]
  exact (extract_eq_iff_high_low (y := 0#32) 0 8 4).trans (and_congr BitVec.toFin_inj.symm Iff.rfl)

/-- The mask of the row with four registers tests field `zero` alone (R71). -/
theorem fieldImm_and_zero (hm : m = 0x00FF#16) : fieldImm w &&& m = 0#16 ↔ fieldZero w = 0#8 := by
  subst hm
  refine (and_ones_eq_zero_iff (fieldImm w) 0 8).trans ?_
  rw [extract_fieldImm w (by decide), fieldZero]

/-- The mask of `BWDEC` leaves the FORCE bit out (R76). -/
theorem fieldImm_and_notForce (hm : m = 0xFFFE#16) : fieldImm w &&& m = 0#16 ↔ w.extractLsb' 1 15 = 0#15 := by
  subst hm
  refine (and_ones_eq_zero_iff (fieldImm w) 1 15).trans ?_
  rw [extract_fieldImm w (by decide)]

end Masks

namespace Opcode

theorem fieldOpcode_mask (op : Opcode) : fieldOpcode op.mask = BitVec.allOnes 8 := by
  cases op <;> rfl

/-- The `match` column holds the opcode and zeros. -/
theorem matchWord_eq_encodeI (op : Opcode) : op.matchWord = encodeI op 0 0 0 := by
  cases op <;> rfl

/-- A row selects the words with its opcode and with zeros under its mask. -/
theorem selects_iff (op : Opcode) (w : Word) : op.selects w = true ↔
    op.byte = fieldOpcode w ∧ fieldA w &&& fieldA op.mask = 0 ∧ fieldB w &&& fieldB op.mask = 0 ∧
      fieldImm w &&& fieldImm op.mask = 0 := by
  have hop : fieldOpcode (w &&& op.mask) = fieldOpcode w := by
    rw [fieldOpcode, BitVec.extractLsb'_and, ← fieldOpcode, ← fieldOpcode, fieldOpcode_mask, BitVec.and_allOnes]
  have ha : fieldA (w &&& op.mask) = fieldA w &&& fieldA op.mask := by simp [fieldA, BitVec.extractLsb'_and]
  have hb : fieldB (w &&& op.mask) = fieldB w &&& fieldB op.mask := by simp [fieldB, BitVec.extractLsb'_and]
  have himm : fieldImm (w &&& op.mask) = fieldImm w &&& fieldImm op.mask := BitVec.extractLsb'_and
  rw [selects, beq_iff_eq, word_eq_iff, matchWord_eq_encodeI, hop, ha, hb, himm, fieldOpcode_encodeI, fieldA_encodeI,
    fieldB_encodeI, fieldImm_encodeI, eq_comm]

/-- "No two rows overlap, because the opcodes differ" (R77). -/
theorem eq_of_selects {op op' : Opcode} {w : Word} (h : op.selects w = true) (h' : op'.selects w = true) : op = op' :=
  byte_injective _ _ (((op.selects_iff w).1 h).1.trans ((op'.selects_iff w).1 h').1.symm)

end Opcode

/-! ## Every word is in one row or illegal -/

/-- Under its opcode, a row reads a command from exactly the words it selects, but for CSR numbers above 4 (R76). -/
theorem decodeFields_isOk_iff {op : Opcode} {w : Word} (hop : op.byte = fieldOpcode w) :
    (∃ i, decodeFields op w = .ok i) ↔ op.selects w = true ∧ (op = .csrr → (fieldImm w).toNat ≤ 4) := by
  rw [op.selects_iff]
  cases op with
  | csrr =>
    by_cases hcsr : (fieldImm w).toNat ≤ lastCsr
    · have hle : (fieldImm w).toNat ≤ 4 := hcsr
      simp (disch := decide) [decodeFields, ifZero_eq_ok, hop, hcsr, hle, and_eq_zero_of_full, fieldImm_and_none]
    · have hle : ¬(fieldImm w).toNat ≤ 4 := hcsr
      simp [decodeFields, hcsr, hle]
  | _ =>
    simp (disch := decide) [decodeFields, ifZero_eq_ok, hop, and_eq_zero_of_full, and_eq_zero_of_clear,
      fieldImm_and_none, fieldImm_and_all, fieldImm_and_dZero, fieldImm_and_zero, fieldImm_and_notForce, and_assoc]

theorem decode_isOk_iff (w : Word) :
    (∃ i, decode w = .ok i) ↔ ∃ op : Opcode, op.selects w = true ∧ (op = .csrr → (fieldImm w).toNat ≤ 4) := by
  simp only [decode_eq_ok_iff]
  constructor
  · rintro ⟨i, op, hop, h⟩
    exact ⟨op, (decodeFields_isOk_iff hop).1 ⟨i, h⟩⟩
  · rintro ⟨op, h⟩
    have hop := ((op.selects_iff w).1 h.1).1
    obtain ⟨i, hi⟩ := (decodeFields_isOk_iff hop).2 h
    exact ⟨i, op, hop, hi⟩

/-- The row of the decoded instruction is the one that selects the word. -/
theorem selects_of_decode {w : Word} {i : Instr} (h : decode w = .ok i) : i.opcode.selects w = true := by
  obtain ⟨rfl, hwf⟩ := encodeOfDecode w i h
  exact ((decodeFields_isOk_iff (fieldOpcode_encode i).symm).1 ⟨i, decodeFields_encode hwf⟩).1

/-- The three cases of R75. -/
abbrev IllegalWord (w : Word) : Prop :=
  (∀ op : Opcode, op.byte ≠ fieldOpcode w) ∨
    (∃ op : Opcode, op.byte = fieldOpcode w ∧ w &&& op.mask ≠ op.matchWord) ∨
    (Opcode.csrr.selects w = true ∧ 4 < (fieldImm w).toNat)

/-- A word is illegal exactly when no row selects it with a CSR number that exists. -/
theorem illegalWord_iff (w : Word) :
    IllegalWord w ↔ ¬∃ op : Opcode, op.selects w = true ∧ (op = .csrr → (fieldImm w).toNat ≤ 4) := by
  constructor
  · rintro hw ⟨op, hsel, hcsr⟩
    have hop := ((op.selects_iff w).1 hsel).1
    rcases hw with hnone | ⟨op', hop', hmask⟩ | ⟨hsel', hlt⟩
    · exact hnone op hop
    · obtain rfl := Opcode.byte_injective _ _ (hop'.trans hop.symm)
      exact hmask (beq_iff_eq.1 hsel)
    · exact absurd (hcsr (Opcode.eq_of_selects hsel hsel')) (Nat.not_le.2 hlt)
  · intro hw
    by_cases hop : ∃ op : Opcode, op.byte = fieldOpcode w
    · obtain ⟨op, hop⟩ := hop
      by_cases hsel : op.selects w = true
      · obtain ⟨rfl, hlt⟩ : op = .csrr ∧ 4 < (fieldImm w).toNat := by
          by_contra hcsr
          exact hw ⟨op, hsel, fun h => Nat.le_of_not_lt fun hlt => hcsr ⟨h, hlt⟩⟩
        exact .inr (.inr ⟨hsel, hlt⟩)
      · exact .inr (.inl ⟨op, hop, fun hmask => hsel (beq_iff_eq.2 hmask)⟩)
    · exact .inl fun op h => hop ⟨op, h⟩

theorem decode_isError_iff (w : Word) : (∃ err, decode w = .error err) ↔ IllegalWord w := by
  rw [illegalWord_iff, ← decode_isOk_iff]
  cases decode w <;> simp

/-- Settles O3: a row selects what it decodes, and the opcodes differ. -/
theorem everyWordMatchesOneRowOrIsIllegal : Obligations.EveryWordMatchesOneRowOrIsIllegal := fun w =>
  ⟨fun _ h => ⟨selects_of_decode h, fun _ hsel => Opcode.eq_of_selects hsel (selects_of_decode h)⟩,
    decode_isOk_iff w, decode_isError_iff w⟩

/-- Settles O4: the decoder rejects an illegal word, and `step` then runs the fault procedure. -/
theorem illegalWordRaisesIllegalCmd : Obligations.IllegalWordRaisesIllegalCmd := by
  intro s w rest hport hw
  obtain ⟨err, herr⟩ := (decode_isError_iff w).2 hw
  simp only [Machine.step, hport, herr]
  rfl

end Sys2Proof
end

section
/-! # What a command's row lets it write and answer

The destinations a command names are the only registers it writes (10_state.md section 1), and only the commands R78
lists answer data. -/

namespace Sys2Proof.Machine

/-! ## Destinations and response -/

/-- `t` comes from `s` within what the row of `i` declares: its destinations and its one response. -/
structure ActsAsDeclared (i : Instr) (s t : State) : Prop where
  elements : ∀ r, r ∉ elementDests i → t.readE r = s.readE r
  vectors : ∀ r, r ∉ vectorDests i → t.readV r = s.readV r
  answer : ∃ r : Response, t.responses = s.responses ++ [r] ∧ r.Wf ∧ (i.opcode ∉ dataOpcodes → r.data = 0)

theorem faultResponse_wf (code : FaultCode) : Response.Wf ⟨.fault, code.byte, 0⟩ :=
  .inr ⟨rfl, code.byte_range.1, code.byte_range.2, rfl⟩

theorem okResponse_wf (data : Word) : (okResponse data).Wf := .inl ⟨rfl, rfl⟩

theorem readE_writeE_of_notMem {s : State} {r r' : EReg} (x : Nat) (h : r' ∉ [r]) :
    (s.writeE r x).readE r' = s.readE r' := by
  rw [State.readE_writeE, if_neg (List.ne_of_not_mem_cons h)]

theorem readV_writeV_of_notMem {s : State} {r r' : VReg} {rs : List VReg} (c : List Nat) (h : r' ∉ r :: rs) :
    (s.writeV r c).readV r' = s.readV r' := by
  rw [State.readV_writeV, if_neg (List.ne_of_not_mem_cons h)]

namespace ActsAsDeclared

variable {i : Instr} {s u : State} {data : Word}

theorem afterFault (code : FaultCode) (w : Word) : ActsAsDeclared i s (s.afterFault code.byte w) :=
  ⟨fun _ _ => rfl, fun _ _ => rfl, _, rfl, faultResponse_wf code, fun _ => rfl⟩

/-- A command that completes: its writes, and its data where its row returns any. -/
theorem completes (he : ∀ r, r ∉ elementDests i → u.readE r = s.readE r)
    (hv : ∀ r, r ∉ vectorDests i → u.readV r = s.readV r) (hr : u.responses = s.responses)
    (hdata : i.opcode ∉ dataOpcodes → data = 0) : Answers (ActsAsDeclared i s) (complete u data) :=
  .complete ⟨he, hv, _, by rw [State.respond_responses, hr], okResponse_wf data, hdata⟩

theorem answers_unchanged (hi : i.opcode ∈ dataOpcodes) : Answers (ActsAsDeclared i s) (complete s data) :=
  completes (fun _ _ => rfl) (fun _ _ => rfl) rfl (absurd hi)

theorem answers_writeE {r : EReg} {x : Nat} (hi : elementDests i = [r]) :
    Answers (ActsAsDeclared i s) (complete (s.writeE r x) 0) :=
  completes (fun _ h => readE_writeE_of_notMem x (hi ▸ h)) (fun _ _ => rfl) rfl fun _ => rfl

theorem answers_writeV {r : VReg} {c : List Nat} (hi : vectorDests i = [r]) :
    Answers (ActsAsDeclared i s) (complete (s.writeV r c) 0) :=
  completes (fun _ _ => rfl) (fun _ h => readV_writeV_of_notMem c (hi ▸ h)) rfl fun _ => rfl

/-- The two encoder commands that give a symbol write it to a register and answer it (R181, R182). -/
theorem answers_symbol {r : EReg} {x idx : Nat} {par : List Nat} (hi : elementDests i = [r])
    (hdata : i.opcode ∈ dataOpcodes) :
    Answers (ActsAsDeclared i s) (complete ((s.writeLfsr par idx).writeE r x) data) :=
  completes (fun _ h => readE_writeE_of_notMem x (hi ▸ h)) (fun _ _ => rfl) rfl (absurd hdata)

end ActsAsDeclared

open ActsAsDeclared in
/-- Every command writes its destinations alone and answers once, with data only if its row returns data. -/
theorem exec_actsAsDeclared (i : Instr) (s : State) : Answers (ActsAsDeclared i s) (exec i s) := by
  cases i with
  | gfli | gfdiv | vget => exact .raiseFault_or afterFault fun _ => answers_writeE rfl
  | vnew | vset | pmul => exact .raiseFault_or afterFault fun _ => answers_writeV rfl
  | gfalpha | gfadd | gfsub | gfneg | gfmul | gfpow | peval => exact answers_writeE rfl
  | padd | ptrim | lfpar => exact answers_writeV rfl
  | gfrd | vlen | pisz => exact answers_unchanged (by simp [Instr.opcode, dataOpcodes])
  | pdivmod vq va vb vr =>
    refine .raiseFault_or afterFault fun _ => .raiseFault_or afterFault fun _ => ?_
    refine completes (fun _ _ => rfl) (fun r hr => ?_) rfl fun _ => rfl
    rw [readV_writeV_of_notMem _ (List.not_mem_of_not_mem_cons hr), readV_writeV_of_notMem _ hr]
  | bwdec =>
    refine .raiseFault_or afterFault fun _ => ?_
    refine completes (fun _ _ => rfl) (fun _ h => readV_writeV_of_notMem _ h) rfl fun h => absurd ?_ h
    simp [Instr.opcode, dataOpcodes]
  | lfclr => exact completes (fun _ _ => rfl) (fun _ _ => rfl) rfl fun _ => rfl
  | lfstep | lfflush =>
    exact .raiseFault_or afterFault fun _ => answers_symbol rfl (by simp [Instr.opcode, dataOpcodes])
  | csrr => exact .execCsrr afterFault fun _ => answers_unchanged (by simp [Instr.opcode, dataOpcodes])

/-- Settles O17: the response's part of what a row declares. -/
theorem oneResponsePerCommand : Obligations.OneResponsePerCommand :=
  fun i s t h => (exec_actsAsDeclared i s t h).answer

theorem exec_port {i : Instr} {s t : State} (h : exec i s = .next t) : t.port = s.port := by
  rcases exec_cases h with ⟨code, rfl⟩ | ⟨u, data, hu, rfl⟩
  · rfl
  · exact hu.port

/-- Settles O22: the destinations' part of what a row declares. -/
theorem onlyDestinationsChange : Obligations.OnlyDestinationsChange := by
  intro i s t h
  have hdecl := exec_actsAsDeclared i s t h
  exact ⟨hdecl.elements, hdecl.vectors, exec_port h⟩

/-- Settles O15: a command, legal or not, adds one response in form, and nothing else adds any. -/
theorem stepKeepsResponseForm : Obligations.StepKeepsResponseForm := by
  intro s t hs h
  rcases step_cases s t h with ⟨-, rfl⟩ | ⟨rest, -, rfl⟩ | ⟨w, rest, i, -, -, hexec⟩ | ⟨w, rest, err, -, -, rfl⟩
  · exact hs
  · exact hs
  · obtain ⟨r, hresp, hwf, -⟩ := oneResponsePerCommand i _ t hexec
    rw [hresp]
    exact List.forall_mem_append.2 ⟨hs, List.forall_mem_singleton.2 hwf⟩
  · exact List.forall_mem_append.2 ⟨hs, List.forall_mem_singleton.2 (faultResponse_wf .illegalCmd)⟩

/-! ## Earlier responses are not read -/

/-- The state with other responses given before. -/
def State.withResponses (s : State) (given : List Response) : State := { s with responses := given }

/-- `r'` is the result `r`, with `given` in place of the responses `before` that `r` was reached with. -/
inductive SameButGiven (before given : List Response) : Result → Result → Prop
  | next {t : State} (new : List Response) (ht : t.responses = before ++ new) :
    SameButGiven before given (.next t) (.next (t.withResponses (given ++ new)))

namespace SameButGiven

variable {before given : List Response}

theorem of_next {t : State} {r' : Result} (h : SameButGiven before given (.next t) r') :
    ∃ new, t.responses = before ++ new ∧ r' = .next (t.withResponses (given ++ new)) := by
  cases h with
  | next new ht => exact ⟨new, ht, rfl⟩

theorem unanswered {t : State} (ht : t.responses = before) :
    SameButGiven before given (.next t) (.next (t.withResponses given)) := by
  simpa using next (given := given) [] (ht.trans (List.append_nil before).symm)

theorem complete {u : State} {data : Word} (hu : u.responses = before) :
    SameButGiven before given (complete u data) (complete (u.withResponses given) data) :=
  .next [_] (by rw [State.respond_responses, hu])

theorem raiseFault {s : State} {code : FaultCode} {w : Word} :
    SameButGiven s.responses given (raiseFault code w s) (raiseFault code w (s.withResponses given)) :=
  .next [_] rfl

/-- A command that checks a condition, the same in both states, and runs the fault procedure when it holds. -/
theorem raiseFault_or {s : State} {cond : Prop} [Decidable cond] {code : FaultCode} {w : Word} {r r' : Result}
    (h : SameButGiven s.responses given r r') :
    SameButGiven s.responses given (if cond then Machine.raiseFault code w s else r)
      (if cond then Machine.raiseFault code w (s.withResponses given) else r') := by
  split
  · exact raiseFault
  · exact h

end SameButGiven

/-- No meaning reads the responses given: its checks, writes and data are the same without them. -/
theorem exec_sameButGiven (i : Instr) (s : State) (given : List Response) :
    SameButGiven s.responses given (exec i s) (exec i (s.withResponses given)) := by
  cases i with
  | gfli | gfdiv | vnew | vset | vget | pmul | bwdec | lfstep | lfflush => exact .raiseFault_or (.complete rfl)
  | pdivmod => exact .raiseFault_or (.raiseFault_or (.complete rfl))
  | csrr csr =>
    have hvalue : (s.withResponses given).csrValue (immValue csr) = s.csrValue (immValue csr) := rfl
    simp only [exec, execCsrr, hvalue]
    split
    · exact .complete rfl
    · exact .raiseFault
  | _ => exact .complete rfl

theorem step_sameButGiven (s : State) (given : List Response) :
    SameButGiven s.responses given (step s) (step (s.withResponses given)) := by
  have hport : (s.withResponses given).port = s.port := rfl
  unfold step
  rw [hport]
  rcases s.port with _ | ⟨w | _, rest⟩
  · exact .unanswered rfl
  · dsimp only
    rcases decode w with err | i
    · exact .raiseFault (s := s.withPort rest)
    · exact exec_sameButGiven i (s.withPort rest) given
  · exact .unanswered rfl

/-- Settles O18: the two steps run side by side. -/
theorem responsesAreNotRead : Obligations.ResponsesAreNotRead := by
  intro s t given h
  have hsame := step_sameButGiven s given
  rw [h] at hsame
  exact hsame.of_next

end Sys2Proof.Machine
end

section
/-! # The pseudo-instructions' lines

A line written as R79 says, with no blank, comma or comment mark inside its mnemonic and operands, is read back as that
mnemonic with those operands. A pseudo-instruction's line is then its entry in the assembler's table (R80). -/

namespace Sys2Proof.Machine

/-! ## Reading back a written line -/

/-- The text of a mnemonic or an operand: nothing in it ends it. -/
structure IsToken (cs : List Char) : Prop where
  nonempty : cs ≠ []
  plain : ∀ c ∈ cs, isBlank c = false ∧ c ≠ ',' ∧ c ≠ ';'

namespace IsToken

variable {tok : List Char}

theorem comma_notMem (h : IsToken tok) : ',' ∉ tok := fun hc => (h.plain _ hc).2.1 rfl

theorem semicolon_notMem (h : IsToken tok) : ';' ∉ tok := fun hc => (h.plain _ hc).2.2 rfl

theorem reverse (h : IsToken tok) : IsToken tok.reverse := ⟨by simpa using h.nonempty, by simpa using h.plain⟩

theorem dropBlanks_append (h : IsToken tok) (post : List Char) : (tok ++ post).dropWhile isBlank = tok ++ post := by
  obtain ⟨hne, hplain⟩ := h
  cases tok with
  | nil => exact absurd rfl hne
  | cons c cs => simp [hplain c]

/-- Blanks before a text that begins and ends with a token are all that is trimmed. -/
theorem trimBlanks_eq {blanks cs first last pre post : List Char} (hblanks : ∀ c ∈ blanks, isBlank c = true)
    (hfirst : IsToken first) (hlast : IsToken last) (hbegin : cs = first ++ post) (hend : cs = pre ++ last) :
    trimBlanks (blanks ++ cs) = cs := by
  have hdrop : cs.dropWhile isBlank = cs := by rw [hbegin, hfirst.dropBlanks_append]
  rw [trimBlanks, List.dropWhile_append_of_pos hblanks, hdrop, hend, List.reverse_append,
    hlast.reverse.dropBlanks_append, ← List.reverse_append, List.reverse_reverse]

end IsToken

theorem joinOperands_begins (o : List Char) (os : List (List Char)) :
    ∃ post, joinOperands (o :: os) = o ++ post := by
  cases os with
  | nil => exact ⟨[], (List.append_nil o).symm⟩
  | cons o' os => exact ⟨_, List.append_assoc _ _ _⟩

theorem joinOperands_ends (os : List (List Char)) : ∀ o : List Char,
    ∃ pre, ∃ last ∈ o :: os, joinOperands (o :: os) = pre ++ last := by
  induction os with
  | nil => exact fun o => ⟨[], o, List.mem_cons_self, rfl⟩
  | cons o' os ih =>
    intro o
    obtain ⟨pre, last, hlast, heq⟩ := ih o'
    exact ⟨o ++ [',', ' '] ++ pre, last, List.mem_cons_of_mem _ hlast, by simp [joinOperands, heq]⟩

theorem semicolon_notMem_joinOperands {os : List (List Char)} (h : ∀ o ∈ os, IsToken o) : ';' ∉ joinOperands os := by
  induction os with
  | nil => exact List.not_mem_nil
  | cons o os ih =>
    have ho := (h o List.mem_cons_self).semicolon_notMem
    have hos := ih fun o' ho' => h o' (List.mem_cons_of_mem _ ho')
    cases os with
    | nil => exact ho
    | cons o' os => simp [joinOperands, ho, hos]

/-- Splitting at the commas gives the operands back, the blanks before each trimmed off. -/
theorem split_joinOperands (os : List (List Char)) : ∀ o blanks : List Char, (∀ c ∈ blanks, isBlank c = true) →
    (∀ o' ∈ o :: os, IsToken o') → ((blanks ++ joinOperands (o :: os)).splitOn ',').map trimBlanks = o :: os := by
  have hcomma : ∀ {o blanks : List Char}, (∀ c ∈ blanks, isBlank c = true) → IsToken o → ',' ∉ blanks ++ o := by
    intro o blanks hblanks ho
    simpa [ho.comma_notMem] using fun hc => absurd (hblanks _ hc) (by decide)
  have htrim : ∀ {o blanks : List Char}, (∀ c ∈ blanks, isBlank c = true) → IsToken o → trimBlanks (blanks ++ o) = o :=
    fun hblanks ho => IsToken.trimBlanks_eq (pre := []) (post := []) hblanks ho ho (by simp) (by simp)
  induction os with
  | nil =>
    intro o blanks hblanks hos
    have ho := hos o List.mem_cons_self
    rw [joinOperands, List.splitOn_eq_singleton (hcomma hblanks ho), List.map_singleton, htrim hblanks ho]
  | cons o' os ih =>
    intro o blanks hblanks hos
    have ho := hos o List.mem_cons_self
    have hline : blanks ++ joinOperands (o :: o' :: os) = (blanks ++ o) ++ ',' :: ([' '] ++ joinOperands (o' :: os)) := by
      simp [joinOperands]
    rw [hline, List.splitOn_append_cons_self_of_not_mem (hcomma hblanks ho), List.map_cons, htrim hblanks ho,
      ih o' [' '] (by simp [isBlank]) fun o'' h => hos o'' (List.mem_cons_of_mem _ h)]

/-- A line written as R79 says is the command of its mnemonic and operands. -/
theorem assembleLine_joinOperands {name o : List Char} {os : List (List Char)} {w : Word} (hname : IsToken name)
    (hos : ∀ o' ∈ o :: os, IsToken o') (hw : assembleWords name (o :: os) = some w) :
    assembleLine (name ++ ' ' :: joinOperands (o :: os)) = .command w := by
  have hsemi : ';' ∉ name ++ ' ' :: joinOperands (o :: os) := by
    simp [hname.semicolon_notMem, semicolon_notMem_joinOperands hos]
  have hsplit := split_joinOperands os o [] (by simp) hos
  obtain ⟨post, hbegin⟩ := joinOperands_begins o os
  obtain ⟨pre, last, hlast, hend⟩ := joinOperands_ends os o
  have hargs : trimBlanks (' ' :: joinOperands (o :: os)) = joinOperands (o :: os) :=
    IsToken.trimBlanks_eq (blanks := [' ']) (by simp [isBlank]) (hos o List.mem_cons_self) (hos last hlast) hbegin hend
  have hne : joinOperands (o :: os) ≠ [] := by simp [hbegin, (hos o List.mem_cons_self).nonempty]
  generalize joinOperands (o :: os) = args at *
  have hline : (name ++ ' ' :: args).takeWhile (· != ';') = name ++ ' ' :: args :=
    List.takeWhile_eq_self_iff.2 fun c hc => bne_iff_ne.2 fun h => hsemi (h ▸ hc)
  have hcode : trimBlanks (name ++ ' ' :: args) = name ++ ' ' :: args :=
    IsToken.trimBlanks_eq (blanks := []) (pre := name ++ ' ' :: pre) (by simp) hname (hos last hlast) rfl (by simp [hend])
  have hword : ∀ c ∈ name, (!isBlank c) = true := fun c hc => by simp [(hname.plain c hc).1]
  have htake : (name ++ ' ' :: args).takeWhile (fun c => !isBlank c) = name := by
    rw [List.takeWhile_append_of_pos hword]
    simp [isBlank]
  have hdrop : (name ++ ' ' :: args).dropWhile (fun c => !isBlank c) = ' ' :: args := by
    rw [List.dropWhile_append_of_pos hword]
    simp [isBlank]
  simp [assembleLine, hline, hcode, htake, hdrop, hargs, hne, List.nil_append args ▸ hsplit, hw]

/-! ## Registers -/

theorem isToken_regText {file : Char} (hfile : isBlank file = false ∧ file ≠ ',' ∧ file ≠ ';') (r : Fin 16) :
    IsToken (regText file r) := by
  refine ⟨List.cons_ne_nil _ _, List.forall_mem_cons.2 ⟨hfile, fun c hc => ?_⟩⟩
  have hdigit : c.isDigit = true := Nat.isDigit_of_mem_toDigits (by decide) (by decide) hc
  refine ⟨?_, ?_, ?_⟩
  · simp only [isBlank, Bool.or_eq_false_iff, beq_eq_false_iff_ne]
    constructor <;> (rintro rfl; cases hdigit)
  · rintro rfl
    cases hdigit
  · rintro rfl
    cases hdigit

theorem readReg_e_regText (r : EReg) : readReg 'e' (regText 'e' r) = some r := by decide +revert

theorem readReg_v_regText (r : VReg) : readReg 'v' (regText 'v' r) = some r := by decide +revert

/-! ## The entries of R80 -/

theorem assembleWords_gfzero (ed : EReg) :
    assembleWords "GFZERO".toList [regText 'e' ed] = some (encode (.gfli ed 0)) := by
  simp [assembleWords, withE, readReg_e_regText, Instr.gfzero]

theorem assembleWords_gfone (ed : EReg) :
    assembleWords "GFONE".toList [regText 'e' ed] = some (encode (.gfli ed 1)) := by
  simp [assembleWords, withE, readReg_e_regText, Instr.gfone]

theorem assembleWords_bwdecTwo (vd vs : VReg) :
    assembleWords "BWDEC".toList [regText 'v' vd, regText 'v' vs] = some (encode (.bwdec vd vs false)) := by
  have hfind : allOpcodes.find? (fun op => (mnemonic op).toList == "BWDEC".toList) = some .bwdec := by decide
  simp only [assembleWords, hfind, assembleCommand]
  simp [withV, readReg_v_regText, Instr.bwdecTwo]

theorem assembleWords_bwdecf (vd vs : VReg) :
    assembleWords "BWDECF".toList [regText 'v' vd, regText 'v' vs] = some (encode (.bwdec vd vs true)) := by
  simp [assembleWords, withV, readReg_v_regText, Instr.bwdecf]

/-- Settles O60: each line is read back as its mnemonic and registers, which the table expands. -/
theorem pseudoInstructionsExpand : Obligations.PseudoInstructionsExpand := by
  have hname : ∀ name ∈ ["GFZERO", "GFONE", "BWDEC", "BWDECF"], IsToken name.toList := fun name h =>
    ⟨by revert name; simp, by revert name; simp [isBlank]⟩
  have he : ∀ ed : EReg, ∀ o ∈ [regText 'e' ed], IsToken o := by simp [isToken_regText, isBlank]
  have hv : ∀ vd vs : VReg, ∀ o ∈ [regText 'v' vd, regText 'v' vs], IsToken o := by simp [isToken_regText, isBlank]
  refine ⟨fun ed => ?_, fun ed => ?_, fun vd vs => ?_, fun vd vs => ?_⟩
  · simpa [joinOperands] using assembleLine_joinOperands (hname _ (by simp)) (he ed) (assembleWords_gfzero ed)
  · simpa [joinOperands] using assembleLine_joinOperands (hname _ (by simp)) (he ed) (assembleWords_gfone ed)
  · simpa [joinOperands] using assembleLine_joinOperands (hname _ (by simp)) (hv vd vs) (assembleWords_bwdecTwo vd vs)
  · simpa [joinOperands] using assembleLine_joinOperands (hname _ (by simp)) (hv vd vs) (assembleWords_bwdecf vd vs)

end Sys2Proof.Machine
end

section
/-! # The field of a legal configuration

The integers in [0, q) are the elements of GF(2)[x] / (IRRED) (R21): every element of the quotient is that of exactly one
integer below q, and the unit's functions are the quotient's operations. -/

namespace Sys2Proof.Config

open Machine Polynomial

/-- The field R100 to R104 compute in: the polynomials over GF(2) modulo IRRED. -/
abbrev GF (c : Config) : Type := AdjoinRoot (gf2Poly c.params.irred)

/-- What makes the quotient a field: a proof that uses its division or its cancellation takes this fact first. -/
theorem fact_irreducible (c : Config) : Fact (Irreducible (gf2Poly c.params.irred)) := ⟨c.irreducible_gf2Poly_irred⟩

theorem q_pos (c : Config) : 0 < c.params.q := Nat.two_pow_pos _

end Sys2Proof.Config

namespace Sys2Proof.Machine

open Polynomial

variable {c : Config}

/-- The field element an integer stands for: its polynomial modulo IRRED. -/
noncomputable def toGF (c : Config) (a : Nat) : c.GF := AdjoinRoot.mk _ (gf2Poly a)

/-! ## One integer below q for each element -/

theorem degree_gf2Poly_irred (c : Config) : (gf2Poly c.params.irred).degree = c.params.m := by
  rw [degree_eq_natDegree (monic_gf2Poly c.irred_log2.2).ne_zero, natDegree_gf2Poly c.irred_log2.2, c.irred_log2.1]

theorem toGF_eq_toGF_iff (a b : Nat) : toGF c a = toGF c b ↔ gf2Poly c.params.irred ∣ gf2Poly (a ^^^ b) := by
  rw [toGF, toGF, AdjoinRoot.mk_eq_mk, CharTwo.sub_eq_add, gf2Poly_xor]

/-- A multiple of IRRED of a degree below M is zero. -/
theorem toGF_inj {a b : Nat} (ha : a < c.params.q) (hb : b < c.params.q) : toGF c a = toGF c b ↔ a = b := by
  refine ⟨fun h => ?_, fun h => h ▸ rfl⟩
  have hdeg : (gf2Poly (a ^^^ b)).degree < (gf2Poly c.params.irred).degree := by
    rw [degree_gf2Poly_irred]
    exact (degree_gf2Poly_lt_iff _ _).2 (Nat.xor_lt_two_pow ha hb)
  have hzero := eq_zero_of_dvd_of_degree_lt ((toGF_eq_toGF_iff a b).1 h) hdeg
  exact Nat.xor_eq_zero_iff.1 ((gf2Poly_eq_zero_iff _).1 hzero)

/-- Every polynomial is congruent to its remainder modulo IRRED. -/
theorem exists_toGF_eq (x : c.GF) : ∃ a < c.params.q, toGF c a = x := by
  obtain ⟨f, rfl⟩ := AdjoinRoot.mk_surjective x
  have hmonic : (gf2Poly c.params.irred).Monic := monic_gf2Poly c.irred_log2.2
  obtain ⟨a, ha⟩ := gf2Poly_surjective (f %ₘ gf2Poly c.params.irred)
  refine ⟨a, (degree_gf2Poly_lt_iff a c.params.m).1 ?_, ?_⟩
  · rw [ha, ← degree_gf2Poly_irred]
    exact degree_modByMonic_lt f hmonic
  · rw [toGF, ha, AdjoinRoot.mk_eq_mk, modByMonic_eq_sub_mul_div, sub_sub_cancel_left]
    exact (dvd_mul_right _ _).neg_right

/-- The field has q elements. -/
theorem card_GF (c : Config) : Nat.card c.GF = c.params.q := by
  have hbij : Function.Bijective fun a : Fin c.params.q => toGF c a :=
    ⟨fun a b h => Fin.ext ((toGF_inj a.2 b.2).1 h), fun x => by
      obtain ⟨a, ha, hx⟩ := exists_toGF_eq x
      exact ⟨⟨a, ha⟩, hx⟩⟩
  rw [← Nat.card_eq_of_bijective _ hbij, Nat.card_fin]

/-! ## The functions are the field's operations -/

@[simp] theorem toGF_zero : toGF c 0 = 0 := by simp [toGF]

@[simp] theorem toGF_one : toGF c 1 = 1 := by simp [toGF]

theorem toGF_eq_zero_iff {a : Nat} (ha : a < c.params.q) : toGF c a = 0 ↔ a = 0 := by
  rw [← toGF_zero, toGF_inj ha c.q_pos]

@[simp] theorem toGF_gfadd (a b : Nat) : toGF c (gfadd a b) = toGF c a + toGF c b := by simp [toGF, gfadd]

/-- Subtracting IRRED does not change the element. -/
theorem toGF_gfxtimes (a : Nat) : toGF c (gfxtimes c.params a) = toGF c a * AdjoinRoot.root _ := by
  have hshift : toGF c (a <<< 1) = toGF c a * AdjoinRoot.root _ := by simp [toGF]
  rw [← hshift, gfxtimes]
  split
  · simp [toGF]
  · rfl

/-- An integer's bit 0 and the bits above it. -/
theorem toGF_eq_shiftRight (b : Nat) :
    toGF c b = toGF c (b >>> 1) * AdjoinRoot.root _ + (if b.testBit 0 then 1 else 0 : c.GF) := by
  have hdivX : gf2Poly (b >>> 1) = (gf2Poly b).divX := by
    ext j
    simp [coeff_divX, Nat.add_comm]
  rw [toGF, ← divX_mul_X_add (gf2Poly b), ← hdivX, coeff_gf2Poly]
  split <;> simp [toGF]

/-- The turns of R101's loop that `b` still needs. -/
theorem toGF_gfmulLoop (n : Nat) : ∀ a b : Nat, b < 2 ^ n →
    toGF c (gfmulLoop c.params n a b) = toGF c a * toGF c b := by
  induction n with
  | zero =>
    intro a b hb
    obtain rfl : b = 0 := by simpa using hb
    simp [gfmulLoop]
  | succ n ih =>
    intro a b hb
    have hrest : b >>> 1 < 2 ^ n := by
      rw [Nat.shiftRight_one]
      omega
    rw [gfmulLoop, toGF_gfadd, ih _ _ hrest, toGF_gfxtimes, toGF_eq_shiftRight b]
    split
    · ring
    · rw [toGF_zero]
      ring

/-- The product (R101), of a second factor that is an element. -/
theorem toGF_gfmul (a : Nat) {b : Nat} (hb : b < c.params.q) :
    toGF c (gfmul c.params a b) = toGF c a * toGF c b :=
  toGF_gfmulLoop _ a b hb

theorem toGF_gfpowLoop (d : Nat) : ∀ {a n : Nat}, a < c.params.q → n < 2 ^ d →
    toGF c (gfpowLoop c.params d a n) = toGF c a ^ n := by
  induction d with
  | zero =>
    intro a n _ hn
    obtain rfl : n = 0 := by simpa using hn
    simp [gfpowLoop]
  | succ d ih =>
    intro a n ha hn
    have hsq := gfmul_lt c a ha
    have hhalf : toGF c (gfpowLoop c.params d (gfmul c.params a a) (n / 2)) = toGF c a ^ (2 * (n / 2)) := by
      rw [ih hsq (by omega), toGF_gfmul a ha, pow_mul, sq]
    rw [gfpowLoop]
    split
    · next h => simp [h]
    · dsimp only
      split
      · next hodd =>
        rw [toGF_gfmul a (gfpowLoop_lt c d _ hsq), hhalf, ← pow_succ']
        congr 1
        omega
      · next heven =>
        rw [hhalf]
        congr 1
        omega

/-- The power (R104). -/
theorem toGF_gfpow {a : Nat} (ha : a < c.params.q) (n : Nat) : toGF c (gfpow c.params a n) = toGF c a ^ n :=
  toGF_gfpowLoop _ ha Nat.lt_log2_self

theorem toGF_powerByCopies {a : Nat} (ha : a < c.params.q) (n : Nat) :
    toGF c (powerByCopies c.params a n) = toGF c a ^ n := by
  induction n with
  | zero => simp [powerByCopies]
  | succ n ih => rw [powerByCopies, toGF_gfmul _ ha, ih, pow_succ]

/-- The non-zero elements are a group of order q − 1. -/
theorem toGF_pow_card_sub_one {a : Nat} (ha : a < c.params.q) (hne : a ≠ 0) : toGF c a ^ (c.params.q - 1) = 1 := by
  have := c.fact_irreducible
  have : Finite c.GF := Nat.finite_of_card_ne_zero (by rw [card_GF]; exact c.q_pos.ne')
  have := Fintype.ofFinite c.GF
  rw [← card_GF, Nat.card_eq_fintype_card]
  exact FiniteField.pow_card_sub_one_eq_one _ (mt (toGF_eq_zero_iff ha).1 hne)

/-- The inverse (R102); at 0 it is 0, as the field's is. -/
theorem toGF_gfinv [Fact (Irreducible (gf2Poly c.params.irred))] {b : Nat} (hb : b < c.params.q) :
    toGF c (gfinv c.params b) = (toGF c b)⁻¹ := by
  have hq : 2 < c.params.q := (by decide : 2 < 2 ^ 2).trans_le (Nat.pow_le_pow_right two_pos c.two_le_m)
  rw [gfinv, toGF_gfpow hb]
  by_cases hne : b = 0
  · simp [hne, show c.params.q - 2 ≠ 0 by omega]
  · refine eq_inv_of_mul_eq_one_left ?_
    rw [← pow_succ, ← toGF_pow_card_sub_one hb hne]
    congr 1
    omega

/-- The quotient (R103). -/
theorem toGF_gfdiv [Fact (Irreducible (gf2Poly c.params.irred))] (a : Nat) {b : Nat} (hb : b < c.params.q) :
    toGF c (gfdiv c.params a b) = toGF c a / toGF c b := by
  rw [gfdiv, toGF_gfmul a (gfinv_lt c hb), toGF_gfinv hb, div_eq_mul_inv]

end Sys2Proof.Machine
end

section
/-! # The field commands

The field's laws read back on the integers below q (R105), and what each command of 40_gf_scalar.md writes and answers. -/

namespace Sys2Proof.Machine

section FieldLaws

variable {c : Config}

/-! ## Products -/

/-- "The product of a and b as polynomials over GF(2), reduced modulo IRRED" (R101) is the field's product. -/
theorem isReducedProduct_iff (a b r : Nat) :
    IsReducedProduct c.params a b r ↔ r < c.params.q ∧ toGF c a * toGF c b = toGF c r := by
  have hclmul : toGF c a * toGF c b = toGF c (clmul a b) := by simp [toGF]
  rw [hclmul, toGF_eq_toGF_iff]
  refine and_congr_right fun _ => ⟨fun ⟨d, hd⟩ => ⟨gf2Poly d, ?_⟩, fun ⟨g, hg⟩ => ?_⟩
  · rw [hd, Nat.xor_xor_cancel_right, gf2Poly_clmul, mul_comm]
  · obtain ⟨d, rfl⟩ := gf2Poly_surjective g
    refine ⟨d, ?_⟩
    have hxor : clmul a b ^^^ r = clmul d c.params.irred := gf2Poly_injective (by rw [hg, gf2Poly_clmul, mul_comm])
    rw [← hxor, Nat.xor_xor_cancel_right]

theorem gfmul_isReducedProduct {a b : Nat} (ha : a < c.params.q) (hb : b < c.params.q) :
    IsReducedProduct c.params a b (gfmul c.params a b) :=
  (isReducedProduct_iff a b _).2 ⟨gfmul_lt c b ha, (toGF_gfmul a hb).symm⟩

theorem IsReducedProduct.unique {a b r r' : Nat} (h : IsReducedProduct c.params a b r)
    (h' : IsReducedProduct c.params a b r') : r' = r := by
  obtain ⟨hr, heq⟩ := (isReducedProduct_iff a b r).1 h
  obtain ⟨hr', heq'⟩ := (isReducedProduct_iff a b r').1 h'
  exact (toGF_inj hr' hr).1 (heq'.symm.trans heq)

theorem gfmul_comm {a b : Nat} (ha : a < c.params.q) (hb : b < c.params.q) :
    gfmul c.params a b = gfmul c.params b a :=
  (toGF_inj (gfmul_lt c b ha) (gfmul_lt c a hb)).1 (by rw [toGF_gfmul a hb, toGF_gfmul b ha, mul_comm])

theorem gfmul_assoc {x y z : Nat} (hx : x < c.params.q) (hy : y < c.params.q) (hz : z < c.params.q) :
    gfmul c.params (gfmul c.params x y) z = gfmul c.params x (gfmul c.params y z) :=
  (toGF_inj (gfmul_lt c z (gfmul_lt c y hx)) (gfmul_lt c _ hx)).1 (by
    rw [toGF_gfmul _ hz, toGF_gfmul x hy, toGF_gfmul x (gfmul_lt c z hy), toGF_gfmul y hz, mul_assoc])

theorem gfmul_gfadd {x y z : Nat} (hx : x < c.params.q) (hy : y < c.params.q) (hz : z < c.params.q) :
    gfmul c.params x (gfadd y z) = gfadd (gfmul c.params x y) (gfmul c.params x z) :=
  (toGF_inj (gfmul_lt c _ hx) (gfadd_lt (gfmul_lt c y hx) (gfmul_lt c z hx))).1 (by
    rw [toGF_gfmul x (gfadd_lt hy hz), toGF_gfadd, toGF_gfadd, toGF_gfmul x hy, toGF_gfmul x hz, mul_add])

theorem gfmul_one {x : Nat} (hx : x < c.params.q) : gfmul c.params x 1 = x :=
  (toGF_inj (gfmul_lt c 1 hx) hx).1 (by rw [toGF_gfmul x c.one_lt_q, toGF_one, mul_one])

theorem gfmul_eq_zero {x y : Nat} (hx : x < c.params.q) (hy : y < c.params.q) (h : gfmul c.params x y = 0) :
    x = 0 ∨ y = 0 := by
  have := c.fact_irreducible
  have hprod : toGF c x * toGF c y = 0 := by rw [← toGF_gfmul x hy, h, toGF_zero]
  exact (mul_eq_zero.1 hprod).imp (toGF_eq_zero_iff hx).1 (toGF_eq_zero_iff hy).1

/-! ## Quotients -/

/-- For b ≠ 0, `gfdiv(a, b)` is the one x with `gfmul(x, b) = a` (R103). -/
theorem gfmul_eq_iff_eq_gfdiv {a b x : Nat} (ha : a < c.params.q) (hb : b < c.params.q) (hne : b ≠ 0)
    (hx : x < c.params.q) : gfmul c.params x b = a ↔ x = gfdiv c.params a b := by
  have := c.fact_irreducible
  rw [← toGF_inj (gfmul_lt c b hx) ha, ← toGF_inj hx (gfdiv_lt c b ha), toGF_gfmul x hb, toGF_gfdiv a hb,
    eq_div_iff (mt (toGF_eq_zero_iff hb).1 hne)]

/-! ## Powers -/

theorem powerByCopies_lt (a n : Nat) : powerByCopies c.params a n < c.params.q := by
  induction n with
  | zero => exact c.one_lt_q
  | succ n ih => exact gfmul_lt c a ih

/-- Square and multiply computes the product of n copies (R104). -/
theorem gfpow_eq_powerByCopies {a : Nat} (ha : a < c.params.q) (n : Nat) :
    gfpow c.params a n = powerByCopies c.params a n :=
  (toGF_inj (gfpow_lt c n ha) (powerByCopies_lt a n)).1 (by rw [toGF_gfpow ha, toGF_powerByCopies ha])

theorem gfpow_card_sub_one {a : Nat} (ha : a < c.params.q) (hne : a ≠ 0) : gfpow c.params a (c.params.q - 1) = 1 :=
  (toGF_inj (gfpow_lt c _ ha) c.one_lt_q).1 (by rw [toGF_gfpow ha, toGF_pow_card_sub_one ha hne, toGF_one])

/-- For a ≠ 0 exponents count modulo q − 1 (R104). -/
theorem gfpow_mod {a : Nat} (ha : a < c.params.q) (hne : a ≠ 0) (n : Nat) :
    gfpow c.params a n = gfpow c.params a (n % (c.params.q - 1)) :=
  (toGF_inj (gfpow_lt c _ ha) (gfpow_lt c _ ha)).1 (by
    rw [toGF_gfpow ha, toGF_gfpow ha, ← pow_eq_pow_mod n (toGF_pow_card_sub_one ha hne)])

theorem gfpow_ne_zero {a : Nat} (ha : a < c.params.q) (hne : a ≠ 0) (n : Nat) : gfpow c.params a n ≠ 0 := by
  have := c.fact_irreducible
  rw [Ne, ← toGF_eq_zero_iff (gfpow_lt c n ha), toGF_gfpow ha]
  exact pow_ne_zero n (mt (toGF_eq_zero_iff ha).1 hne)

/-- The first q − 1 powers of ALPHA are different, which is what makes it primitive (R6). -/
theorem injOn_gfpow_alpha (c : Config) :
    Set.InjOn (gfpow c.params c.params.alpha) (Finset.range (c.params.q - 1)) := by
  intro i hi j hj
  exact List.inj_on_of_nodup_map c.alphaPowers_nodup (by simpa using hi) (by simpa using hj)

/-- q − 1 different non-zero elements are all there are. -/
theorem exists_gfpow_alpha_eq {x : Nat} (hx : x < c.params.q) (hne : x ≠ 0) :
    ∃ i < c.params.q - 1, gfpow c.params c.params.alpha i = x := by
  have halpha : c.params.alpha ≠ 0 := Nat.one_le_iff_ne_zero.1 c.alpha_pos
  have hmaps : Set.MapsTo (gfpow c.params c.params.alpha) (Finset.range (c.params.q - 1))
      (Finset.Ico 1 c.params.q) := fun i _ =>
    Finset.mem_coe.2 (Finset.mem_Ico.2
      ⟨Nat.one_le_iff_ne_zero.2 (gfpow_ne_zero c.alpha_lt halpha i), gfpow_lt c i c.alpha_lt⟩)
  have hmem : x ∈ Finset.Ico 1 c.params.q := Finset.mem_Ico.2 ⟨Nat.one_le_iff_ne_zero.2 hne, hx⟩
  obtain ⟨i, hi, heq⟩ := Finset.surjOn_of_injOn_of_card_le _ hmaps (injOn_gfpow_alpha c) (by simp) hmem
  exact ⟨i, by simpa using hi, heq⟩

end FieldLaws

/-- Settles O31: the laws above, each the quotient field's own. -/
theorem fieldLaws : Obligations.FieldLaws := by
  intro c x y z hx hy hz
  have halpha : c.params.alpha ≠ 0 := Nat.one_le_iff_ne_zero.1 c.alpha_pos
  refine ⟨gfadd_lt hx hy, gfmul_lt c y hx, fun _ => gfdiv_lt c y hx, fun n => gfpow_lt c n hx, gfadd_comm x y,
    gfadd_assoc x y z, gfadd_zero x, gfadd_self x, gfmul_comm hx hy, gfmul_assoc hx hy hz, gfmul_gfadd hx hy hz,
    gfmul_one hx, gfmul_eq_zero hx hy, fun hne => ?_, gfpow_card_sub_one c.alpha_lt halpha⟩
  obtain ⟨i, hi, rfl⟩ := exists_gfpow_alpha_eq hx hne
  exact ⟨i, hi, rfl, fun j hj heq => injOn_gfpow_alpha c (by simpa using hj) (by simpa using hi) heq⟩

/-! ## The commands -/

/-- Settles O28: `gfmul` is the reduced product, and IRRED leaves room for one only. -/
theorem gfmulIsReducedProduct : Obligations.GfmulIsReducedProduct := by
  intro ed ea eb s hs
  have hprod : IsReducedProduct s.params s.e[ea] s.e[eb] (gfmul s.params s.e[ea] s.e[eb]) :=
    gfmul_isReducedProduct (hs.readE_lt ea) (hs.readE_lt eb)
  exact ⟨_, hprod, fun r' h' => IsReducedProduct.unique (c := s.cfg) hprod h', (complete_eq_next _ _ _).2 rfl⟩

/-- Settles O29: by whether the divisor is zero. -/
theorem gfdivIsTheQuotient : Obligations.GfdivIsTheQuotient := by
  intro ed ea eb s hs
  have ha : s.e[ea] < s.cfg.params.q := hs.readE_lt ea
  have hb : s.e[eb] < s.cfg.params.q := hs.readE_lt eb
  refine ⟨fun hne => ?_, fun hzero => (if_pos hzero).trans ((raiseFault_eq_next _ _ _ _).2 rfl)⟩
  have hq := gfdiv_lt s.cfg s.e[eb] ha
  exact ⟨_, hq, (gfmul_eq_iff_eq_gfdiv ha hb hne hq).2 rfl, fun y hy => (gfmul_eq_iff_eq_gfdiv ha hb hne hy).1,
    (if_neg hne).trans ((complete_eq_next _ _ _).2 rfl)⟩

/-- Settles O30: square and multiply is the product of copies, in which exponents count modulo q − 1. -/
theorem gfpowIsRepeatedProduct : Obligations.GfpowIsRepeatedProduct := by
  intro ed ea exp s hs
  have ha : s.e[ea] < s.cfg.params.q := hs.readE_lt ea
  have hcopies : ∀ n, powerByCopies s.params s.e[ea] n = gfpow s.params s.e[ea] n := fun n =>
    (gfpow_eq_powerByCopies ha n).symm
  simp only [hcopies]
  exact ⟨(complete_eq_next _ _ _).2 rfl, fun hne => gfpow_mod ha hne exp.toNat⟩

/-- Settles O25: by the immediate's place below or above 2^M. -/
theorem gfliLoadsOrFaults : Obligations.GfliLoadsOrFaults := fun _ _ _ =>
  ⟨fun hlt => (if_neg (Nat.not_le.2 hlt)).trans ((complete_eq_next _ _ _).2 rfl),
    fun hle => (if_pos hle).trans ((raiseFault_eq_next _ _ _ _).2 rfl)⟩

/-- Settles O26: the one write of the command, and its response. -/
theorem gfalphaLoadsAlpha : Obligations.GfalphaLoadsAlpha := fun _ _ => (complete_eq_next _ _ _).2 rfl

/-- Settles O27: the one write of each command, and its response. -/
theorem addSubtractNegate : Obligations.AddSubtractNegate := fun _ _ _ _ =>
  ⟨(complete_eq_next _ _ _).2 rfl, (complete_eq_next _ _ _).2 rfl, (complete_eq_next _ _ _).2 rfl⟩

/-! ## The readers -/

theorem isZero_iff (a : List Nat) : isZero a = true ↔ ∀ x ∈ a, x = 0 := by
  simp [isZero]

theorem zeroTestWord_of_zero {a : List Nat} (h : ∀ x ∈ a, x = 0) : zeroTestWord a = 1 :=
  congrArg boolWord ((isZero_iff a).2 h)

theorem zeroTestWord_of_nonzero {a : List Nat} (h : ∃ x ∈ a, x ≠ 0) : zeroTestWord a = 0 := by
  have hfalse : isZero a = false := Bool.eq_false_iff.2 fun htrue => by
    obtain ⟨x, hx, hne⟩ := h
    exact hne ((isZero_iff a).1 htrue x hx)
  exact congrArg boolWord hfalse

theorem exec_pisz (vs : VReg) (s : State) :
    exec (.pisz vs) s = .next { s with responses := s.responses ++ [okResponse (zeroTestWord s.v[vs])] } :=
  (complete_eq_next _ _ _).2 rfl

/-- Settles O33: no reader writes a register, and the zero-test's word says whether a coefficient is not zero. -/
theorem readersOnlyAnswer : Obligations.ReadersOnlyAnswer := fun _ vs s =>
  ⟨(complete_eq_next _ _ _).2 rfl, (complete_eq_next _ _ _).2 rfl,
    fun h => by rw [exec_pisz, zeroTestWord_of_zero h], fun h => by rw [exec_pisz, zeroTestWord_of_nonzero h]⟩

end Sys2Proof.Machine
end

section
/-! # Canonical sequences

A canonical sequence (R23) is fixed by its coefficients, and `Trim` gives one (R130). -/

namespace Sys2Proof.Machine

theorem coeff_eq_getElem {a : List Nat} {j : Nat} (h : j < a.length) : coeff a j = a[j] :=
  List.getD_eq_getElem a 0 h

theorem coeff_set (a : List Nat) (i x j : Nat) :
    coeff (a.set i x) j = if j = i ∧ i < a.length then x else coeff a j := by
  rw [coeff, coeff, List.getD_eq_getElem?_getD, List.getD_eq_getElem?_getD, List.getElem?_set]
  grind

theorem coeff_replicate_zero (n j : Nat) : coeff (List.replicate n 0) j = 0 := by
  rw [coeff, List.getD_eq_getElem?_getD, List.getElem?_replicate]
  split <;> rfl

/-! ## The top coefficient -/

theorem coeff_dropTopZeros_top {a : List Nat} (h : dropTopZeros a ≠ []) :
    coeff (dropTopZeros a) ((dropTopZeros a).length - 1) ≠ 0 := by
  induction a with
  | nil => exact absurd rfl h
  | cons x a ih =>
    rw [dropTopZeros] at h ⊢
    split
    · next hnil =>
      by_cases hx : x = 0
      · simp [hnil, hx] at h
      · simp [hx]
    · next hne =>
      obtain ⟨n, hn⟩ := Nat.exists_eq_succ_of_ne_zero (mt List.length_eq_zero_iff.1 hne)
      simpa [hn] using ih hne

theorem canonical_trim (a : List Nat) : Canonical (trim a) := by
  refine ⟨trim_length_pos a, ?_⟩
  rw [trim]
  split
  · exact .inr rfl
  · next hne => exact .inl (coeff_dropTopZeros_top hne)

/-- `Deg` is one less than the canonical form's length (R131). -/
theorem length_trim (a : List Nat) : (trim a).length = deg a + 1 := (Nat.sub_add_cancel (trim_length_pos a)).symm

theorem coeff_eq_zero_of_deg_lt {a : List Nat} {j : Nat} (h : deg a < j) : coeff a j = 0 := by
  rw [← coeff_trim]
  exact coeff_of_length_le ((length_trim a).trans_le h)

/-- The coefficient at the degree is not zero, but for a sequence of zeros (R131). -/
theorem coeff_deg_ne_zero {a : List Nat} (h : isZero a = false) : coeff a (deg a) ≠ 0 := by
  rcases (canonical_trim a).2 with hne | hlen
  · rwa [coeff_trim] at hne
  · have hdeg : deg a = 0 := by rw [deg, hlen]
    intro hzero
    have hall : ∀ j, coeff a j = 0 := by
      intro j
      rcases Nat.eq_zero_or_pos j with rfl | hpos
      · exact hdeg ▸ hzero
      · exact coeff_eq_zero_of_deg_lt (hdeg ▸ hpos)
    simp [(isZero_iff_coeff a).2 hall] at h

theorem trim_eq_zero {a : List Nat} (h : isZero a = true) : trim a = [0] := by
  rw [trim, dropTopZeros_eq_nil ((isZero_iff_coeff a).1 h)]

/-! ## Equal coefficients -/

/-- No sequence with a canonical one's coefficients is shorter. -/
theorem Canonical.length_le {a b : List Nat} (ha : Canonical a) (hb : 1 ≤ b.length)
    (h : ∀ j, coeff a j = coeff b j) : a.length ≤ b.length := by
  by_contra hlt
  rcases ha.2 with hne | hlen
  · exact hne ((h _).trans (coeff_of_length_le (by omega)))
  · omega

theorem Canonical.ext {a b : List Nat} (ha : Canonical a) (hb : Canonical b) (h : ∀ j, coeff a j = coeff b j) :
    a = b := by
  have hlen : a.length = b.length := (ha.length_le hb.1 h).antisymm (hb.length_le ha.1 fun j => (h j).symm)
  refine List.ext_getElem hlen fun j hja hjb => ?_
  rw [← coeff_eq_getElem hja, ← coeff_eq_getElem hjb, h j]

end Sys2Proof.Machine
end

section
/-! # Sequences as polynomials over the field

A sequence stands for the polynomial whose coefficient at power j is the field element of `a[j]`; the polynomial unit's
product, value and division (R134 to R136) are the polynomial ring's. -/

namespace Sys2Proof.Machine

open Polynomial

variable {c : Config}

/-- The polynomial a sequence stands for: index = power. -/
noncomputable def toPoly (c : Config) (a : List Nat) : c.GF[X] :=
  ∑ j ∈ Finset.range a.length, C (toGF c (coeff a j)) * X ^ j

@[simp] theorem coeff_toPoly (a : List Nat) (j : Nat) : (toPoly c a).coeff j = toGF c (coeff a j) := by
  simp only [toPoly, finsetSum_coeff, coeff_C_mul_X_pow, Finset.sum_ite_eq, Finset.mem_range, ite_eq_left_iff]
  intro h
  rw [coeff_of_length_le (Nat.not_lt.1 h), toGF_zero]

theorem toPoly_congr {a b : List Nat} (h : ∀ j, coeff a j = coeff b j) : toPoly c a = toPoly c b := by
  ext j
  rw [coeff_toPoly, coeff_toPoly, h]

@[simp] theorem toPoly_trim (a : List Nat) : toPoly c (trim a) = toPoly c a := toPoly_congr (coeff_trim a)

/-- Sequences of elements with one polynomial have the same coefficients. -/
theorem toPoly_inj {a b : List Nat} (ha : AllElems c.params a) (hb : AllElems c.params b) :
    toPoly c a = toPoly c b ↔ ∀ j, coeff a j = coeff b j := by
  refine ⟨fun h j => (toGF_inj (coeff_lt c ha j) (coeff_lt c hb j)).1 ?_, toPoly_congr⟩
  rw [← coeff_toPoly, h, coeff_toPoly]

/-! ## Zero and the degree -/

@[simp] theorem toPoly_replicate_zero (n : Nat) : toPoly c (List.replicate n 0) = 0 := by
  ext j
  rw [coeff_toPoly, coeff_replicate_zero, toGF_zero, coeff_zero]

theorem toPoly_eq_zero_iff {a : List Nat} (ha : AllElems c.params a) : toPoly c a = 0 ↔ isZero a = true := by
  rw [isZero_iff_coeff, Polynomial.ext_iff]
  exact forall_congr' fun j => by rw [coeff_toPoly, coeff_zero, toGF_eq_zero_iff (coeff_lt c ha j)]

theorem toPoly_ne_zero {a : List Nat} (ha : AllElems c.params a) (hz : isZero a = false) : toPoly c a ≠ 0 := by
  rw [Ne, toPoly_eq_zero_iff ha, hz]
  exact Bool.false_ne_true

/-- `Deg` (R131) is the polynomial's degree; of the zero polynomial both are 0. -/
theorem natDegree_toPoly {a : List Nat} (ha : AllElems c.params a) : (toPoly c a).natDegree = deg a := by
  have hle : (toPoly c a).natDegree ≤ deg a := natDegree_le_iff_coeff_eq_zero.2 fun j hj => by
    rw [coeff_toPoly, coeff_eq_zero_of_deg_lt hj, toGF_zero]
  cases hz : isZero a with
  | true =>
    rw [(toPoly_eq_zero_iff ha).2 hz, natDegree_zero, deg, trim_eq_zero hz]
    rfl
  | false =>
    refine natDegree_eq_of_le_of_coeff_ne_zero hle ?_
    rw [coeff_toPoly, Ne, toGF_eq_zero_iff (coeff_lt c ha _)]
    exact coeff_deg_ne_zero hz

/-- R136's condition on a remainder is the polynomial ring's. -/
theorem degree_toPoly_lt_iff {r b : List Nat} (hr : AllElems c.params r) (hb : AllElems c.params b)
    (hz : isZero b = false) :
    (toPoly c r).degree < (toPoly c b).degree ↔ isZero r = true ∨ deg r < deg b := by
  rw [← toPoly_eq_zero_iff hr, ← natDegree_toPoly hr, ← natDegree_toPoly hb]
  by_cases hzero : toPoly c r = 0
  · simp [hzero, bot_lt_iff_ne_bot, toPoly_ne_zero hb hz]
  · simp [hzero, natDegree_lt_natDegree_iff hzero]

/-! ## The product (R134) -/

theorem toGF_gfsum (l : List Nat) : toGF c (gfsum l) = (l.map (toGF c)).sum := by
  induction l with
  | nil => exact toGF_zero
  | cons x l ih =>
    rw [List.map_cons, List.sum_cons, ← ih]
    exact toGF_gfadd x (gfsum l)

/-- The `gfadd`-sum of a function's first n values. -/
theorem toGF_gfsum_range (f : Nat → Nat) (n : Nat) :
    toGF c (gfsum ((List.range n).map f)) = ∑ i ∈ Finset.range n, toGF c (f i) := by
  rw [toGF_gfsum, List.map_map]
  rfl

theorem toGF_mulCoeff (a : List Nat) {b : List Nat} (hb : AllElems c.params b) (j : Nat) :
    toGF c (mulCoeff c.params a b j) = (toPoly c a * toPoly c b).coeff j := by
  rw [mulCoeff, toGF_gfsum_range, coeff_mul, Finset.Nat.sum_antidiagonal_eq_sum_range_succ_mk]
  exact Finset.sum_congr rfl fun i _ => by rw [toGF_gfmul _ (coeff_lt c hb _), coeff_toPoly, coeff_toPoly]

theorem toPoly_polyMul (a : List Nat) {b : List Nat} (hb : AllElems c.params b) :
    toPoly c (polyMul c.params a b) = toPoly c a * toPoly c b := by
  ext j
  rw [coeff_toPoly, coeff_polyMul, toGF_mulCoeff a hb]

/-! ## The value (R135) -/

theorem eval_toPoly (a : List Nat) (y : c.GF) :
    (toPoly c a).eval y = ∑ j ∈ Finset.range a.length, toGF c (coeff a j) * y ^ j := by
  simp [toPoly, eval_finsetSum]

theorem toGF_polyEval (a : List Nat) {x : Nat} (hx : x < c.params.q) :
    toGF c (polyEval c.params a x) = (toPoly c a).eval (toGF c x) := by
  rw [eval_toPoly]
  induction a with
  | nil => exact toGF_zero
  | cons y a ih =>
    rw [polyEval_cons, toGF_gfadd, toGF_gfmul _ hx, ih, List.length_cons, Finset.sum_range_succ', Finset.sum_mul]
    simp [pow_succ, mul_assoc]

theorem toGF_evalSum (a : List Nat) {x : Nat} (hx : x < c.params.q) :
    toGF c (evalSum c.params a x) = (toPoly c a).eval (toGF c x) := by
  rw [evalSum, toGF_gfsum_range, eval_toPoly]
  exact Finset.sum_congr rfl fun j _ => by rw [toGF_gfmul _ (gfpow_lt c j hx), toGF_gfpow hx]

theorem evalSum_lt {a : List Nat} (x : Nat) (ha : AllElems c.params a) : evalSum c.params a x < c.params.q :=
  gfsum_lt c (List.forall_mem_map.2 fun j _ => gfmul_lt c _ (coeff_lt c ha j))

/-- Horner's rule computes the sum of the terms. -/
theorem polyEval_eq_evalSum {a : List Nat} {x : Nat} (ha : AllElems c.params a) (hx : x < c.params.q) :
    polyEval c.params a x = evalSum c.params a x :=
  (toGF_inj (polyEval_lt c x ha) (evalSum_lt x ha)).1 (by rw [toGF_polyEval a hx, toGF_evalSum a hx])

end Sys2Proof.Machine
end

section
/-! # The long division

R136's loop keeps `quo · b + rem`, and each turn clears the remainder's coefficient at one power more; the pair it ends
with is the one division of polynomials over a field. -/

namespace Sys2Proof.Machine

open Polynomial

variable {c : Config}

/-! ## One turn of the loop -/

theorem coeff_subtractShifted (p : Params) {rem b : List Nat} {s : Nat} (f j : Nat) (h : s + b.length ≤ rem.length) :
    coeff (subtractShifted p rem s f b) j =
      gfadd (coeff rem j) (if s ≤ j then gfmul p f (coeff b (j - s)) else 0) := by
  rcases Nat.lt_or_ge j rem.length with hlt | hge
  · rw [coeff_eq_getElem (by simpa using hlt), coeff_eq_getElem hlt]
    simp only [subtractShifted, List.getElem_mapIdx]
    split <;> simp
  · rw [coeff_of_length_le (by simpa using hge), coeff_of_length_le hge,
      coeff_of_length_le (a := b) (by omega)]
    simp

theorem toPoly_subtractShifted {rem b : List Nat} {s : Nat} (f : Nat) (hb : AllElems c.params b)
    (h : s + b.length ≤ rem.length) :
    toPoly c (subtractShifted c.params rem s f b) = toPoly c rem + C (toGF c f) * (X ^ s * toPoly c b) := by
  ext j
  rw [coeff_toPoly, coeff_subtractShifted _ _ _ h, toGF_gfadd, coeff_add, coeff_toPoly, coeff_C_mul, coeff_X_pow_mul']
  split
  · rw [toGF_gfmul _ (coeff_lt c hb _), coeff_toPoly]
  · rw [toGF_zero, mul_zero]

theorem toPoly_set {quo : List Nat} {s : Nat} (f : Nat) (hs : s < quo.length) (hzero : coeff quo s = 0) :
    toPoly c (quo.set s f) = toPoly c quo + C (toGF c f) * X ^ s := by
  ext j
  rw [coeff_toPoly, coeff_set, coeff_add, coeff_toPoly, coeff_C_mul_X_pow]
  by_cases hj : j = s
  · simp [hj, hs, hzero]
  · simp [hj]

/-- In characteristic 2 a polynomial added twice is nothing. -/
theorem add_self_eq_zero_of_GF (f : c.GF[X]) : f + f = 0 := by
  have hone : (1 : c.GF) + 1 = 0 := by rw [← toGF_one, ← toGF_gfadd, gfadd_self, toGF_zero]
  calc f + f = C (1 + 1) * f := by rw [C_add, C_1, add_mul, one_mul]
    _ = 0 := by rw [hone, C_0, zero_mul]

/-! ## The loop -/

/-- What a turn puts into the quotient, times the divisor, it takes from the remainder. -/
theorem toPoly_divLoop {b : List Nat} (hb : AllElems c.params b) (n : Nat) :
    ∀ quo rem : List Nat, n ≤ quo.length → n + b.length ≤ rem.length + 1 → (∀ j < n, coeff quo j = 0) →
      toPoly c (divLoop c.params b n quo rem).1 * toPoly c b + toPoly c (divLoop c.params b n quo rem).2 =
        toPoly c quo * toPoly c b + toPoly c rem := by
  induction n with
  | zero => exact fun _ _ _ _ _ => rfl
  | succ n ih =>
    intro quo rem hquo hrem hzero
    rw [divLoop]
    generalize gfdiv c.params (coeff rem (n + (b.length - 1))) (coeff b (b.length - 1)) = f
    rw [ih _ _ (by simpa using Nat.le_of_succ_le hquo) (by rw [subtractShifted_length]; omega),
      toPoly_subtractShifted f hb (by omega), toPoly_set f hquo (hzero n n.lt_succ_self)]
    · have hcancel := add_self_eq_zero_of_GF (C (toGF c f) * X ^ n * toPoly c b)
      linear_combination hcancel
    · intro j hj
      rw [coeff_set, if_neg (by omega), hzero j (by omega)]

/-- The turn of the shift s clears the remainder's coefficient at s + deg(b): f is the quotient of the two. -/
theorem coeff_subtractShifted_eq_zero {rem b : List Nat} {s : Nat} (hb : AllElems c.params b)
    (hr : AllElems c.params rem) (hpos : 1 ≤ b.length) (htop : coeff b (b.length - 1) ≠ 0)
    (hlen : s + b.length ≤ rem.length) (hzero : ∀ j, s + b.length ≤ j → coeff rem j = 0) {j : Nat}
    (hj : s + (b.length - 1) ≤ j) :
    coeff (subtractShifted c.params rem s
      (gfdiv c.params (coeff rem (s + (b.length - 1))) (coeff b (b.length - 1))) b) j = 0 := by
  rw [coeff_subtractShifted _ _ _ hlen, if_pos (by omega)]
  rcases Nat.eq_or_lt_of_le hj with rfl | hlt
  · have hra := coeff_lt c hr (s + (b.length - 1))
    rw [Nat.add_sub_cancel_left,
      (gfmul_eq_iff_eq_gfdiv hra (coeff_lt c hb _) htop (gfdiv_lt c _ hra)).2 rfl, gfadd_self]
  · rw [hzero j (by omega), coeff_of_length_le (j := j - s) (by omega), gfmul_zero_right, gfadd_zero]

/-- The remainder the loop ends with has no coefficient at or above the divisor's degree. -/
theorem coeff_divLoop_snd_eq_zero {b : List Nat} (hb : AllElems c.params b) (hpos : 1 ≤ b.length)
    (htop : coeff b (b.length - 1) ≠ 0) (n : Nat) :
    ∀ quo rem : List Nat, AllElems c.params rem → n + b.length ≤ rem.length + 1 →
      (∀ j, n + (b.length - 1) ≤ j → coeff rem j = 0) →
      ∀ j, b.length - 1 ≤ j → coeff (divLoop c.params b n quo rem).2 j = 0 := by
  induction n with
  | zero => exact fun _ _ _ _ hzero j hj => hzero j (by omega)
  | succ n ih =>
    intro quo rem hr hlen hzero
    refine ih _ _ (subtractShifted_lt c n b hr (gfdiv_lt c _ (coeff_lt c hr _)))
      (by rw [subtractShifted_length]; omega) fun j hj => ?_
    exact coeff_subtractShifted_eq_zero hb hr hpos htop (by omega) (fun i hi => hzero i (by omega)) hj

/-! ## The division -/

/-- R136's characterisation, read in the polynomial ring. -/
theorem isDivision_iff {a b quo rem : List Nat} (ha : AllElems c.params a) (hb : AllElems c.params b)
    (hz : isZero b = false) :
    IsDivision c.params a b quo rem ↔
      Canonical quo ∧ Canonical rem ∧ AllElems c.params quo ∧ AllElems c.params rem ∧
        toPoly c a = toPoly c quo * toPoly c b + toPoly c rem ∧ (toPoly c rem).degree < (toPoly c b).degree := by
  refine and_congr_right fun _ => and_congr_right fun _ => and_congr_right fun hq => and_congr_right fun hr =>
    and_congr ?_ (degree_toPoly_lt_iff hr hb hz).symm
  rw [Polynomial.ext_iff]
  refine forall_congr' fun j => ?_
  rw [← toGF_inj (coeff_lt c ha j) (gfadd_lt (mulCoeff_lt c b hq j) (coeff_lt c hr j)), toGF_gfadd,
    toGF_mulCoeff quo hb, coeff_add, coeff_toPoly, coeff_toPoly]

/-- A difference of two remainders is a multiple of b of a degree below b's. -/
theorem IsDivision.unique {a b quo rem quo' rem' : List Nat} (ha : AllElems c.params a) (hb : AllElems c.params b)
    (hz : isZero b = false) (h : IsDivision c.params a b quo rem) (h' : IsDivision c.params a b quo' rem') :
    quo' = quo ∧ rem' = rem := by
  have := c.fact_irreducible
  obtain ⟨hqc, hrc, hq, hr, heq, hdeg⟩ := (isDivision_iff ha hb hz).1 h
  obtain ⟨hqc', hrc', hq', hr', heq', hdeg'⟩ := (isDivision_iff ha hb hz).1 h'
  have hsum := heq'.symm.trans heq
  have hdvd : toPoly c b ∣ toPoly c rem' - toPoly c rem :=
    ⟨toPoly c quo - toPoly c quo', by linear_combination hsum⟩
  have hrem : toPoly c rem' = toPoly c rem := sub_eq_zero.1
    (eq_zero_of_dvd_of_degree_lt hdvd ((degree_sub_le _ _).trans_lt (max_lt hdeg' hdeg)))
  rw [hrem, add_left_inj] at hsum
  have hquo := mul_right_cancel₀ (toPoly_ne_zero hb hz) hsum
  exact ⟨hqc'.ext hqc ((toPoly_inj hq' hq).1 hquo), hrc'.ext hrc ((toPoly_inj hr' hr).1 hrem)⟩

theorem polyDivMod_canonical (p : Params) (a b : List Nat) :
    Canonical (polyDivMod p a b).1 ∧ Canonical (polyDivMod p a b).2 := by
  rw [polyDivMod]
  dsimp only
  split
  · exact ⟨⟨le_rfl, .inr rfl⟩, canonical_trim a⟩
  · exact ⟨canonical_trim _, canonical_trim _⟩

/-- A dividend of lower degree than the divisor is its own remainder. -/
theorem polyDivMod_of_deg_lt (p : Params) {a b : List Nat} (h : deg a < deg b) : polyDivMod p a b = ([0], trim a) :=
  if_pos h

theorem polyDivMod_of_deg_le (p : Params) {a b : List Nat} (h : deg b ≤ deg a) :
    polyDivMod p a b =
      (trim (divLoop p (trim b) (deg a - deg b + 1) (List.replicate (deg a - deg b + 1) 0) (trim a)).1,
        trim (divLoop p (trim b) (deg a - deg b + 1) (List.replicate (deg a - deg b + 1) 0) (trim a)).2) :=
  if_neg (Nat.not_lt.2 h)

theorem toPoly_polyDivMod (a : List Nat) {b : List Nat} (hb : AllElems c.params b) :
    toPoly c a = toPoly c (polyDivMod c.params a b).1 * toPoly c b + toPoly c (polyDivMod c.params a b).2 := by
  rcases Nat.lt_or_ge (deg a) (deg b) with hlt | hge
  · have hquo : toPoly c [0] = 0 := toPoly_replicate_zero 1
    rw [polyDivMod_of_deg_lt _ hlt, hquo, toPoly_trim, zero_mul, zero_add]
  · have hloop := toPoly_divLoop (trim_lt c hb) (deg a - deg b + 1)
      (List.replicate (deg a - deg b + 1) 0) (trim a) (by simp) (by rw [length_trim, length_trim]; omega)
      fun j _ => coeff_replicate_zero _ j
    rw [polyDivMod_of_deg_le _ hge, toPoly_trim, toPoly_trim, ← toPoly_trim b, hloop, toPoly_trim a,
      toPoly_replicate_zero, zero_mul, zero_add]

theorem degree_toPoly_polyDivMod_lt {a b : List Nat} (ha : AllElems c.params a) (hb : AllElems c.params b)
    (hz : isZero b = false) : (toPoly c (polyDivMod c.params a b).2).degree < (toPoly c b).degree := by
  rw [degree_eq_natDegree (toPoly_ne_zero hb hz), natDegree_toPoly hb, degree_lt_iff_coeff_zero]
  intro j hj
  rw [coeff_toPoly]
  rcases Nat.lt_or_ge (deg a) (deg b) with hlt | hge
  · rw [polyDivMod_of_deg_lt _ hlt, coeff_trim, coeff_eq_zero_of_deg_lt (hlt.trans_le hj), toGF_zero]
  · have htop : coeff (trim b) ((trim b).length - 1) ≠ 0 := by
      rw [coeff_trim]
      exact coeff_deg_ne_zero hz
    have hloop := coeff_divLoop_snd_eq_zero (trim_lt c hb) (trim_length_pos b) htop (deg a - deg b + 1)
      (List.replicate (deg a - deg b + 1) 0) (trim a) (trim_lt c ha) (by rw [length_trim, length_trim]; omega)
      (fun i hi => coeff_of_length_le (by rw [length_trim] at hi ⊢; omega)) j hj
    rw [polyDivMod_of_deg_le _ hge, coeff_trim, hloop, toGF_zero]

/-- The polynomial unit's division is the division (R136). -/
theorem isDivision_polyDivMod {a b : List Nat} (ha : AllElems c.params a) (hb : AllElems c.params b)
    (hz : isZero b = false) :
    IsDivision c.params a b (polyDivMod c.params a b).1 (polyDivMod c.params a b).2 := by
  obtain ⟨hqc, hrc⟩ := polyDivMod_canonical c.params a b
  obtain ⟨hq, hr⟩ := polyDivMod_lt c b ha
  exact (isDivision_iff ha hb hz).2 ⟨hqc, hrc, hq, hr, toPoly_polyDivMod a hb,
    degree_toPoly_polyDivMod_lt ha hb hz⟩

end Sys2Proof.Machine
end

section
/-! # The vector and polynomial commands

What each command of 41_poly_vector.md writes, and the fault its check raises (R137 to R146). -/

namespace Sys2Proof.Machine

variable {c : Config}

/-! ## Polynomials -/

/-- Settles O37: the sum is trimmed, and `Trim` changes no coefficient. -/
theorem paddAddsCoefficients : Obligations.PaddAddsCoefficients := fun _ va vb s =>
  ⟨polyAdd s.v[va] s.v[vb], canonical_trim _, coeff_polyAdd _ _, (complete_eq_next _ _ _).2 rfl⟩

/-- Settles O38: the product is trimmed, and the command compares its length with PMAX. -/
theorem pmulMultipliesOrFaults : Obligations.PmulMultipliesOrFaults := fun _ va vb s =>
  ⟨polyMul s.params s.v[va] s.v[vb], canonical_trim _, coeff_polyMul _ _ _,
    fun hle => (if_neg (Nat.not_lt.2 hle)).trans ((complete_eq_next _ _ _).2 rfl),
    fun hlt => (if_pos hlt).trans ((raiseFault_eq_next _ _ _ _).2 rfl)⟩

/-- Over a field the degree of a product is the sum of the degrees. -/
theorem deg_polyMul {a b : List Nat} (ha : AllElems c.params a) (hb : AllElems c.params b) (hza : isZero a = false)
    (hzb : isZero b = false) : deg (polyMul c.params a b) = deg a + deg b := by
  have := c.fact_irreducible
  rw [← natDegree_toPoly (polyMul_lt c b ha), toPoly_polyMul a hb,
    Polynomial.natDegree_mul (toPoly_ne_zero ha hza) (toPoly_ne_zero hb hzb), natDegree_toPoly ha, natDegree_toPoly hb]

theorem polyMul_eq_zero (p : Params) {a b : List Nat} (h : isZero a = true ∨ isZero b = true) :
    polyMul p a b = [0] := by
  rw [polyMul]
  refine trim_eq_zero ((isZero_iff _).2 (List.forall_mem_map.2 fun j _ =>
    gfsum_eq_zero (List.forall_mem_map.2 fun i _ => ?_)))
  rcases h with ha | hb
  · rw [(isZero_iff_coeff a).1 ha, gfmul_zero_left]
  · rw [(isZero_iff_coeff b).1 hb, gfmul_zero_right]

/-- Settles O39: the trimmed sums of products, whose degree is that of a product over a field. -/
theorem productDegreesAdd : Obligations.ProductDegreesAdd := fun _ _ _ _ _ ha hb =>
  ⟨canonical_trim _, coeff_polyMul _ _ _, fun ⟨hza, hzb⟩ => deg_polyMul ha hb hza hzb, polyMul_eq_zero _⟩

/-- Settles O43: Horner's rule computes the sum of the terms. -/
theorem pevalEvaluates : Obligations.PevalEvaluates := by
  intro ed va ex s hs
  have heval : polyEval s.params s.v[va] s.e[ex] = evalSum s.params s.v[va] s.e[ex] :=
    polyEval_eq_evalSum (c := s.cfg) (hs.allElems_readV va) (hs.readE_lt ex)
  rw [← heval]
  exact (complete_eq_next _ _ _).2 rfl

/-- Settles O42: `Trim` gives a canonical sequence and changes no coefficient. -/
theorem ptrimTrims : Obligations.PtrimTrims := fun _ vs s =>
  ⟨trim s.v[vs], canonical_trim _, coeff_trim _, (complete_eq_next _ _ _).2 rfl⟩

/-! ## The division -/

/-- Settles O40: the command writes the polynomial unit's division, and there is one division only. -/
theorem pdivmodIsTheDivision : Obligations.PdivmodIsTheDivision := by
  intro vq va vb vr s hs halias hz
  have ha : AllElems s.cfg.params s.v[va] := hs.allElems_readV va
  have hb : AllElems s.cfg.params s.v[vb] := hs.allElems_readV vb
  have hdiv := isDivision_polyDivMod ha hb hz
  refine ⟨_, _, hdiv, fun quo' rem' h' => hdiv.unique ha hb hz h', ?_⟩
  exact (if_neg halias).trans ((if_neg (Bool.eq_false_iff.1 hz)).trans ((complete_eq_next _ _ _).2 rfl))

/-- Settles O41: the command's two checks, in their order (R213). -/
theorem pdivmodFaultsInOrder : Obligations.PdivmodFaultsInOrder := fun _ _ _ _ _ =>
  ⟨fun halias => (if_pos halias).trans ((raiseFault_eq_next _ _ _ _).2 rfl), fun ⟨halias, hzero⟩ =>
    (if_neg halias).trans ((if_pos ((isZero_iff _).2 hzero)).trans ((raiseFault_eq_next _ _ _ _).2 rfl))⟩

/-! ## Vectors -/

/-- Settles O34: by the length's place in 1 to PMAX or outside. -/
theorem vnewMakesZerosOrFaults : Obligations.VnewMakesZerosOrFaults := fun _ _ _ =>
  ⟨fun ⟨hpos, hle⟩ => (if_neg (not_or.2 ⟨Nat.not_lt.2 hpos, Nat.not_lt.2 hle⟩)).trans ((complete_eq_next _ _ _).2 rfl),
    fun h => (if_pos (h.imp_left Nat.lt_one_iff.2)).trans ((raiseFault_eq_next _ _ _ _).2 rfl)⟩

/-- Settles O35: by the index's place below the length or not. -/
theorem vsetWritesOneCoefficientOrFaults : Obligations.VsetWritesOneCoefficientOrFaults := fun _ _ _ _ =>
  ⟨fun hlt => (if_neg (Nat.not_le.2 hlt)).trans ((complete_eq_next _ _ _).2 rfl),
    fun hle => (if_pos hle).trans ((raiseFault_eq_next _ _ _ _).2 rfl)⟩

/-- Settles O36: by the index's place below the length or not. -/
theorem vgetReadsOneCoefficientOrFaults : Obligations.VgetReadsOneCoefficientOrFaults := fun _ _ _ _ =>
  ⟨fun hlt => by
      rw [← coeff_eq_getElem hlt]
      exact (if_neg (Nat.not_le.2 hlt)).trans ((complete_eq_next _ _ _).2 rfl),
    fun hle => (if_pos hle).trans ((raiseFault_eq_next _ _ _ _).2 rfl)⟩

end Sys2Proof.Machine
end

section
/-! # The decoder and the generator

The field unit reads M and IRRED alone (R8), and what the decoder calls reads besides them N, K and ALPHA (R160): with
other generator coefficients each function is the same. -/

namespace Sys2Proof

/-- The configuration's parameters with other generator coefficients. -/
def Params.withGen (p : Params) (gen : List Nat) : Params := { p with gen := gen }

namespace Machine

variable (p : Params) (gen : List Nat)

/-! ## The field unit -/

theorem gfmulLoop_withGen (n : Nat) : ∀ a b, gfmulLoop (p.withGen gen) n a b = gfmulLoop p n a b := by
  induction n with
  | zero => exact fun _ _ => rfl
  | succ n ih => exact fun a b => congrArg (gfadd (if b.testBit 0 then a else 0)) (ih (gfxtimes p a) (b >>> 1))

@[simp] theorem gfmul_withGen : gfmul (p.withGen gen) = gfmul p :=
  funext fun a => funext fun b => gfmulLoop_withGen p gen p.m a b

theorem gfpowLoop_withGen (d : Nat) : ∀ a n, gfpowLoop (p.withGen gen) d a n = gfpowLoop p d a n := by
  induction d with
  | zero => exact fun _ _ => rfl
  | succ d ih => exact fun a n => by rw [gfpowLoop, gfpowLoop, gfmul_withGen, ih]

@[simp] theorem gfpow_withGen : gfpow (p.withGen gen) = gfpow p :=
  funext fun a => funext fun n => gfpowLoop_withGen p gen (n.log2 + 1) a n

@[simp] theorem gfinv_withGen : gfinv (p.withGen gen) = gfinv p :=
  funext fun b => congrFun₂ (gfpow_withGen p gen) b (p.q - 2)

@[simp] theorem gfdiv_withGen : gfdiv (p.withGen gen) = gfdiv p := by
  funext a b
  rw [gfdiv, gfdiv, gfmul_withGen, gfinv_withGen]

/-! ## Polynomials -/

@[simp] theorem polyEval_withGen : polyEval (p.withGen gen) = polyEval p := by
  funext a x
  rw [polyEval, polyEval, gfmul_withGen]

@[simp] theorem divLoop_withGen (b : List Nat) (n : Nat) : divLoop (p.withGen gen) b n = divLoop p b n := by
  induction n with
  | zero => rfl
  | succ n ih =>
    funext quo rem
    rw [divLoop, divLoop, ih, gfdiv_withGen, subtractShifted, subtractShifted, gfmul_withGen]

@[simp] theorem polyDivMod_withGen : polyDivMod (p.withGen gen) = polyDivMod p := by
  funext a b
  rw [polyDivMod, polyDivMod, divLoop_withGen]

/-! ## The linear solver and the trials -/

@[simp] theorem gaussJordan_withGen (cols : List Nat) : gaussJordan (p.withGen gen) cols = gaussJordan p cols := by
  induction cols with
  | nil => rfl
  | cons col cols ih =>
    funext w
    simp only [gaussJordan, ih, eliminateColumn, normaliseRow, gfmul_withGen, gfinv_withGen]

@[simp] theorem solveUnique_withGen : solveUnique (p.withGen gen) = solveUnique p := by
  funext a rhs
  rw [solveUnique, solveUnique, gaussJordan_withGen]

@[simp] theorem evalPoint_withGen : evalPoint (p.withGen gen) = evalPoint p :=
  funext fun i => congrFun₂ (gfpow_withGen p gen) p.alpha i

@[simp] theorem bwMatrix_withGen : bwMatrix (p.withGen gen) = bwMatrix p := by
  have hrow : bwRow (p.withGen gen) = bwRow p := by
    funext cw e i
    rw [bwRow, bwRow, gfmul_withGen, gfpow_withGen, evalPoint_withGen]
    rfl
  funext cw e
  rw [bwMatrix, bwMatrix, hrow]
  rfl

@[simp] theorem bwRhs_withGen : bwRhs (p.withGen gen) = bwRhs p := by
  funext cw e
  rw [bwRhs, bwRhs, gfmul_withGen, gfpow_withGen, evalPoint_withGen]
  rfl

@[simp] theorem bwTrials_withGen (cw : List Nat) (e : Nat) : bwTrials (p.withGen gen) cw e = bwTrials p cw e := by
  induction e with
  | zero => rfl
  | succ e ih => rw [bwTrials, bwTrials, ih, solveUnique_withGen, bwMatrix_withGen, bwRhs_withGen]

/-! ## The outcome -/

@[simp] theorem bwCorrect_withGen : bwCorrect (p.withGen gen) = bwCorrect p := by
  have hroot : isErrorPosition (p.withGen gen) = isErrorPosition p := by
    funext locator i
    rw [isErrorPosition, isErrorPosition, polyEval_withGen, evalPoint_withGen]
  funext cw locator f
  rw [bwCorrect, bwCorrect, hroot, polyEval_withGen, evalPoint_withGen]
  rfl

@[simp] theorem bwFinish_withGen : bwFinish (p.withGen gen) = bwFinish p := by
  funext cw force e u
  rw [bwFinish, bwFinish, polyDivMod_withGen, bwCorrect_withGen]
  rfl

theorem bwDecode_withGen (cw : List Nat) (force : Bool) :
    bwDecode (p.withGen gen) cw force = bwDecode p cw force := by
  rw [bwDecode, bwDecode, bwTrials_withGen, bwFinish_withGen]
  rfl

/-- Settles O51: the trials and what follows them are the same with any generator. -/
theorem decoderNeverReadsGenerator : Obligations.DecoderNeverReadsGenerator := bwDecode_withGen

end Machine

end Sys2Proof
end

section
/-! # The command and its trials

What `BWDEC` writes and answers, and which trial it accepts (R163 to R168). -/

namespace Sys2Proof.Machine

/-! ## The trial loop -/

/-- The loop from the trial m down ends at the first trial that is not singular, or at 0 (R163). -/
theorem bwTrials_accepts (p : Params) (cw : List Nat) (m : Nat) {e : Nat} {u : List Nat}
    (h : bwTrials p cw m = (e, u)) :
    e ≤ m ∧ (∀ e', e < e' → e' ≤ m → solveUnique p (bwMatrix p cw e') (bwRhs p cw e') = none) ∧
      (0 < e → solveUnique p (bwMatrix p cw e) (bwRhs p cw e) = some u) := by
  induction m with
  | zero =>
    obtain ⟨rfl, -⟩ := Prod.mk.inj h
    exact ⟨le_rfl, fun e' hlt hle => by omega, fun hpos => absurd hpos (lt_irrefl 0)⟩
  | succ m ih =>
    rw [bwTrials] at h
    split at h
    · next hsome =>
      obtain ⟨rfl, rfl⟩ := Prod.mk.inj h
      exact ⟨le_rfl, fun e' hlt hle => by omega, fun _ => hsome⟩
    · next hnone =>
      obtain ⟨hle, habove, hsolved⟩ := ih h
      refine ⟨hle.trans m.le_succ, fun e' hlt hle' => ?_, hsolved⟩
      rcases Nat.le_or_eq_of_le_succ hle' with hm | rfl
      · exact habove e' hlt hm
      · exact hnone

/-- Settles O47: the trial loop from EMAX down. -/
theorem trialsRunFromEmaxDown : Obligations.TrialsRunFromEmaxDown := fun p cw _ _ h =>
  bwTrials_accepts p cw p.emax h

/-! ## The outcome of a trial -/

theorem bwFinish_zero (p : Params) (cw : List Nat) (force : Bool) (u : List Nat) :
    bwFinish p cw force 0 u = { msg := cw.take p.k, errs := 0, success := true } := rfl

/-- Above e = 0 a remainder that is not zero ends the decode, unless forced (R166). -/
theorem bwFinish_uncorrectable (p : Params) (cw : List Nat) {e : Nat} (he : 0 < e) {u : List Nat}
    (hr : isZero (polyDivMod p (trim (u.drop e)) (u.take e ++ [1])).2 = false) :
    bwFinish p cw false e u = { msg := cw.take p.k, errs := -1, success := false } := by
  rw [bwFinish, if_neg he.ne']
  simp [hr]

/-- Above e = 0 a zero remainder, or force, leads to the correction (R167). -/
theorem bwFinish_correct (p : Params) (cw : List Nat) {force : Bool} {e : Nat} (he : 0 < e) {u : List Nat}
    (h : isZero (polyDivMod p (trim (u.drop e)) (u.take e ++ [1])).2 = true ∨ force = true) :
    bwFinish p cw force e u =
      bwCorrect p cw (u.take e ++ [1]) (polyDivMod p (trim (u.drop e)) (u.take e ++ [1])).1 := by
  rw [bwFinish, if_neg he.ne']
  rcases h with hr | hf
  · simp [hr]
  · simp [hf]

theorem bwDecode_of_trial {p : Params} {cw : List Nat} (force : Bool) {e : Nat} {u : List Nat}
    (h : bwTrials p cw p.emax = (e, u)) : bwDecode p cw force = bwFinish p cw force e u := by
  rw [bwDecode, h]

/-! ## The command -/

/-- On N symbols the command writes the decoder's result (R168). -/
theorem exec_bwdec {s : State} {vs : VReg} (hlen : s.v[vs].length = s.params.n) (vd : VReg) (force : Bool) :
    exec (.bwdec vd vs force) s = .next (s.afterBwdec vd (bwDecode s.params s.v[vs] force).msg
      (BitVec.ofInt 32 (bwDecode s.params s.v[vs] force).errs) (bwDecode s.params s.v[vs] force).success) :=
  (if_neg (not_not.2 hlen)).trans ((complete_eq_next _ _ _).2 rfl)

variable {c : Config} {cw u : List Nat}

/-- The vector of the accepted trial is a sequence of elements. -/
theorem allElems_of_trial (hcw : AllElems c.params cw) {m e : Nat} (h : bwTrials c.params cw m = (e, u)) :
    AllElems c.params u := by
  simpa only [h] using allElems_bwTrials hcw m

/-- The locator is monic, so it is not the zero polynomial (R164, R166). -/
theorem isZero_append_one (a : List Nat) : isZero (a ++ [1]) = false := by
  simp [isZero]

theorem allElems_take_append_one (hu : AllElems c.params u) (e : Nat) : AllElems c.params (u.take e ++ [1]) :=
  List.forall_mem_append.2 ⟨fun x hx => hu x (List.mem_of_mem_take hx), List.forall_mem_singleton.2 c.one_lt_q⟩

theorem allElems_trim_drop (hu : AllElems c.params u) (e : Nat) : AllElems c.params (trim (u.drop e)) :=
  trim_lt c fun x hx => hu x (List.mem_of_mem_drop hx)

/-- The locator's zeros, by Horner's rule or as R135's sum. -/
theorem isErrorPosition_eq_vanishesAt {locator : List Nat} (h : AllElems c.params locator) :
    isErrorPosition c.params locator = vanishesAt c.params locator := by
  funext i
  rw [isErrorPosition, vanishesAt, polyEval_eq_evalSum h (evalPoint_lt c i)]

/-- The correction with the values as R135's sums (R167). -/
theorem bwCorrect_eq {locator f : List Nat} (hl : AllElems c.params locator) (hf : AllElems c.params f) :
    bwCorrect c.params cw locator f =
      { msg := (List.range c.params.k).map fun i =>
          if vanishesAt c.params locator i then evalSum c.params f (evalPoint c.params i) else coeff cw i
        errs := ((List.range c.params.k).countP (vanishesAt c.params locator) : Nat)
        success := true } := by
  simp only [bwCorrect, isErrorPosition_eq_vanishesAt hl, polyEval_eq_evalSum hf (evalPoint_lt c _)]

/-- Settles O45: by the source's length, and by the accepted trial and the remainder of its one division. -/
theorem bwdecWritesResultOrFaults : Obligations.BwdecWritesResultOrFaults := by
  intro vd vs force s
  refine ⟨fun hlen => exec_bwdec hlen vd force, fun hlen => (if_pos hlen).trans ((raiseFault_eq_next _ _ _ _).2 rfl),
    fun hs hlen e u htrial => ?_⟩
  have hcw : AllElems s.cfg.params s.v[vs] := hs.allElems_readV vs
  have hu : AllElems s.cfg.params u := allElems_of_trial hcw htrial
  have hnum := allElems_trim_drop hu e
  have hloc := allElems_take_append_one hu e
  have hdiv := isDivision_polyDivMod hnum hloc (isZero_append_one _)
  have hf := (polyDivMod_lt s.cfg (u.take e ++ [1]) hnum).1
  rw [exec_bwdec hlen, bwDecode_of_trial force htrial]
  refine ⟨fun he => ?_, fun he => ⟨_, _, hdiv, fun f' r' h' => hdiv.unique hnum hloc (isZero_append_one _) h',
    fun ⟨hr, hforce⟩ => ?_, fun h => ?_⟩⟩
  · rw [he, bwFinish_zero]
    rfl
  · rw [hforce, bwFinish_uncorrectable s.params _ he hr]
    rfl
  · rw [bwFinish_correct s.params _ he h, show s.params = s.cfg.params from rfl, bwCorrect_eq hloc hf]
    rfl

end Sys2Proof.Machine
end

section
/-! # The linear solver is exact

The row operations of R161 keep the vectors that every row of the system, right-hand side included, sends to zero. A
column without a pivot shows such a vector that is zero at the right-hand side's place; after the last column the system
says each unknown's value. -/

namespace Sys2Proof.Machine

variable {c : Config} {n : Nat} {w : List (List Nat)}

/-! ## Rows and entries -/

theorem GF.add_self (x : c.GF) : x + x = 0 := by
  obtain ⟨a, -, rfl⟩ := exists_toGF_eq x
  rw [← toGF_gfadd, gfadd_self, toGF_zero]

/-- In characteristic 2 a sum is zero for equal elements only. -/
theorem GF.add_eq_zero (x y : c.GF) : x + y = 0 ↔ x = y := by
  rw [← GF.add_self y, add_left_inj]

theorem GF.add_eq_iff (x y z : c.GF) : x + y = z ↔ x + z = y := by
  rw [← GF.add_eq_zero, ← GF.add_eq_zero (x + z), add_right_comm]

theorem rowAt_eq_getElem {r : Nat} (h : r < w.length) : rowAt w r = w[r] := List.getD_eq_getElem w [] h

theorem rowAt_of_length_le {r : Nat} (h : w.length ≤ r) : rowAt w r = [] := List.getD_eq_default w [] h

theorem rowAt_set (w : List (List Nat)) (i : Nat) (row : List Nat) (r : Nat) :
    rowAt (w.set i row) r = if r = i ∧ i < w.length then row else rowAt w r := by
  rw [rowAt, rowAt, List.getD_eq_getElem?_getD, List.getD_eq_getElem?_getD, List.getElem?_set]
  grind

theorem rowAt_swapRows {i j : Nat} (hi : i < w.length) (hj : j < w.length) (r : Nat) :
    rowAt (swapRows w i j) r = rowAt w (Equiv.swap i j r) := by
  rw [swapRows, rowAt_set, rowAt_set, List.length_set, Equiv.swap_apply_def]
  grind

theorem coeff_map {f : Nat → Nat} (hf : f 0 = 0) (a : List Nat) (k : Nat) : coeff (a.map f) k = f (coeff a k) := by
  simpa [coeff, List.getD_eq_getElem?_getD, List.getElem?_map, hf] using Option.getD_map f 0 a[k]?

/-- A column of a matrix. -/
theorem coeff_map_coeff (w : List (List Nat)) (k r : Nat) :
    coeff (w.map fun row => coeff row k) r = coeff (rowAt w r) k := by
  simpa [coeff, rowAt, List.getD_eq_getElem?_getD, List.getElem?_map] using
    Option.getD_map (fun row => coeff row k) [] w[r]?

theorem coeff_append_of_lt {a : List Nat} {k : Nat} (h : k < a.length) (b : List Nat) : coeff (a ++ b) k = coeff a k :=
  List.getD_append a b 0 k h

theorem coeff_append_length {a : List Nat} {k : Nat} (h : a.length = k) (x : Nat) : coeff (a ++ [x]) k = x := by
  rw [coeff, List.getD_append_right _ _ _ _ h.le, h, Nat.sub_self]
  rfl

/-- The field element at row r and column k; zero outside. -/
noncomputable def entry (c : Config) (w : List (List Nat)) (r k : Nat) : c.GF := toGF c (coeff (rowAt w r) k)

theorem entry_of_length_le {r : Nat} (h : w.length ≤ r) (k : Nat) : entry c w r k = 0 := by
  rw [entry, rowAt_of_length_le h, coeff_nil, toGF_zero]

theorem lt_length_of_entry_ne_zero {r k : Nat} (h : entry c w r k ≠ 0) : r < w.length :=
  Nat.lt_of_not_le fun hle => h (entry_of_length_le hle k)

/-- A system of n equations over the field, each with its n coefficients and its right-hand side. -/
structure IsSystem (c : Config) (n : Nat) (w : List (List Nat)) : Prop where
  rows : w.length = n
  cols : ∀ row ∈ w, row.length = n + 1
  elems : AllRowsElems c.params w

theorem IsSystem.rowAt_length (h : IsSystem c n w) {r : Nat} (hr : r < n) : (rowAt w r).length = n + 1 := by
  rw [rowAt_eq_getElem (h.rows ▸ hr)]
  exact h.cols _ (List.getElem_mem _)

theorem IsSystem.coeff_rowAt_lt (h : IsSystem c n w) (r k : Nat) : coeff (rowAt w r) k < c.params.q :=
  coeff_lt c (allElems_rowAt h.elems r) k

/-! ## The row operations, entry by entry -/

theorem IsSystem.set (h : IsSystem c n w) {row : List Nat} (hlen : row.length = n + 1) (helem : AllElems c.params row)
    (r : Nat) : IsSystem c n (w.set r row) :=
  ⟨by rw [List.length_set, h.rows], fun row' hmem => (List.mem_or_eq_of_mem_set hmem).elim (h.cols row') fun heq =>
    heq ▸ hlen, h.elems.set helem r⟩

theorem IsSystem.swapRows (h : IsSystem c n w) {i j : Nat} (hi : i < n) (hj : j < n) :
    IsSystem c n (swapRows w i j) :=
  (h.set (h.rowAt_length hj) (allElems_rowAt h.elems j) i).set (h.rowAt_length hi) (allElems_rowAt h.elems i) j

theorem IsSystem.normaliseRow (h : IsSystem c n w) {col : Nat} (hcol : col < n) :
    IsSystem c n (normaliseRow c.params w col) := by
  refine ⟨by rw [Machine.normaliseRow, List.length_set, h.rows], fun row hmem => ?_,
    allRowsElems_normaliseRow h.elems col⟩
  rcases List.mem_or_eq_of_mem_set hmem with hold | rfl
  · exact h.cols row hold
  · rw [List.length_map, h.rowAt_length hcol]

theorem IsSystem.eliminateColumn (h : IsSystem c n w) {col : Nat} (hcol : col < n) :
    IsSystem c n (eliminateColumn c.params w col) := by
  refine ⟨by rw [Machine.eliminateColumn, List.length_mapIdx, h.rows], fun row hmem => ?_,
    allRowsElems_eliminateColumn h.elems col⟩
  obtain ⟨r, hr, rfl⟩ := List.mem_mapIdx.1 hmem
  have hlen : w[r].length = n + 1 := h.cols _ (List.getElem_mem hr)
  dsimp only
  split
  · rw [List.length_zipWith, hlen, h.rowAt_length hcol, min_self]
  · exact hlen

theorem entry_swapRows (h : IsSystem c n w) {i j : Nat} (hi : i < n) (hj : j < n) (r k : Nat) :
    entry c (swapRows w i j) r k = entry c w (Equiv.swap i j r) k := by
  rw [entry, rowAt_swapRows (h.rows ▸ hi) (h.rows ▸ hj), entry]

theorem entry_normaliseRow (h : IsSystem c n w) {col : Nat} (hcol : col < n) (r k : Nat)
    [Fact (Irreducible (gf2Poly c.params.irred))] :
    entry c (normaliseRow c.params w col) r k =
      if r = col then (entry c w col col)⁻¹ * entry c w col k else entry c w r k := by
  rw [entry, normaliseRow, rowAt_set]
  by_cases hr : r = col
  · rw [if_pos ⟨hr, h.rows ▸ hcol⟩, if_pos hr, coeff_map (gfmul_zero_right _ _), toGF_gfmul _ (h.coeff_rowAt_lt _ _),
      toGF_gfinv (h.coeff_rowAt_lt _ _), entry, entry]
  · rw [if_neg fun hand => hr hand.1, if_neg hr, entry]

/-- The entries of the sum of a row and a multiple of another of its length. -/
theorem coeff_addMultiple (p : Params) (f : Nat) {row pivot : List Nat} (h : row.length = pivot.length) (k : Nat) :
    coeff (List.zipWith (fun x y => gfadd x (gfmul p f y)) row pivot) k =
      gfadd (coeff row k) (gfmul p f (coeff pivot k)) := by
  rcases Nat.lt_or_ge k row.length with hlt | hge
  · rw [coeff_eq_getElem (by simpa using ⟨hlt, h ▸ hlt⟩), coeff_eq_getElem hlt, coeff_eq_getElem (h ▸ hlt),
      List.getElem_zipWith]
  · rw [coeff_of_length_le (by simp [hge]), coeff_of_length_le hge, coeff_of_length_le (h ▸ hge), gfmul_zero_right,
      gfadd_zero]

theorem entry_eliminateColumn (h : IsSystem c n w) {col : Nat} (hcol : col < n) (r k : Nat) :
    entry c (eliminateColumn c.params w col) r k =
      if r = col then entry c w col k else entry c w r k + entry c w r col * entry c w col k := by
  have hlen := (h.eliminateColumn hcol).rows
  rcases Nat.lt_or_ge r n with hr | hr
  · have hrow : rowAt w r = w[r]'(h.rows ▸ hr) := rowAt_eq_getElem _
    rw [entry, rowAt_eq_getElem (hlen ▸ hr)]
    simp only [eliminateColumn, List.getElem_mapIdx, ← hrow]
    by_cases hrc : r = col
    · simp [hrc, entry]
    · rw [if_neg hrc]
      split
      · rw [coeff_addMultiple _ _ ((h.rowAt_length hr).trans (h.rowAt_length hcol).symm), toGF_gfadd,
          toGF_gfmul _ (h.coeff_rowAt_lt _ _), entry, entry, entry]
      · next hzero =>
        have hf : coeff (rowAt w r) col = 0 := by_contra fun hne => hzero ⟨hrc, hne⟩
        simp [entry, hf]
  · simp [entry_of_length_le (hlen.trans_le hr), entry_of_length_le (h.rows.trans_le hr), show r ≠ col by omega]

/-! ## Vectors that every row sends to zero -/

/-- Row r applied to a vector, the right-hand side's place included. -/
noncomputable def rowSum (c : Config) (n : Nat) (w : List (List Nat)) (x : Nat → c.GF) (r : Nat) : c.GF :=
  ∑ k ∈ Finset.range (n + 1), entry c w r k * x k

/-- Every row sends x to zero. With 1 at the right-hand side's place x is a solution of the system, with 0 there one of
the homogeneous system. -/
def InKernel (c : Config) (n : Nat) (w : List (List Nat)) (x : Nat → c.GF) : Prop := ∀ r, rowSum c n w x r = 0

theorem inKernel_swapRows (h : IsSystem c n w) {i j : Nat} (hi : i < n) (hj : j < n) (x : Nat → c.GF) :
    InKernel c n (swapRows w i j) x ↔ InKernel c n w x := by
  have hsum : ∀ r, rowSum c n (swapRows w i j) x r = rowSum c n w x (Equiv.swap i j r) := fun r =>
    Finset.sum_congr rfl fun k _ => by rw [entry_swapRows h hi hj]
  simp only [InKernel, hsum]
  exact (Equiv.swap i j).forall_congr_right (q := fun r => rowSum c n w x r = 0)

theorem inKernel_normaliseRow (h : IsSystem c n w) {col : Nat} (hcol : col < n) (hne : entry c w col col ≠ 0)
    (x : Nat → c.GF) : InKernel c n (normaliseRow c.params w col) x ↔ InKernel c n w x := by
  have := c.fact_irreducible
  refine forall_congr' fun r => ?_
  by_cases hr : r = col
  · have hsum : rowSum c n (normaliseRow c.params w col) x r = (entry c w col col)⁻¹ * rowSum c n w x r := by
      rw [rowSum, rowSum, Finset.mul_sum]
      exact Finset.sum_congr rfl fun k _ => by rw [entry_normaliseRow h hcol, if_pos hr, hr, mul_assoc]
    rw [hsum, mul_eq_zero, or_iff_right (inv_ne_zero hne)]
  · have hsum : rowSum c n (normaliseRow c.params w col) x r = rowSum c n w x r :=
      Finset.sum_congr rfl fun k _ => by rw [entry_normaliseRow h hcol, if_neg hr]
    rw [hsum]

theorem inKernel_eliminateColumn (h : IsSystem c n w) {col : Nat} (hcol : col < n) (x : Nat → c.GF) :
    InKernel c n (eliminateColumn c.params w col) x ↔ InKernel c n w x := by
  have hsum : ∀ r, rowSum c n (eliminateColumn c.params w col) x r =
      if r = col then rowSum c n w x col else rowSum c n w x r + entry c w r col * rowSum c n w x col := by
    intro r
    split
    · next hr => exact Finset.sum_congr rfl fun k _ => by rw [entry_eliminateColumn h hcol, if_pos hr]
    · next hr =>
      rw [rowSum, rowSum, rowSum, Finset.mul_sum, ← Finset.sum_add_distrib]
      exact Finset.sum_congr rfl fun k _ => by rw [entry_eliminateColumn h hcol, if_neg hr, add_mul, mul_assoc]
  simp only [InKernel, hsum]
  refine ⟨fun hx r => ?_, fun hx r => by simp [hx]⟩
  have hpivot : rowSum c n w x col = 0 := by simpa using hx col
  by_cases hr : r = col
  · rw [hr, hpivot]
  · simpa [hr, hpivot] using hx r

/-! ## One column -/

/-- The turn of R161's loop for a column whose pivot stands in row piv. -/
def clearColumn (p : Params) (w : List (List Nat)) (col piv : Nat) : List (List Nat) :=
  eliminateColumn p (normaliseRow p (swapRows w col piv) col) col

theorem gaussJordan_cons (p : Params) (col : Nat) (cols : List Nat) (w : List (List Nat)) :
    gaussJordan p (col :: cols) w = (findPivot w col).bind fun piv => gaussJordan p cols (clearColumn p w col piv) := by
  rw [gaussJordan]
  cases findPivot w col <;> rfl

theorem findPivot_eq_none (c : Config) {w : List (List Nat)} {col : Nat} (h : findPivot w col = none) {r : Nat}
    (hr : col ≤ r) : entry c w r col = 0 := by
  rcases Nat.lt_or_ge r w.length with hlt | hge
  · have hzero := List.find?_eq_none.1 h r (List.mem_range.2 hlt)
    have : coeff (rowAt w r) col = 0 := by simpa [hr] using hzero
    rw [entry, this, toGF_zero]
  · exact entry_of_length_le hge col

theorem findPivot_eq_some (h : IsSystem c n w) {col piv : Nat} (hpiv : findPivot w col = some piv) :
    col ≤ piv ∧ piv < n ∧ entry c w piv col ≠ 0 := by
  have hmem := List.mem_range.1 (List.mem_of_find?_eq_some hpiv)
  have hprop := List.find?_some hpiv
  simp only [Bool.and_eq_true, decide_eq_true_eq, bne_iff_ne] at hprop
  exact ⟨hprop.1, h.rows ▸ hmem, mt (toGF_eq_zero_iff (h.coeff_rowAt_lt _ _)).1 hprop.2⟩

/-- The columns below col are those of the identity matrix. -/
def Reduced (c : Config) (w : List (List Nat)) (col : Nat) : Prop :=
  ∀ r, ∀ k < col, entry c w r k = if r = k then 1 else 0

section ClearColumn

variable {col piv : Nat}

theorem IsSystem.clearColumn (h : IsSystem c n w) (hcol : col < n) (hpiv : piv < n) :
    IsSystem c n (clearColumn c.params w col piv) :=
  ((h.swapRows hcol hpiv).normaliseRow hcol).eliminateColumn hcol

theorem inKernel_clearColumn (h : IsSystem c n w) (hcol : col < n) (hpiv : piv < n) (hne : entry c w piv col ≠ 0)
    (x : Nat → c.GF) : InKernel c n (clearColumn c.params w col piv) x ↔ InKernel c n w x := by
  have hswap := h.swapRows hcol hpiv
  have hpivot : entry c (swapRows w col piv) col col ≠ 0 := by
    rwa [entry_swapRows h hcol hpiv, Equiv.swap_apply_left]
  rw [clearColumn, inKernel_eliminateColumn (hswap.normaliseRow hcol) hcol, inKernel_normaliseRow hswap hcol hpivot,
    inKernel_swapRows h hcol hpiv]

/-- Rows are swapped at or below col, where the columns before hold zeros, and then column col is cleared. -/
theorem Reduced.clearColumn (hred : Reduced c w col) (h : IsSystem c n w) (hcol : col < n) (hle : col ≤ piv)
    (hpiv : piv < n) (hne : entry c w piv col ≠ 0) : Reduced c (clearColumn c.params w col piv) (col + 1) := by
  have := c.fact_irreducible
  have hswap := h.swapRows hcol hpiv
  have hbelow : ∀ r, ∀ k < col, entry c (swapRows w col piv) r k = if r = k then 1 else 0 := by
    intro r k hk
    rw [entry_swapRows h hcol hpiv, hred _ k hk]
    refine if_congr ?_ rfl rfl
    rw [Equiv.swap_apply_eq_iff, Equiv.swap_apply_of_ne_of_ne hk.ne (hk.trans_le hle).ne]
  have hpivot : entry c (swapRows w col piv) col col ≠ 0 := by
    rwa [entry_swapRows h hcol hpiv, Equiv.swap_apply_left]
  intro r k hk
  rw [Machine.clearColumn, entry_eliminateColumn (hswap.normaliseRow hcol) hcol]
  simp only [entry_normaliseRow hswap hcol, if_true]
  rcases Nat.lt_succ_iff_lt_or_eq.1 hk with hlt | rfl
  · have hzero : entry c (swapRows w col piv) col k = 0 := by rw [hbelow col k hlt, if_neg hlt.ne']
    by_cases hr : r = col
    · simp [hr, hzero, hlt.ne']
    · simp [hr, hzero, hbelow r k hlt]
  · by_cases hr : r = k
    · simp [hr, hpivot]
    · simp [hr, hpivot, GF.add_self]

end ClearColumn

/-! ## All columns -/

/-- Column col as a combination of the columns before it: 1 at its own place, 0 after it. -/
noncomputable def columnRelation (c : Config) (w : List (List Nat)) (col k : Nat) : c.GF :=
  if k < col then entry c w k col else if k = col then 1 else 0

/-- A row's terms with that vector are zero but at the row's own column and at col, where they are equal. -/
theorem entry_mul_columnRelation {col : Nat} (hred : Reduced c w col) (hzero : ∀ r, col ≤ r → entry c w r col = 0)
    (r k : Nat) : entry c w r k * columnRelation c w col k =
      (if r = k then entry c w r col else 0) + if col = k then entry c w r col else 0 := by
  rcases lt_trichotomy k col with hlt | rfl | hgt
  · by_cases hr : r = k
    · simp [columnRelation, hlt, hlt.ne', hred k k hlt, hr]
    · simp [columnRelation, hlt, hlt.ne', hred r k hlt, hr]
  · by_cases hr : r = k
    · simp [columnRelation, hr, hzero]
    · simp [columnRelation, hr]
  · by_cases hr : r = k
    · simp [columnRelation, hgt.not_gt, hgt.ne', hgt.ne, hr, hzero k hgt.le]
    · simp [columnRelation, hgt.not_gt, hgt.ne', hgt.ne, hr]

/-- A column without a pivot shows a vector that every row sends to zero. -/
theorem exists_inKernel_of_noPivot {col : Nat} (hred : Reduced c w col) (hcol : col < n)
    (hzero : ∀ r, col ≤ r → entry c w r col = 0) :
    ∃ x, InKernel c n w x ∧ x n = 0 ∧ ∃ k < n, x k ≠ 0 := by
  have := c.fact_irreducible
  refine ⟨columnRelation c w col, fun r => ?_, by simp [columnRelation, hcol.not_gt, hcol.ne'], col, hcol,
    by simp [columnRelation]⟩
  rw [rowSum, Finset.sum_congr rfl fun k _ => entry_mul_columnRelation hred hzero r k, Finset.sum_add_distrib,
    Finset.sum_ite_eq, Finset.sum_ite_eq]
  rcases Nat.lt_or_ge r col with hlt | hge
  · rw [if_pos (Finset.mem_range.2 (by omega)), if_pos (Finset.mem_range.2 (by omega)), GF.add_self]
  · simp [hzero r hge]

/-- Once all columns are the identity's, the last one says what each unknown is. -/
theorem inKernel_iff_of_reduced (hred : Reduced c w n) (hlen : w.length = n) (x : Nat → c.GF) :
    InKernel c n w x ↔ ∀ k < n, x k = entry c w k n * x n := by
  have hsum : ∀ r < n, rowSum c n w x r = x r + entry c w r n * x n := by
    intro r hr
    rw [rowSum, Finset.sum_range_succ,
      Finset.sum_congr rfl fun k hk => by rw [hred r k (Finset.mem_range.1 hk), ite_mul, one_mul, zero_mul],
      Finset.sum_ite_eq, if_pos (Finset.mem_range.2 hr)]
  refine ⟨fun hx k hk => (GF.add_eq_zero _ _).1 (hsum k hk ▸ hx k), fun hx r => ?_⟩
  rcases Nat.lt_or_ge r n with hr | hr
  · rw [hsum r hr, hx r hr, GF.add_self]
  · exact Finset.sum_eq_zero fun k _ => by rw [entry_of_length_le (hlen.trans_le hr), zero_mul]

/-- The loop over the columns from col on: each system ends with all columns the identity's, or at a column without a
pivot. -/
theorem gaussJordan_cases (k : Nat) : ∀ {col : Nat} {w : List (List Nat)}, col + k = n → IsSystem c n w →
    Reduced c w col →
    (∃ w', gaussJordan c.params (List.range' col k) w = some w' ∧ Reduced c w' n ∧ w'.length = n ∧
        ∀ x, InKernel c n w' x ↔ InKernel c n w x) ∨
      (gaussJordan c.params (List.range' col k) w = none ∧ ∃ x, InKernel c n w x ∧ x n = 0 ∧ ∃ k < n, x k ≠ 0) := by
  induction k with
  | zero =>
    intro col w hn h hred
    obtain rfl : col = n := hn
    exact .inl ⟨w, rfl, hred, h.rows, fun _ => Iff.rfl⟩
  | succ k ih =>
    intro col w hn h hred
    have hcol : col < n := by omega
    rw [List.range'_succ, gaussJordan_cons]
    cases hpiv : findPivot w col with
    | none => exact .inr ⟨rfl, exists_inKernel_of_noPivot hred hcol fun r => findPivot_eq_none c hpiv⟩
    | some piv =>
      obtain ⟨hle, hlt, hne⟩ := findPivot_eq_some h hpiv
      have hker := inKernel_clearColumn h hcol hlt hne
      simpa only [Option.bind_some, hker] using
        ih (by omega) (h.clearColumn hcol hlt) (hred.clearColumn h hcol hle hlt hne)

/-! ## The solver -/

section Solver

variable {a : List (List Nat)} {rhs u : List Nat}

/-- The matrix with the right-hand side as its last column (R161). -/
abbrev augment (a : List (List Nat)) (rhs : List Nat) : List (List Nat) :=
  List.zipWith (fun row r => row ++ [r]) a rhs

/-- A square matrix of elements and a right-hand side of elements (R161). -/
structure IsSquareSystem (c : Config) (n : Nat) (a : List (List Nat)) (rhs : List Nat) : Prop where
  rows : a.length = n
  cols : ∀ row ∈ a, row.length = n
  elems : AllRowsElems c.params a
  rhs_length : rhs.length = n
  rhs_elems : AllElems c.params rhs

namespace IsSquareSystem

theorem isSystem_augment (h : IsSquareSystem c n a rhs) : IsSystem c n (augment a rhs) := by
  refine ⟨by rw [List.length_zipWith, h.rows, h.rhs_length, min_self], ?_, ?_⟩
  · exact forall_mem_zipWith fun row hrow r _ => by simp [h.cols row hrow]
  · exact forall_mem_zipWith fun row hrow r hr =>
      List.forall_mem_append.2 ⟨h.elems row hrow, List.forall_mem_singleton.2 (h.rhs_elems r hr)⟩

/-- Row r of the extended matrix. -/
theorem rowAt_augment (h : IsSquareSystem c n a rhs) {r : Nat} (hr : r < n) :
    rowAt (augment a rhs) r = rowAt a r ++ [coeff rhs r] := by
  rw [rowAt_eq_getElem (h.isSystem_augment.rows ▸ hr), List.getElem_zipWith, rowAt_eq_getElem (h.rows ▸ hr),
    coeff_eq_getElem (h.rhs_length ▸ hr)]

/-- The rows of the extended matrix, the unknowns' part and the right-hand side apart. -/
theorem inKernel_augment_iff (h : IsSquareSystem c n a rhs) (x : Nat → c.GF) :
    InKernel c n (augment a rhs) x ↔
      ∀ r < n, ∑ k ∈ Finset.range n, entry c a r k * x k = toGF c (coeff rhs r) * x n := by
  have hlen := h.isSystem_augment.rows
  have hsum : ∀ r < n, rowSum c n (augment a rhs) x r =
      ∑ k ∈ Finset.range n, entry c a r k * x k + toGF c (coeff rhs r) * x n := by
    intro r hr
    have hrow : (rowAt a r).length = n := by
      rw [rowAt_eq_getElem (h.rows ▸ hr)]
      exact h.cols _ (List.getElem_mem _)
    rw [rowSum, Finset.sum_range_succ, entry, h.rowAt_augment hr, coeff_append_length hrow]
    refine congrArg (· + _) (Finset.sum_congr rfl fun k hk => ?_)
    rw [entry, h.rowAt_augment hr, coeff_append_of_lt (hrow ▸ Finset.mem_range.1 hk), entry]
  refine ⟨fun hx r hr => (GF.add_eq_zero _ _).1 (hsum r hr ▸ hx r), fun hx r => ?_⟩
  rcases Nat.lt_or_ge r n with hr | hr
  · rw [hsum r hr, hx r hr, GF.add_self]
  · exact Finset.sum_eq_zero fun k _ => by rw [entry_of_length_le (hlen.trans_le hr), zero_mul]

/-- Either the answer u gives the solutions of the system with any multiple t of the right-hand side, or the homogeneous
system has one that is not zero. -/
theorem solveUnique_cases (h : IsSquareSystem c n a rhs) :
    (∃ u, solveUnique c.params a rhs = some u ∧ u.length = n ∧ ∀ (x : Nat → c.GF) (t : c.GF),
        (∀ r < n, ∑ k ∈ Finset.range n, entry c a r k * x k = toGF c (coeff rhs r) * t) ↔
          ∀ k < n, x k = toGF c (coeff u k) * t) ∨
      (solveUnique c.params a rhs = none ∧
        ∃ x : Nat → c.GF, (∀ r < n, ∑ k ∈ Finset.range n, entry c a r k * x k = 0) ∧ ∃ k < n, x k ≠ 0) := by
  rw [solveUnique, h.rows, List.range_eq_range']
  rcases gaussJordan_cases n (Nat.zero_add n) h.isSystem_augment fun _ _ hk => absurd hk (Nat.not_lt_zero _) with
    ⟨w, hw, hred, hlen, hker⟩ | ⟨hnone, x, hx, hlast, hne⟩
  · refine .inl ⟨w.map fun row => coeff row n, by simp only [hw], by simpa using hlen, fun x t => ?_⟩
    have hsol := (h.inKernel_augment_iff (Function.update x n t)).symm.trans
      ((hker _).symm.trans (inKernel_iff_of_reduced hred hlen _))
    have hsum : ∀ r, ∑ k ∈ Finset.range n, entry c a r k * Function.update x n t k =
        ∑ k ∈ Finset.range n, entry c a r k * x k := fun r =>
      Finset.sum_congr rfl fun k hk => by rw [Function.update_of_ne (Finset.mem_range.1 hk).ne]
    simp only [hsum, Function.update_self] at hsol
    refine hsol.trans (forall₂_congr fun k hk => ?_)
    rw [Function.update_of_ne hk.ne, coeff_map_coeff, entry]
  · refine .inr ⟨by simp only [hnone], x, fun r hr => ?_, hne⟩
    rw [(h.inKernel_augment_iff x).1 hx r hr, hlast, mul_zero]

end IsSquareSystem

theorem toGF_dotProduct (row : List Nat) (hu : AllElems c.params u) :
    toGF c (dotProduct c.params n row u) = ∑ k ∈ Finset.range n, toGF c (coeff row k) * toGF c (coeff u k) := by
  rw [dotProduct, toGF_gfsum_range]
  exact Finset.sum_congr rfl fun k _ => toGF_gfmul _ (coeff_lt c hu k)

/-- A system's rows, read in the field (R161). -/
theorem solves_iff (ha : AllRowsElems c.params a) (hrhs : AllElems c.params rhs) :
    Solves c.params n a rhs u ↔ u.length = n ∧ AllElems c.params u ∧
      ∀ r < n, ∑ k ∈ Finset.range n, entry c a r k * toGF c (coeff u k) = toGF c (coeff rhs r) := by
  refine and_congr_right fun _ => and_congr_right fun hu => forall₂_congr fun r _ => ?_
  have hlt : dotProduct c.params n (rowAt a r) u < c.params.q :=
    gfsum_lt c (List.forall_mem_map.2 fun k _ => gfmul_lt c _ (coeff_lt c (allElems_rowAt ha r) k))
  rw [← toGF_inj hlt (coeff_lt c hrhs r), toGF_dotProduct _ hu]
  rfl

/-- Every vector over the field is that of a sequence of elements. -/
theorem exists_elems (x : Nat → c.GF) (n : Nat) :
    ∃ z : List Nat, z.length = n ∧ AllElems c.params z ∧ ∀ k < n, toGF c (coeff z k) = x k := by
  choose f hlt hf using fun k => exists_toGF_eq (x k)
  refine ⟨(List.range n).map f, by simp, List.forall_mem_map.2 fun k _ => hlt k, fun k hk => ?_⟩
  rw [coeff_map_range, if_pos hk, hf]

end Solver

/-- Sequences of elements of one length are equal when they are the same vector over the field. -/
theorem eq_of_toGF_coeff_eq {a b : List Nat} (ha : AllElems c.params a) (hb : AllElems c.params b)
    (hlena : a.length = n) (hlenb : b.length = n) (h : ∀ k < n, toGF c (coeff a k) = toGF c (coeff b k)) : a = b := by
  refine List.ext_getElem (hlena.trans hlenb.symm) fun k hka hkb => ?_
  rw [← coeff_eq_getElem hka, ← coeff_eq_getElem hkb]
  exact (toGF_inj (coeff_lt c ha k) (coeff_lt c hb k)).1 (h k (hlena ▸ hka))

theorem allElems_replicate_zero (c : Config) (n : Nat) : AllElems c.params (List.replicate n 0) := fun _ hx =>
  (List.eq_of_mem_replicate hx).symm ▸ c.q_pos

/-- Settles O46: the answer gives all solutions of the system and of the homogeneous one, and SINGULAR comes with a
solution of the homogeneous one. -/
theorem solverIsExact : Obligations.SolverIsExact := by
  intro c n a rhs hlen hrows hrhsLen hrhs
  have ha : AllRowsElems c.params a := fun row hrow => (hrows row hrow).2
  have h : IsSquareSystem c n a rhs := ⟨hlen, fun row hrow => (hrows row hrow).1, ha, hrhsLen, hrhs⟩
  have hzero := allElems_replicate_zero c n
  rcases h.solveUnique_cases with ⟨u, hsome, hulen, hsol⟩ | ⟨hnone, x, hx, k, hk, hne⟩
  · have hu := allElems_solveUnique ha hrhs hsome
    refine ⟨fun u' hu' => ?_, ?_⟩
    · obtain rfl : u = u' := Option.some.inj (hsome.symm.trans hu')
      refine ⟨(solves_iff ha hrhs).2 ⟨hulen, hu, fun r hr => ?_⟩, fun v hv => ?_⟩
      · rw [(hsol _ 1).2 (fun k _ => (mul_one _).symm) r hr, mul_one]
      · obtain ⟨hvlen, hv, hrow⟩ := (solves_iff ha hrhs).1 hv
        refine eq_of_toGF_coeff_eq hv hu hvlen hulen fun k hk => ?_
        rw [(hsol (fun k => toGF c (coeff v k)) 1).1 (fun r hr => by rw [hrow r hr, mul_one]) k hk, mul_one]
    · refine iff_of_false (by simp [hsome]) fun ⟨z, hz, hne⟩ => hne ?_
      obtain ⟨hzlen, hz, hrow⟩ := (solves_iff ha hzero).1 hz
      refine eq_of_toGF_coeff_eq hz hzero hzlen List.length_replicate fun k hk => ?_
      rw [(hsol (fun k => toGF c (coeff z k)) 0).1 (fun r hr => ?_) k hk, mul_zero, coeff_replicate_zero, toGF_zero]
      rw [hrow r hr, coeff_replicate_zero, toGF_zero, mul_zero]
  · refine ⟨fun u hu => by simp [hnone] at hu, iff_of_true hnone ?_⟩
    obtain ⟨z, hzlen, hz, hzx⟩ := exists_elems x n
    refine ⟨z, (solves_iff ha hzero).2 ⟨hzlen, hz, fun r hr => ?_⟩, fun hz0 => hne ?_⟩
    · rw [coeff_replicate_zero, toGF_zero, ← hx r hr]
      exact Finset.sum_congr rfl fun j hj => by rw [hzx j (Finset.mem_range.1 hj)]
    · rw [← hzx k hk, hz0, coeff_replicate_zero, toGF_zero]

end Sys2Proof.Machine
end

section
/-! # The Berlekamp–Welch argument

Over any field: a received word y at the points x, which differs from the values of P on the positions in D only. -/

namespace Sys2Proof.Machine.BerlekampWelch

open Polynomial

/-- Locator and numerator of the key equation `y · X = Y` at all n points (R162). -/
def KeyEquation {F : Type} [CommRing F] (n : Nat) (pt y : Nat → F) (X Y : F[X]) : Prop :=
  ∀ i < n, y i * X.eval (pt i) = Y.eval (pt i)

/-- D is the set of positions at which y is not the word of P. -/
def Differs {F : Type} [CommRing F] (n : Nat) (pt y : Nat → F) (P : F[X]) (D : Finset Nat) : Prop :=
  D ⊆ Finset.range n ∧ ∀ i < n, i ∈ D ↔ y i ≠ P.eval (pt i)

variable {F : Type} [Field F] {n : Nat} {pt y : Nat → F} {P X Y : F[X]} {D : Finset Nat}

/-- The product of the locator of D and P solves the key equation. -/
theorem keyEquation_nodal (hD : Differs n pt y P D) :
    KeyEquation n pt y (Lagrange.nodal D pt) (P * Lagrange.nodal D pt) := by
  intro i hi
  rw [eval_mul]
  by_cases hmem : i ∈ D
  · rw [Lagrange.eval_nodal_at_node hmem, mul_zero, mul_zero]
  · rw [not_not.1 (mt (hD.2 i hi).2 hmem)]

/-- At the other points, of which there are more than the degrees, the numerator is P times the locator. -/
theorem numerator_eq (hpt : Set.InjOn pt (Finset.range n)) (hD : Differs n pt y P D) (hkey : KeyEquation n pt y X Y)
    (hX : (P * X).degree < (n - D.card : Nat)) (hY : Y.degree < (n - D.card : Nat)) : Y = P * X := by
  obtain ⟨hsub, hdiff⟩ := hD
  have hcard : (Finset.range n \ D).card = n - D.card := by rw [Finset.card_sdiff_of_subset hsub, Finset.card_range]
  refine eq_of_degrees_lt_of_eval_index_eq (Finset.range n \ D) (hpt.mono (by simp)) (hcard ▸ hY) (hcard ▸ hX)
    fun i hi => ?_
  obtain ⟨hin, hnot⟩ := Finset.mem_sdiff.1 hi
  have hi := Finset.mem_range.1 hin
  rw [← hkey i hi, eval_mul, not_not.1 (mt (hdiff i hi).2 hnot)]

/-- Such a locator vanishes where the word is wrong. -/
theorem locator_eval_eq_zero (hD : Differs n pt y P D) (hkey : KeyEquation n pt y X (P * X)) {i : Nat} (hi : i ∈ D) :
    X.eval (pt i) = 0 := by
  obtain ⟨hsub, hdiff⟩ := hD
  have hin := Finset.mem_range.1 (hsub hi)
  have heq := hkey i hin
  rw [eval_mul] at heq
  exact (mul_eq_mul_right_iff.1 heq).resolve_left ((hdiff i hin).1 hi)

/-- A locator of degree below the number of errors is zero. -/
theorem locator_eq_zero (hpt : Set.InjOn pt (Finset.range n)) (hD : Differs n pt y P D)
    (hkey : KeyEquation n pt y X (P * X)) (hX : X.degree < D.card) : X = 0 :=
  eq_zero_of_degree_lt_of_eval_index_eq_zero D (hpt.mono (by exact_mod_cast hD.1)) hX
    fun _ hi => locator_eval_eq_zero hD hkey hi

/-- A locator of the number of errors as its degree vanishes nowhere else. -/
theorem locator_eval_eq_zero_iff (hpt : Set.InjOn pt (Finset.range n)) (hD : Differs n pt y P D)
    (hkey : KeyEquation n pt y X (P * X)) (hX : X.degree = D.card) {i : Nat} (hi : i < n) :
    X.eval (pt i) = 0 ↔ i ∈ D := by
  refine ⟨fun hzero => by_contra fun hnot => ?_, locator_eval_eq_zero hD hkey⟩
  have hsub : insert i D ⊆ Finset.range n := Finset.insert_subset (Finset.mem_range.2 hi) hD.1
  have hX0 : X = 0 := by
    refine eq_zero_of_degree_lt_of_eval_index_eq_zero (insert i D) (hpt.mono (by exact_mod_cast hsub)) ?_
      (Finset.forall_mem_insert _ _ _ |>.2 ⟨hzero, fun j hj => locator_eval_eq_zero hD hkey hj⟩)
    rw [hX, Finset.card_insert_of_notMem hnot]
    exact_mod_cast Nat.lt_succ_self _
  simp [hX0] at hX

theorem degree_mul_lt {k v : Nat} (hP : P.degree < (k : Nat)) (hX : X.degree ≤ (v : Nat)) :
    (P * X).degree < (k + v : Nat) := by
  calc (P * X).degree = P.degree + X.degree := degree_mul
    _ ≤ P.degree + (v : Nat) := by gcongr
    _ < (k : Nat) + (v : Nat) := WithBot.add_lt_add_right (WithBot.natCast_ne_bot v) hP
    _ = ((k + v : Nat) : WithBot Nat) := (Nat.cast_add k v).symm

end Sys2Proof.Machine.BerlekampWelch
end

section
/-! # The systems of the trials

A solution of the trial e is a locator and a numerator that meet the key equation at the N points (R162, R164); a
solution of its homogeneous system is one whose locator lacks the term of degree e. -/

namespace Sys2Proof.Machine

open Polynomial BerlekampWelch

variable {c : Config} {cw a b u : List Nat} {e : Nat}

/-! ## Sequences and polynomials of a bounded degree -/

theorem degree_toPoly_lt (a : List Nat) : (toPoly c a).degree < (a.length : Nat) := by
  refine (degree_lt_iff_coeff_zero _ _).2 fun j hj => ?_
  rw [coeff_toPoly, coeff_of_length_le hj, toGF_zero]

/-- Every polynomial of a degree below m is that of a sequence of m elements. -/
theorem exists_toPoly_eq {f : c.GF[X]} {m : Nat} (hf : f.degree < (m : Nat)) :
    ∃ a : List Nat, a.length = m ∧ AllElems c.params a ∧ toPoly c a = f := by
  obtain ⟨a, hlen, ha, hcoeff⟩ := exists_elems f.coeff m
  refine ⟨a, hlen, ha, Polynomial.ext fun j => ?_⟩
  rcases Nat.lt_or_ge j m with hj | hj
  · rw [coeff_toPoly, hcoeff j hj]
  · rw [coeff_toPoly, coeff_of_length_le (hlen.trans_le hj), toGF_zero, (degree_lt_iff_coeff_zero f m).1 hf j hj]

theorem coeff_append_add (a b : List Nat) (k : Nat) : coeff (a ++ b) (a.length + k) = coeff b k := by
  rw [coeff, List.getD_append_right _ _ _ _ (Nat.le_add_right _ _), Nat.add_sub_cancel_left, coeff]

/-- The locator: "coefficient of x^e fixed to 1" (R164). -/
theorem toPoly_append_one (a : List Nat) : toPoly c (a ++ [1]) = toPoly c a + X ^ a.length := by
  have hlow : ∀ j ∈ Finset.range a.length, C (toGF c (coeff (a ++ [1]) j)) * X ^ j = C (toGF c (coeff a j)) * X ^ j :=
    fun j hj => by rw [coeff_append_of_lt (Finset.mem_range.1 hj)]
  rw [toPoly, List.length_append, List.length_singleton, Finset.sum_range_succ, Finset.sum_congr rfl hlow,
    coeff_append_length rfl, toGF_one, C_1, one_mul, toPoly]

theorem degree_toPoly_append_one (a : List Nat) : (toPoly c (a ++ [1])).degree = (a.length : Nat) := by
  have := c.fact_irreducible
  rw [toPoly_append_one, add_comm]
  exact (degree_add_eq_left_of_degree_lt ((degree_toPoly_lt a).trans_eq (degree_X_pow _).symm)).trans (degree_X_pow _)

theorem toPoly_eq_zero_iff_replicate (ha : AllElems c.params a) :
    toPoly c a = 0 ↔ a = List.replicate a.length 0 := by
  rw [toPoly_eq_zero_iff ha, isZero_iff, List.eq_replicate_iff]
  simp

/-! ## The points and the received word in the field -/

/-- The evaluation point of position i (R160). -/
noncomputable abbrev point (c : Config) (i : Nat) : c.GF := toGF c (evalPoint c.params i)

/-- The received symbol at position i. -/
noncomputable abbrev symbol (c : Config) (cw : List Nat) (i : Nat) : c.GF := toGF c (coeff cw i)

/-- "The points are pairwise distinct" (R160). -/
theorem injOn_point (c : Config) : Set.InjOn (point c) (Finset.range c.params.n) := by
  intro i hi j hj h
  have hlt := c.n_lt_q
  rw [Finset.mem_coe, Finset.mem_range] at hi hj
  refine injOn_gfpow_alpha c ?_ ?_ ((toGF_inj (evalPoint_lt c i) (evalPoint_lt c j)).1 h)
  · exact Finset.mem_coe.2 (Finset.mem_range.2 (by omega))
  · exact Finset.mem_coe.2 (Finset.mem_range.2 (by omega))

/-! ## The rows -/

theorem bwMatrix_rows (p : Params) (cw : List Nat) {e : Nat} (he : e ≤ p.n) :
    (bwMatrix p cw e).length = p.n ∧ ∀ row ∈ bwMatrix p cw e, row.length = p.n := by
  refine ⟨by simp [bwMatrix], List.forall_mem_map.2 fun i _ => ?_⟩
  simp [bwRow, he]

theorem bwRhs_length (p : Params) (cw : List Nat) (e : Nat) : (bwRhs p cw e).length = p.n := by
  simp [bwRhs]

theorem rowAt_bwMatrix {p : Params} (cw : List Nat) (e : Nat) {i : Nat} (hi : i < p.n) :
    rowAt (bwMatrix p cw e) i = bwRow p cw e i := by
  rw [rowAt_eq_getElem (by simpa [bwMatrix] using hi)]
  simp [bwMatrix]

theorem toGF_coeff_bwRhs (cw : List Nat) (e : Nat) {i : Nat} (hi : i < c.params.n) :
    toGF c (coeff (bwRhs c.params cw e) i) = symbol c cw i * point c i ^ e := by
  rw [bwRhs, coeff_map_range, if_pos hi, toGF_gfmul _ (gfpow_lt c e (evalPoint_lt c i)), toGF_gfpow (evalPoint_lt c i)]

/-- A locator column of row i (R162). -/
theorem entry_bwMatrix_locator (cw : List Nat) {e i k : Nat} (hi : i < c.params.n) (hk : k < e) :
    entry c (bwMatrix c.params cw e) i k = symbol c cw i * point c i ^ k := by
  rw [entry, rowAt_bwMatrix cw e hi, bwRow, coeff_append_of_lt (by simpa using hk), coeff_map_range, if_pos hk,
    toGF_gfmul _ (gfpow_lt c k (evalPoint_lt c i)), toGF_gfpow (evalPoint_lt c i)]

/-- A numerator column of row i (R162). -/
theorem entry_bwMatrix_numerator (cw : List Nat) {e i k : Nat} (hi : i < c.params.n) (hk : k < c.params.n - e) :
    entry c (bwMatrix c.params cw e) i (e + k) = point c i ^ k := by
  have happ := coeff_append_add
    ((List.range e).map fun j => gfmul c.params (coeff cw i) (gfpow c.params (evalPoint c.params i) j))
    ((List.range (c.params.n - e)).map fun j => gfpow c.params (evalPoint c.params i) j) k
  rw [List.length_map, List.length_range] at happ
  rw [entry, rowAt_bwMatrix cw e hi, bwRow, happ, coeff_map_range, if_pos hk, toGF_gfpow (evalPoint_lt c i)]

/-- Row i of the trial's matrix on a locator's and a numerator's coefficients. -/
theorem sum_bwMatrix (cw : List Nat) (hlen : a.length + b.length = c.params.n) {i : Nat} (hi : i < c.params.n) :
    ∑ k ∈ Finset.range c.params.n, entry c (bwMatrix c.params cw a.length) i k * toGF c (coeff (a ++ b) k) =
      symbol c cw i * (toPoly c a).eval (point c i) + (toPoly c b).eval (point c i) := by
  rw [← hlen, Finset.sum_range_add, eval_toPoly, eval_toPoly, Finset.mul_sum]
  refine congrArg₂ (· + ·) (Finset.sum_congr rfl fun k hk => ?_) (Finset.sum_congr rfl fun k hk => ?_)
  · have hk := Finset.mem_range.1 hk
    rw [entry_bwMatrix_locator cw hi hk, coeff_append_of_lt hk]
    ring
  · have hk := Finset.mem_range.1 hk
    rw [entry_bwMatrix_numerator cw hi (by omega), coeff_append_add, mul_comm]

/-! ## The solutions -/

/-- The solutions of the trial's system (R162). -/
theorem solves_trial_iff (hcw : AllElems c.params cw) (hlen : a.length + b.length = c.params.n) :
    Solves c.params c.params.n (bwMatrix c.params cw a.length) (bwRhs c.params cw a.length) (a ++ b) ↔
      AllElems c.params (a ++ b) ∧
        KeyEquation c.params.n (point c) (symbol c cw) (toPoly c (a ++ [1])) (toPoly c b) := by
  rw [solves_iff (allRowsElems_bwMatrix hcw _) (allElems_bwRhs hcw _),
    and_iff_right (List.length_append.trans hlen)]
  refine and_congr_right fun _ => forall₂_congr fun i hi => ?_
  rw [sum_bwMatrix cw hlen hi, toGF_coeff_bwRhs cw _ hi, toPoly_append_one, eval_add, eval_pow, eval_X, mul_add,
    GF.add_eq_iff]

/-- The solutions of its homogeneous system. -/
theorem solves_homogeneous_iff (hcw : AllElems c.params cw) (hlen : a.length + b.length = c.params.n) :
    Solves c.params c.params.n (bwMatrix c.params cw a.length) (List.replicate c.params.n 0) (a ++ b) ↔
      AllElems c.params (a ++ b) ∧ KeyEquation c.params.n (point c) (symbol c cw) (toPoly c a) (toPoly c b) := by
  rw [solves_iff (allRowsElems_bwMatrix hcw _) (allElems_replicate_zero c _),
    and_iff_right (List.length_append.trans hlen)]
  refine and_congr_right fun _ => forall₂_congr fun i hi => ?_
  rw [sum_bwMatrix cw hlen hi, coeff_replicate_zero, toGF_zero, GF.add_eq_zero]

/-- What the solver's answer says of a trial's system. -/
theorem solver_on_trial (hcw : AllElems c.params cw) (he : e ≤ c.params.n) :
    (∀ u, solveUnique c.params (bwMatrix c.params cw e) (bwRhs c.params cw e) = some u →
      Solves c.params c.params.n (bwMatrix c.params cw e) (bwRhs c.params cw e) u) ∧
    (solveUnique c.params (bwMatrix c.params cw e) (bwRhs c.params cw e) = none ↔
      ∃ z, Solves c.params c.params.n (bwMatrix c.params cw e) (List.replicate c.params.n 0) z ∧
        z ≠ List.replicate c.params.n 0) := by
  obtain ⟨hlen, hrows⟩ := bwMatrix_rows c.params cw he
  obtain ⟨hsome, hnone⟩ := solverIsExact c _ _ _ hlen
    (fun row hrow => ⟨hrows row hrow, allRowsElems_bwMatrix hcw e row hrow⟩) (bwRhs_length _ cw e)
    (allElems_bwRhs hcw e)
  exact ⟨fun u hu => (hsome u hu).1, hnone⟩

/-- The trial e is singular exactly when a locator of degree below e and a numerator, not both zero, meet the key
equation. -/
theorem trial_singular_iff (hcw : AllElems c.params cw) (he : e ≤ c.params.n) :
    solveUnique c.params (bwMatrix c.params cw e) (bwRhs c.params cw e) = none ↔
      ∃ X Y : c.GF[X], X.degree < (e : Nat) ∧ Y.degree < (c.params.n - e : Nat) ∧
        KeyEquation c.params.n (point c) (symbol c cw) X Y ∧ ¬ (X = 0 ∧ Y = 0) := by
  rw [(solver_on_trial hcw he).2]
  constructor
  · rintro ⟨z, hz, hne⟩
    obtain ⟨a, b, rfl, rfl⟩ : ∃ a b, z = a ++ b ∧ e = a.length :=
      ⟨z.take e, z.drop e, (List.take_append_drop e z).symm, by simp [hz.1, he]⟩
    have hlen : a.length + b.length = c.params.n := List.length_append.symm.trans hz.1
    obtain ⟨hab, hkey⟩ := (solves_homogeneous_iff hcw hlen).1 hz
    obtain ⟨ha, hb⟩ := List.forall_mem_append.1 hab
    refine ⟨_, _, degree_toPoly_lt a, by rw [← hlen, Nat.add_sub_cancel_left]; exact degree_toPoly_lt b, hkey,
      fun ⟨hX, hY⟩ => hne ?_⟩
    rw [(toPoly_eq_zero_iff_replicate ha).1 hX, (toPoly_eq_zero_iff_replicate hb).1 hY, List.replicate_append_replicate,
      hlen]
  · rintro ⟨X, Y, hX, hY, hkey, hne⟩
    obtain ⟨a, rfl, ha, rfl⟩ := exists_toPoly_eq hX
    obtain ⟨b, hblen, hb, rfl⟩ := exists_toPoly_eq hY
    have hlen : a.length + b.length = c.params.n := by omega
    refine ⟨a ++ b, (solves_homogeneous_iff hcw hlen).2 ⟨List.forall_mem_append.2 ⟨ha, hb⟩, hkey⟩, fun hz => hne ?_⟩
    obtain ⟨-, hza, hzb⟩ := List.append_eq_replicate_iff.1 hz
    exact ⟨(toPoly_eq_zero_iff_replicate ha).2 hza, (toPoly_eq_zero_iff_replicate hb).2 hzb⟩

/-- The accepted trial's locator and numerator meet the key equation (R164). -/
theorem trial_solution (hcw : AllElems c.params cw) (he : e ≤ c.params.n)
    (hu : solveUnique c.params (bwMatrix c.params cw e) (bwRhs c.params cw e) = some u) :
    u.length = c.params.n ∧ AllElems c.params u ∧
      KeyEquation c.params.n (point c) (symbol c cw) (toPoly c (u.take e ++ [1])) (toPoly c (u.drop e)) := by
  have hsol := (solver_on_trial hcw he).1 u hu
  have hlenu := hsol.1
  obtain ⟨a, b, rfl, rfl⟩ : ∃ a b, u = a ++ b ∧ e = a.length :=
    ⟨u.take e, u.drop e, (List.take_append_drop e u).symm, by simp [hlenu, he]⟩
  rw [List.take_left, List.drop_left]
  exact ⟨hlenu, (solves_trial_iff hcw (List.length_append.symm.trans hlenu)).1 hsol⟩

/-! ## The trial e = 0 -/

/-- Settles O48: a polynomial of degree below N that vanishes at the N points is zero. -/
theorem trialZeroInterpolates : Obligations.TrialZeroInterpolates := by
  intro c cw _ hcw
  have := c.fact_irreducible
  have hregular : solveUnique c.params (bwMatrix c.params cw 0) (bwRhs c.params cw 0) ≠ none := by
    rw [Ne, trial_singular_iff hcw (Nat.zero_le _)]
    rintro ⟨X, Y, hX, hY, hkey, hne⟩
    have hX0 : X = 0 := degree_eq_bot.1 (Nat.WithBot.lt_zero_iff.1 hX)
    refine hne ⟨hX0, eq_zero_of_degree_lt_of_eval_index_eq_zero _ (injOn_point c) (by simpa using hY) fun i hi => ?_⟩
    rw [← hkey i (Finset.mem_range.1 hi), hX0, eval_zero, mul_zero]
  obtain ⟨u, hu⟩ := Option.ne_none_iff_exists'.1 hregular
  obtain ⟨hlen, helem, hkey⟩ := trial_solution hcw (Nat.zero_le _) hu
  refine ⟨u, hu, hlen, fun i hi => (toGF_inj (polyEval_lt c _ helem) (coeff_lt c hcw i)).1 ?_⟩
  have hone : toPoly c [1] = 1 := by simp [toPoly]
  rw [toGF_polyEval u (evalPoint_lt c i)]
  simpa [hone] using (hkey i hi).symm

end Sys2Proof.Machine
end

section
/-! # Words within EMAX errors of the evaluation code

A word that differs from an evaluation word in v ≤ EMAX positions makes every trial above v singular and the trial v
regular, with the v positions' locator and the polynomial times it as numerator (R171). -/

namespace Sys2Proof.Config

/-- K + 2·EMAX ≤ N, for EMAX = ⌊(N − K) / 2⌋ (R6). -/
theorem k_add_two_mul_emax_le (c : Config) : c.params.k + 2 * c.params.emax ≤ c.params.n := by
  have := c.k_lt_n
  simp only [Params.emax, Params.t]
  omega

end Sys2Proof.Config

namespace Sys2Proof.Machine

open Polynomial BerlekampWelch

/-! ## The trials -/

section Trials

variable {c : Config} {cw : List Nat} {P : c.GF[X]} {D : Finset Nat}

/-- Above the number of errors the errors' locator and P times it solve the homogeneous system. -/
theorem trial_singular_of_card_lt (hcw : AllElems c.params cw) (hP : P.degree < (c.params.k : Nat))
    (hD : Differs c.params.n (point c) (symbol c cw) P D) {e : Nat} (hlt : D.card < e) (he : e ≤ c.params.emax) :
    solveUnique c.params (bwMatrix c.params cw e) (bwRhs c.params cw e) = none := by
  have := c.fact_irreducible
  have hn := c.k_add_two_mul_emax_le
  refine (trial_singular_iff hcw (by omega)).2 ⟨Lagrange.nodal D (point c), P * Lagrange.nodal D (point c), ?_, ?_,
    keyEquation_nodal hD, fun h => Lagrange.nodal_ne_zero h.1⟩
  · rw [Lagrange.degree_nodal]
    exact_mod_cast hlt
  · refine (degree_mul_lt hP Lagrange.degree_nodal.le).trans_le ?_
    exact_mod_cast (by omega : c.params.k + D.card ≤ c.params.n - e)

/-- At the number of errors the numerator is P times the locator. -/
theorem numerator_eq_of_trial (hP : P.degree < (c.params.k : Nat))
    (hD : Differs c.params.n (point c) (symbol c cw) P D) (hv : D.card ≤ c.params.emax) {X Y : c.GF[X]}
    (hkey : KeyEquation c.params.n (point c) (symbol c cw) X Y) (hX : X.degree ≤ (D.card : Nat))
    (hY : Y.degree < (c.params.n - D.card : Nat)) : Y = P * X := by
  have := c.fact_irreducible
  have hn := c.k_add_two_mul_emax_le
  refine numerator_eq (injOn_point c) hD hkey ((degree_mul_lt hP hX).trans_le ?_) hY
  exact_mod_cast (by omega : c.params.k + D.card ≤ c.params.n - D.card)

/-- At the number of errors a locator of lower degree would vanish at more points than its degree. -/
theorem trial_regular_at_card (hcw : AllElems c.params cw) (hP : P.degree < (c.params.k : Nat))
    (hD : Differs c.params.n (point c) (symbol c cw) P D) (hv : D.card ≤ c.params.emax) :
    solveUnique c.params (bwMatrix c.params cw D.card) (bwRhs c.params cw D.card) ≠ none := by
  have := c.fact_irreducible
  have hn := c.k_add_two_mul_emax_le
  rw [Ne, trial_singular_iff hcw (by omega)]
  rintro ⟨X, Y, hX, hY, hkey, hne⟩
  obtain rfl := numerator_eq_of_trial hP hD hv hkey hX.le hY
  have hX0 : X = 0 := locator_eq_zero (injOn_point c) hD hkey hX
  exact hne ⟨hX0, by rw [hX0, mul_zero]⟩

/-- The accepted trial is the number of errors (R171). -/
theorem bwTrials_eq_card (hcw : AllElems c.params cw) (hP : P.degree < (c.params.k : Nat))
    (hD : Differs c.params.n (point c) (symbol c cw) P D) (hv : D.card ≤ c.params.emax) {e : Nat} {u : List Nat}
    (h : bwTrials c.params cw c.params.emax = (e, u)) : e = D.card := by
  obtain ⟨hle, habove, hsolved⟩ := bwTrials_accepts c.params cw c.params.emax h
  rcases lt_trichotomy e D.card with hlt | heq | hgt
  · exact absurd (habove _ hlt hv) (trial_regular_at_card hcw hP hD hv)
  · exact heq
  · have hnone := trial_singular_of_card_lt hcw hP hD hgt hle
    rw [hsolved (Nat.zero_lt_of_lt hgt)] at hnone
    cases hnone

end Trials

/-! ## The evaluation code -/

/-- The positions at which a received word differs from another. -/
def errorPositions (p : Params) (cw word : List Nat) : Finset Nat :=
  (Finset.range p.n).filter fun i => coeff cw i ≠ coeff word i

theorem card_errorPositions (p : Params) (cw word : List Nat) :
    (errorPositions p cw word).card = (List.range p.n).countP fun i => coeff cw i != coeff word i := by
  rw [errorPositions, Finset.card_def, Finset.filter_val, Finset.range_val, ← Multiset.countP_eq_card_filter,
    Multiset.range, Multiset.coe_countP]
  exact List.countP_congr fun i _ => by simp

variable {c : Config} {cw poly : List Nat}

theorem mem_errorPositions_iff {word : List Nat} {i : Nat} (hi : i < c.params.n) :
    i ∈ errorPositions c.params cw word ↔ coeff cw i ≠ coeff word i := by
  simp [errorPositions, hi]

theorem coeff_evalWord (p : Params) (poly : List Nat) {i : Nat} (hi : i < p.n) :
    coeff (evalWord p poly) i = polyEval p poly (evalPoint p i) := by
  rw [evalWord, coeff_map_range, if_pos hi]

theorem take_evalWord (c : Config) (poly : List Nat) : (evalWord c.params poly).take c.params.k =
    (List.range c.params.k).map fun i => polyEval c.params poly (evalPoint c.params i) := by
  rw [evalWord, ← List.map_take, List.take_range, min_eq_left c.k_lt_n.le]

theorem differs_errorPositions (hcw : AllElems c.params cw) (hpoly : AllElems c.params poly) :
    Differs c.params.n (point c) (symbol c cw) (toPoly c poly)
      (errorPositions c.params cw (evalWord c.params poly)) := by
  refine ⟨Finset.filter_subset _ _, fun i hi => ?_⟩
  have hlt := evalPoint_lt c i
  rw [mem_errorPositions_iff hi, coeff_evalWord _ _ hi, ← toGF_polyEval poly hlt, Ne, Ne,
    toGF_inj (coeff_lt c hcw i) (polyEval_lt c _ hpoly)]

/-! ## The outcome -/

/-- The result of R171: the word's first K symbols, the number of wrong message symbols, and success. -/
def correctedResult (p : Params) (cw word : List Nat) : BwResult :=
  { msg := word.take p.k
    errs := ((List.range p.k).countP fun i => coeff cw i != coeff word i : Nat)
    success := true }

/-- A product divided by a factor: the quotient is the other factor's canonical form, and nothing remains. -/
theorem polyDivMod_of_eq_mul {a b : List Nat} (ha : AllElems c.params a) (hb : AllElems c.params b)
    (hpoly : AllElems c.params poly) (hz : isZero b = false) (h : toPoly c a = toPoly c poly * toPoly c b) :
    polyDivMod c.params a b = (trim poly, [0]) := by
  have hzero : toPoly c [0] = 0 := toPoly_replicate_zero 1
  have hdiv : IsDivision c.params a b (trim poly) [0] := by
    refine (isDivision_iff ha hb hz).2 ⟨canonical_trim poly, ⟨le_rfl, .inr rfl⟩, trim_lt c hpoly,
      allElems_replicate_zero c 1, ?_, ?_⟩
    · rw [toPoly_trim, hzero, add_zero, h]
    · rw [hzero, degree_zero, bot_lt_iff_ne_bot, Ne, degree_eq_bot]
      exact toPoly_ne_zero hb hz
  obtain ⟨hquo, hrem⟩ := hdiv.unique ha hb hz (isDivision_polyDivMod ha hb hz)
  exact Prod.ext hquo hrem

/-- The correction at the errors gives the evaluation word's symbols and counts the wrong ones (R167). -/
theorem bwCorrect_of_errorPositions {locator : List Nat} (hloc : ∀ i < c.params.n,
    isErrorPosition c.params locator i = (coeff cw i != coeff (evalWord c.params poly) i)) :
    bwCorrect c.params cw locator (trim poly) = correctedResult c.params cw (evalWord c.params poly) := by
  have hn : ∀ i ∈ List.range c.params.k, i < c.params.n := fun i hi => (List.mem_range.1 hi).trans c.k_lt_n
  have hmsg : ((List.range c.params.k).map fun i => if isErrorPosition c.params locator i then
      polyEval c.params (trim poly) (evalPoint c.params i) else coeff cw i) =
        (evalWord c.params poly).take c.params.k := by
    rw [take_evalWord]
    refine List.map_congr_left fun i hi => ?_
    rw [hloc i (hn i hi), polyEval_trim, ← coeff_evalWord _ _ (hn i hi)]
    split
    · rfl
    · next heq => simpa using heq
  have hcount : (List.range c.params.k).countP (isErrorPosition c.params locator) =
      (List.range c.params.k).countP fun i => coeff cw i != coeff (evalWord c.params poly) i :=
    List.countP_congr fun i hi => by rw [hloc i (hn i hi)]
  rw [bwCorrect, hmsg, hcount, correctedResult]

/-- A word of the evaluation code is taken as it is, with no error (R165, R171 (a)). -/
theorem bwFinish_zero_of_no_errors (hlen : cw.length = c.params.n)
    (heq : ∀ i < c.params.n, coeff cw i = coeff (evalWord c.params poly) i) (force : Bool) (u : List Nat) :
    bwFinish c.params cw force 0 u = correctedResult c.params cw (evalWord c.params poly) := by
  have hword : cw = evalWord c.params poly := by
    have hlen' : (evalWord c.params poly).length = c.params.n := by simp [evalWord]
    refine List.ext_getElem (hlen.trans hlen'.symm) fun i hi hi' => ?_
    rw [← coeff_eq_getElem hi, ← coeff_eq_getElem hi', heq i (hlen ▸ hi)]
  rw [bwFinish_zero, correctedResult, ← hword]
  simp

/-- A word within EMAX errors decodes to the evaluation word's first K symbols (R171). -/
theorem bwDecode_corrects (hlen : cw.length = c.params.n) (hcw : AllElems c.params cw)
    (hpoly : AllElems c.params poly) (hk : poly.length ≤ c.params.k)
    (hv : (errorPositions c.params cw (evalWord c.params poly)).card ≤ c.params.emax) (force : Bool) :
    bwDecode c.params cw force = correctedResult c.params cw (evalWord c.params poly) := by
  have := c.fact_irreducible
  have hD := differs_errorPositions hcw hpoly
  have hP : (toPoly c poly).degree < (c.params.k : Nat) := (degree_toPoly_lt poly).trans_le (by exact_mod_cast hk)
  have hn := c.k_add_two_mul_emax_le
  rcases htrial : bwTrials c.params cw c.params.emax with ⟨e, u⟩
  obtain ⟨hle, -, hsolved⟩ := bwTrials_accepts _ _ _ htrial
  have he := bwTrials_eq_card hcw hP hD hv htrial
  rw [bwDecode_of_trial force htrial]
  rcases Nat.eq_zero_or_pos e with rfl | hpos
  · refine bwFinish_zero_of_no_errors hlen (fun i hi => not_not.1 fun hne => ?_) force u
    exact absurd ((mem_errorPositions_iff hi).2 hne) (by simp [Finset.card_eq_zero.1 he.symm])
  · obtain ⟨hulen, hu, hkey⟩ := trial_solution hcw (by omega) (hsolved hpos)
    have hX : (toPoly c (u.take e ++ [1])).degree = (e : Nat) := by
      rw [degree_toPoly_append_one, List.length_take, hulen, min_eq_left (by omega)]
    have hY : (toPoly c (u.drop e)).degree < (c.params.n - e : Nat) :=
      (degree_toPoly_lt _).trans_eq (by rw [List.length_drop, hulen])
    have hnum : toPoly c (u.drop e) = toPoly c poly * toPoly c (u.take e ++ [1]) :=
      numerator_eq_of_trial hP hD hv hkey (he ▸ hX.le) (he ▸ hY)
    have hdiv := polyDivMod_of_eq_mul (allElems_trim_drop hu e) (allElems_take_append_one hu e) hpoly
      (isZero_append_one _) ((toPoly_trim _).trans hnum)
    rw [bwFinish_correct _ _ hpos (by rw [hdiv]; exact .inl rfl), hdiv]
    refine bwCorrect_of_errorPositions fun i hi => Bool.eq_iff_iff.2 ?_
    rw [isErrorPosition, beq_iff_eq, bne_iff_ne, ← mem_errorPositions_iff hi,
      ← locator_eval_eq_zero_iff (injOn_point c) hD (hnum ▸ hkey) (he ▸ hX) hi,
      ← toGF_eq_zero_iff (polyEval_lt c _ (allElems_take_append_one hu e)), toGF_polyEval _ (evalPoint_lt c i)]

/-- Settles O49: the decoder's result on such a word, as the command writes it. -/
theorem bwdecCorrectsUpToEmax : Obligations.BwdecCorrectsUpToEmax := by
  intro vd vs force s poly hs hlen hk hpoly hv
  rw [← card_errorPositions] at hv
  have hdecode : bwDecode s.params s.v[vs] force = _ :=
    bwDecode_corrects (c := s.cfg) hlen (hs.allElems_readV vs) hpoly hk hv force
  rw [exec_bwdec hlen, hdecode, correctedResult, BitVec.ofInt_natCast]
  rfl

end Sys2Proof.Machine
end

section
/-! # The encoder commands

What each command of 43_lfsr_encoder.md writes and answers, and the fault of the two symbol commands at idx = N (R181 to
R185). -/

namespace Sys2Proof.Machine

/-! ## The recurrence, cell by cell (R181) -/

theorem coeff_lfStepReg_zero {p : Params} (ht : 1 ≤ p.t) (par : List Nat) (m : Nat) :
    coeff (lfStepReg p par m) 0 = gfmul p (lfFeedback p par m) (p.genAt 0) :=
  (coeff_map_range _ _ 0).trans (if_pos ht)

theorem coeff_lfStepReg_succ {p : Params} {j : Nat} (hj : j + 1 < p.t) (par : List Nat) (m : Nat) :
    coeff (lfStepReg p par m) (j + 1) = gfadd (coeff par j) (gfmul p (lfFeedback p par m) (p.genAt (j + 1))) :=
  (coeff_map_range _ _ (j + 1)).trans (if_pos hj)

/-! ## The commands' equations -/

theorem exec_lfclr (s : State) :
    exec .lfclr s = .next ((s.writeLfsr (List.replicate s.params.t 0) 0).respond (okResponse 0)) :=
  (complete_eq_next _ _ _).2 rfl

theorem exec_lfstep {s : State} (h : s.idx ≠ s.params.n) (ed es : EReg) :
    exec (.lfstep ed es) s = .next (((s.writeLfsr (lfStepReg s.params s.par (s.readE es)) (s.idx + 1)).writeE ed
      (lfStepOut s.params s.par s.idx (s.readE es))).respond
        (okResponse (BitVec.ofNat 32 (lfStepOut s.params s.par s.idx (s.readE es))))) :=
  (if_neg h).trans ((complete_eq_next _ _ _).2 rfl)

theorem exec_lfstep_exhausted {s : State} (h : s.idx = s.params.n) (ed es : EReg) :
    exec (.lfstep ed es) s = .next (s.afterFault 6 (encode (.lfstep ed es))) :=
  (if_pos h).trans ((raiseFault_eq_next _ _ _ _).2 rfl)

theorem exec_lfflush {s : State} (h : s.idx ≠ s.params.n) (ed : EReg) :
    exec (.lfflush ed) s = .next (((s.writeLfsr (lfFlushReg s.params s.par) (s.idx + 1)).writeE ed
      (lfFlushOut s.params s.par)).respond (okResponse (BitVec.ofNat 32 (lfFlushOut s.params s.par)))) :=
  (if_neg h).trans ((complete_eq_next _ _ _).2 rfl)

theorem exec_lfflush_exhausted {s : State} (h : s.idx = s.params.n) (ed : EReg) :
    exec (.lfflush ed) s = .next (s.afterFault 6 (encode (.lfflush ed))) :=
  (if_pos h).trans ((raiseFault_eq_next _ _ _ _).2 rfl)

/-- Settles O53: the register cell by cell, and the output by the phase. -/
theorem lfstepShiftsOrFaults : Obligations.LfstepShiftsOrFaults := by
  intro ed es s
  refine ⟨fun h => ⟨_, lfStepReg s.params s.par (s.readE es), lfStepOut s.params s.par s.idx (s.readE es), rfl,
    lfStepReg_length _ _ _, coeff_lfStepReg_zero s.cfg.t_pos _ _, fun j hj hlt => ?_, fun hmsg => if_pos hmsg,
    fun hpar => if_neg (Nat.not_lt.2 hpar), exec_lfstep h ed es⟩, fun h => exec_lfstep_exhausted h ed es⟩
  obtain ⟨i, rfl⟩ := Nat.exists_eq_add_of_le' hj
  exact coeff_lfStepReg_succ hlt _ _

/-- Settles O54: by whether the encoder is exhausted. -/
theorem lfflushShiftsOrFaults : Obligations.LfflushShiftsOrFaults := fun ed _ =>
  ⟨fun h => exec_lfflush h ed, fun h => exec_lfflush_exhausted h ed⟩

/-- Settles O55: the one write of the command, and its response. -/
theorem lfparCopies : Obligations.LfparCopies := fun _ _ => (complete_eq_next _ _ _).2 rfl

/-- Settles O56: the two symbol commands count up to N and fault there, and 0 is not N. -/
theorem exhaustionUntilClear : Obligations.ExhaustionUntilClear := by
  intro i s hi
  have hclear : ∃ t, exec .lfclr s = .next t ∧ t.idx = 0 ∧ t.idx ≠ t.params.n :=
    ⟨_, exec_lfclr s, rfl, (Nat.zero_lt_of_lt s.cfg.k_lt_n).ne⟩
  cases i with
  | lfstep ed es => exact ⟨fun h => exec_lfstep_exhausted h ed es, fun h => ⟨_, exec_lfstep h ed es, rfl⟩, hclear⟩
  | lfflush ed => exact ⟨fun h => exec_lfflush_exhausted h ed, fun h => ⟨_, exec_lfflush h ed, rfl⟩, hclear⟩
  | _ => simp [Instr.opcode] at hi

end Sys2Proof.Machine
end

section
/-! # A whole codeword

The command sequence of R186 from any state: the message goes through unchanged while the register takes it in, and the
flushes then empty the register from the top cell down. -/

namespace Sys2Proof.Machine

/-! ## Runs of commands -/

theorem execAll_cons {i : Instr} {s t : State} (h : exec i s = .next t) (is : List Instr) :
    execAll (i :: is) s = execAll is t := by
  simp only [execAll, h]

/-- A run goes on from where its first part ended. -/
theorem execAll_append {is : List Instr} {s t : State} (h : execAll is s = .next t) (js : List Instr) :
    execAll (is ++ js) s = execAll js t := by
  induction is generalizing s with
  | nil =>
    obtain rfl : s = t := Host.Outcome.next.inj h
    rfl
  | cons i is ih =>
    obtain ⟨u, -, hu, -⟩ := exec_answers_once i s
    rw [execAll_cons hu] at h
    rw [List.cons_append, execAll_cons hu, ih h]

/-- The commands `is` run from `s` to `t`, keep the parameters, and are answered with `answers`. -/
structure AnsweredRun (is : List Instr) (s t : State) (answers : List Response) : Prop where
  exec : execAll is s = .next t
  params : t.params = s.params
  responses : t.responses = s.responses ++ answers

namespace AnsweredRun

variable {is js : List Instr} {s t u : State} {as bs : List Response}

theorem nil (s : State) : AnsweredRun [] s s [] := ⟨rfl, rfl, (List.append_nil _).symm⟩

/-- One command. -/
theorem single {i : Instr} {r : Response} (h : Machine.exec i s = .next t) (hr : t.responses = s.responses ++ [r]) :
    AnsweredRun [i] s t [r] :=
  ⟨execAll_cons h [], congrArg Config.params (exec_cfg h), hr⟩

theorem append (h : AnsweredRun is s t as) (h' : AnsweredRun js t u bs) : AnsweredRun (is ++ js) s u (as ++ bs) :=
  ⟨(execAll_append h.exec js).trans h'.exec, h'.params.trans h.params,
    by rw [h'.responses, h.responses, List.append_assoc]⟩

end AnsweredRun

/-! ## The message phase -/

/-- The immediate field holds every element (D2). -/
theorem toNat_ofNat_of_lt_q {c : Config} {m : Nat} (hm : m < c.params.q) : (BitVec.ofNat 16 m).toNat = m :=
  Nat.mod_eq_of_lt (hm.trans_le c.q_le)

theorem exec_gfli_ofNat {s : State} {m : Nat} (hm : m < s.params.q) (es : EReg) :
    exec (.gfli es (BitVec.ofNat 16 m)) s = .next ((s.writeE es m).respond (okResponse 0)) := by
  have himm : (BitVec.ofNat 16 m).toNat = m := toNat_ofNat_of_lt_q (c := s.cfg) hm
  have hexec := (gfliLoadsOrFaults es (BitVec.ofNat 16 m) s).1 (himm.trans_lt hm)
  rw [himm] at hexec
  exact hexec

/-- One message symbol: it is the answer, and the register takes it in (R181). -/
theorem answeredRun_symbol {s : State} {m : Nat} (hk : s.idx < s.params.k) (hm : m < s.params.q) (ed es : EReg) :
    ∃ t, AnsweredRun [.gfli es (BitVec.ofNat 16 m), .lfstep ed es] s t [okResponse 0, okResponse (BitVec.ofNat 32 m)] ∧
      t.par = lfStepReg s.params s.par m ∧ t.idx = s.idx + 1 := by
  have hload := exec_gfli_ofNat hm es
  generalize hu : (s.writeE es m).respond (okResponse 0) = u at hload
  have hread : u.readE es = m := by simp [← hu, State.readE_writeE]
  have hout : lfStepOut u.params u.par u.idx m = m := by
    subst hu
    exact if_pos hk
  have hne : u.idx ≠ u.params.n := by
    subst hu
    exact (hk.trans s.cfg.k_lt_n).ne
  have hstep := exec_lfstep hne ed es
  rw [hread, hout] at hstep
  subst hu
  exact ⟨_, (AnsweredRun.single hload rfl).append (.single hstep rfl), rfl, rfl⟩

/-- The symbols of a message, as far as the message phase reaches. -/
theorem answeredRun_message (ed es : EReg) (msg : List Nat) : ∀ s : State, AllElems s.params msg →
    s.idx + msg.length ≤ s.params.k →
    ∃ t, AnsweredRun (msg.flatMap fun m => [.gfli es (BitVec.ofNat 16 m), .lfstep ed es]) s t
        (msg.flatMap fun m => [okResponse 0, okResponse (BitVec.ofNat 32 m)]) ∧
      t.par = msg.foldl (lfStepReg s.params) s.par ∧ t.idx = s.idx + msg.length := by
  induction msg with
  | nil => exact fun s _ _ => ⟨s, .nil s, rfl, rfl⟩
  | cons m msg ih =>
    intro s hmsg hlen
    obtain ⟨hm, hrest⟩ := List.forall_mem_cons.1 hmsg
    rw [List.length_cons] at hlen
    obtain ⟨u, hsymbol, hpar, hidx⟩ := answeredRun_symbol (by omega) hm ed es
    obtain ⟨t, hrun, hpar', hidx'⟩ := ih u (hsymbol.params ▸ hrest) (by rw [hsymbol.params, hidx]; omega)
    refine ⟨t, hsymbol.append hrun, ?_, ?_⟩
    · rw [hpar', hpar, hsymbol.params, List.foldl_cons]
    · rw [hidx', hidx, List.length_cons]
      omega

/-! ## The flushes -/

/-- A flush takes the top cell off and shifts a zero in (R182). The register is written from the top cell down, above
the zeros that earlier flushes have shifted in. -/
theorem lfFlush_top {p : Params} {i : Nat} {x : Nat} {cells : List Nat} (h : i + (x :: cells).length = p.t) :
    lfFlushOut p (List.replicate i 0 ++ (x :: cells).reverse) = x ∧
      lfFlushReg p (List.replicate i 0 ++ (x :: cells).reverse) = List.replicate (i + 1) 0 ++ cells.reverse := by
  have hlen : (List.replicate i 0 ++ cells.reverse).length = p.t - 1 := by
    simp only [List.length_cons, List.length_append, List.length_replicate, List.length_reverse] at h ⊢
    omega
  rw [List.reverse_cons, ← List.append_assoc]
  refine ⟨coeff_append_length hlen x, ?_⟩
  rw [lfFlushReg, List.take_left' hlen, List.replicate_succ, List.cons_append]

/-- As many flushes as there are cells left empty the register. -/
theorem answeredRun_flush (ed : EReg) (cells : List Nat) : ∀ (i : Nat) (s : State),
    s.par = List.replicate i 0 ++ cells.reverse → i + cells.length = s.params.t →
    s.idx + cells.length = s.params.n →
    ∃ t, AnsweredRun (List.replicate cells.length (.lfflush ed)) s t
        (cells.map fun x => okResponse (BitVec.ofNat 32 x)) ∧
      t.par = List.replicate s.params.t 0 ∧ t.idx = s.params.n := by
  induction cells with
  | nil =>
    intro i s hpar hlen hidx
    obtain rfl : i = s.params.t := hlen
    exact ⟨s, .nil s, hpar.trans (List.append_nil _), hidx⟩
  | cons x cells ih =>
    intro i s hpar hlen hidx
    obtain ⟨hout, hreg⟩ := lfFlush_top hlen
    rw [List.length_cons] at hlen hidx
    have hflush := exec_lfflush (s := s) (by omega) ed
    rw [hpar, hout, hreg] at hflush
    have hfirst := AnsweredRun.single hflush rfl
    obtain ⟨t, hrun, hend⟩ := ih (i + 1) _ rfl (by rw [hfirst.params]; omega)
      (by rw [hfirst.params, ← hidx, State.respond_idx, State.writeE_idx, State.writeLfsr_idx]; omega)
    exact ⟨t, hfirst.append hrun, hend⟩

/-- T flushes answer the register from the top cell down. -/
theorem answeredRun_flush_register {s : State} (hlen : s.par.length = s.params.t) (hidx : s.idx = s.params.k)
    (ed : EReg) :
    ∃ t, AnsweredRun (List.replicate s.params.t (.lfflush ed)) s t
        (s.par.reverse.map fun x => okResponse (BitVec.ofNat 32 x)) ∧
      t.par = List.replicate s.params.t 0 ∧ t.idx = s.params.n := by
  have hcells : s.par.reverse.length = s.params.t := List.length_reverse.trans hlen
  have hend : s.params.k + s.params.t = s.params.n := Nat.add_sub_cancel' s.cfg.k_lt_n.le
  have hrun := answeredRun_flush ed s.par.reverse 0 s (List.reverse_reverse _).symm ((Nat.zero_add _).trans hcells)
    (by rw [hcells, hidx, hend])
  rwa [hcells] at hrun

/-! ## The sequence -/

theorem length_foldl_lfStepReg (p : Params) (msg : List Nat) :
    ∀ par : List Nat, par.length = p.t → (msg.foldl (lfStepReg p) par).length = p.t := by
  induction msg with
  | nil => exact fun _ h => h
  | cons m msg ih => exact fun par _ => ih _ (lfStepReg_length p par m)

/-- Settles O57: `LFCLR`, the message phase, and the T flushes, one after the other. -/
theorem encodeSequenceEmitsMessageThenRegister : Obligations.EncodeSequenceEmitsMessageThenRegister := by
  intro ed es s msg hlen hmsg
  have hclear := AnsweredRun.single (exec_lfclr s) rfl
  obtain ⟨u, hmessage, hpar, hidx⟩ := answeredRun_message ed es msg
    ((s.writeLfsr (List.replicate s.params.t 0) 0).respond (okResponse 0)) hmsg ((Nat.zero_add _).trans_le hlen.le)
  have hparams : u.params = s.params := hmessage.params
  have hreg : u.par = msg.foldl (lfStepReg s.params) (List.replicate s.params.t 0) := hpar
  have hcount : u.idx = s.params.k := hidx.trans ((Nat.zero_add _).trans hlen)
  obtain ⟨t, hflush, hempty, hdone⟩ := answeredRun_flush_register
    (by rw [hreg, hparams, length_foldl_lfStepReg _ _ _ List.length_replicate]) (hcount.trans (by rw [hparams])) ed
  rw [hparams] at hflush hempty hdone
  rw [hreg] at hflush
  have hrun := (hclear.append hmessage).append hflush
  exact ⟨t, hrun.exec, hdone, hempty, hrun.responses⟩

end Sys2Proof.Machine
end

section
/-! # The block encoder

For a monic generator one turn of the register is a multiplication by x with the symbol added at x^T, modulo GEN, so the
register after the message is the remainder of R187. -/

namespace Sys2Proof.Machine

open Polynomial

variable {c : Config}

/-! ## Sequences one after the other -/

/-- The second sequence stands above the first one's powers. -/
theorem toPoly_append (a b : List Nat) : toPoly c (a ++ b) = toPoly c a + X ^ a.length * toPoly c b := by
  ext j
  rw [coeff_toPoly, coeff_add, coeff_X_pow_mul', coeff_toPoly]
  rcases Nat.lt_or_ge j a.length with hlt | hge
  · rw [coeff_append_of_lt hlt, if_neg (Nat.not_le.2 hlt), add_zero]
  · obtain ⟨k, rfl⟩ := Nat.exists_eq_add_of_le hge
    rw [coeff_append_add, coeff_of_length_le hge, if_pos hge, Nat.add_sub_cancel_left, coeff_toPoly, toGF_zero,
      zero_add]

theorem toPoly_singleton (m : Nat) : toPoly c [m] = C (toGF c m) := by
  simp [toPoly]

theorem coeff_append_zeros (a : List Nat) (n j : Nat) : coeff (a ++ List.replicate n 0) j = coeff a j := by
  rcases Nat.lt_or_ge j a.length with hlt | hge
  · exact coeff_append_of_lt hlt _
  · obtain ⟨k, rfl⟩ := Nat.exists_eq_add_of_le hge
    rw [coeff_append_add, coeff_replicate_zero, coeff_of_length_le hge]

/-- A sequence is the canonical one with its coefficients, padded with zeros to its length. -/
theorem Canonical.append_zeros_eq {a b : List Nat} (ha : Canonical a) (hb : 1 ≤ b.length)
    (h : ∀ j, coeff a j = coeff b j) : a ++ List.replicate (b.length - a.length) 0 = b := by
  have hlen : (a ++ List.replicate (b.length - a.length) 0).length = b.length := by
    rw [List.length_append, List.length_replicate, Nat.add_sub_cancel' (ha.length_le hb h)]
  refine List.ext_getElem hlen fun j hja hjb => ?_
  rw [← coeff_eq_getElem hja, ← coeff_eq_getElem hjb, coeff_append_zeros, h j]

/-! ## The generator -/

/-- GEN as the sequence the polynomial unit reads (R180). -/
theorem coeff_gen (p : Params) (j : Nat) : coeff p.gen j = p.genAt j := rfl

theorem isZero_gen (c : Config) : isZero c.params.gen = false :=
  Bool.eq_false_iff.2 fun h => c.gen_top ((isZero_iff_coeff _).1 h c.params.t)

/-- The generator has degree T, since GEN[T] is not zero (R6). -/
theorem t_le_degree_gen (c : Config) : (c.params.t : WithBot Nat) ≤ (toPoly c c.params.gen).degree := by
  refine le_degree_of_ne_zero ?_
  rw [coeff_toPoly, Ne, toGF_eq_zero_iff (coeff_lt c c.gen_lt _)]
  exact c.gen_top

/-! ## One turn of the register -/

/-- For a monic generator the feedback is the symbol plus the top cell (R181). -/
theorem toGF_lfFeedback (hmonic : c.params.genAt c.params.t = 1) (par : List Nat) (m : Nat) :
    toGF c (lfFeedback c.params par m) = toGF c m + toGF c (coeff par (c.params.t - 1)) := by
  rw [lfFeedback, hmonic, toGF_gfmul _ c.one_lt_q, toGF_one, mul_one, toGF_gfadd]

/-- `LFSTEP` multiplies the register by x, adds the symbol at x^T and takes the feedback's multiple of GEN away (R187);
the feedback is what stands at x^T. -/
theorem toPoly_lfStepReg (hmonic : c.params.genAt c.params.t = 1) {par : List Nat} (hlen : par.length = c.params.t)
    (m : Nat) :
    toPoly c (lfStepReg c.params par m) = X * toPoly c par + C (toGF c m) * X ^ c.params.t +
      C (toGF c (lfFeedback c.params par m)) * toPoly c c.params.gen := by
  have ht := c.t_pos
  ext j
  rw [coeff_toPoly, coeff_add, coeff_add, coeff_C_mul_X_pow, coeff_C_mul, coeff_toPoly, coeff_gen]
  cases j with
  | zero =>
    rw [coeff_lfStepReg_zero ht, toGF_gfmul _ (c.genAt_lt 0), coeff_X_mul_zero, if_neg (by omega), zero_add, zero_add]
  | succ j =>
    rw [coeff_X_mul, coeff_toPoly]
    rcases lt_trichotomy (j + 1) c.params.t with hlt | heq | hgt
    · rw [coeff_lfStepReg_succ hlt, toGF_gfadd, toGF_gfmul _ (c.genAt_lt _), if_neg hlt.ne, add_zero]
    · rw [coeff_of_length_le (by rw [lfStepReg_length, heq]), if_pos heq, heq, hmonic, toGF_one, mul_one,
        toGF_lfFeedback hmonic, toGF_zero, ← heq, Nat.add_sub_cancel, add_comm (toGF c m), GF.add_self]
    · rw [coeff_of_length_le (by rw [lfStepReg_length]; omega), coeff_of_length_le (a := par) (by omega),
        if_neg hgt.ne', ← coeff_gen, coeff_of_length_le (a := c.params.gen) (by rw [c.gen_length]; omega)]
      simp

/-! ## The whole message -/

/-- The register holds the message, read from its first symbol at the highest power down and multiplied by x^T, modulo
GEN. -/
theorem gen_dvd_foldl_sub (hmonic : c.params.genAt c.params.t = 1) (msg : List Nat) : ∀ par : List Nat,
    par.length = c.params.t →
    toPoly c c.params.gen ∣ toPoly c (msg.foldl (lfStepReg c.params) par) -
      (X ^ msg.length * toPoly c par + X ^ c.params.t * toPoly c msg.reverse) := by
  induction msg with
  | nil =>
    intro par _
    have hnil : toPoly c [] = 0 := toPoly_replicate_zero 0
    simp [hnil]
  | cons m msg ih =>
    intro par hlen
    obtain ⟨quo, hquo⟩ := ih (lfStepReg c.params par m) (lfStepReg_length _ _ _)
    rw [toPoly_lfStepReg hmonic hlen] at hquo
    refine ⟨quo + X ^ msg.length * C (toGF c (lfFeedback c.params par m)), ?_⟩
    rw [List.foldl_cons, List.reverse_cons, toPoly_append, toPoly_singleton, List.length_reverse, List.length_cons]
    linear_combination hquo

/-- A sequence of low degree that is congruent to the dividend is the remainder's (R136). -/
theorem toPoly_polyDivMod_snd_eq {a b r : List Nat} (ha : AllElems c.params a) (hb : AllElems c.params b)
    (hz : isZero b = false) (hdeg : (toPoly c r).degree < (toPoly c b).degree)
    (hdvd : toPoly c b ∣ toPoly c r - toPoly c a) : toPoly c r = toPoly c (polyDivMod c.params a b).2 := by
  have := c.fact_irreducible
  have hrem := degree_toPoly_polyDivMod_lt ha hb hz
  have hdvd' : toPoly c b ∣ toPoly c r - toPoly c (polyDivMod c.params a b).2 := by
    obtain ⟨quo, hquo⟩ := hdvd
    exact ⟨quo + toPoly c (polyDivMod c.params a b).1, by linear_combination hquo + toPoly_polyDivMod a hb⟩
  exact sub_eq_zero.1 (eq_zero_of_dvd_of_degree_lt hdvd' ((degree_sub_le _ _).trans_lt (max_lt hdeg hrem)))

/-! ## The register is the remainder -/

theorem allElems_foldl_lfStepReg (msg : List Nat) : ∀ par : List Nat, AllElems c.params par →
    AllElems c.params msg → AllElems c.params (msg.foldl (lfStepReg c.params) par) := by
  induction msg with
  | nil => exact fun _ hpar _ => hpar
  | cons m msg ih =>
    intro par hpar hmsg
    obtain ⟨hm, hrest⟩ := List.forall_mem_cons.1 hmsg
    exact ih _ (lfStepReg_lt c hpar hm) hrest

/-- R187's remainder is the register of R186 after the message. -/
theorem blockRemainder_eq_foldl (hmonic : c.params.genAt c.params.t = 1) {msg : List Nat}
    (hmsg : AllElems c.params msg) :
    blockRemainder c.params msg = msg.foldl (lfStepReg c.params) (List.replicate c.params.t 0) := by
  have hzeros := allElems_replicate_zero c c.params.t
  have hdividend : AllElems c.params (List.replicate c.params.t 0 ++ msg.reverse) :=
    List.forall_mem_append.2 ⟨hzeros, fun x hx => hmsg x (List.mem_reverse.1 hx)⟩
  have hzlen : (List.replicate c.params.t 0).length = c.params.t := List.length_replicate
  have hlen := length_foldl_lfStepReg c.params msg _ hzlen
  have hreg := allElems_foldl_lfStepReg msg _ hzeros hmsg
  have hdvd : toPoly c c.params.gen ∣ toPoly c (msg.foldl (lfStepReg c.params) (List.replicate c.params.t 0)) -
      toPoly c (List.replicate c.params.t 0 ++ msg.reverse) := by
    simpa [toPoly_append] using gen_dvd_foldl_sub hmonic msg _ hzlen
  generalize msg.foldl (lfStepReg c.params) (List.replicate c.params.t 0) = reg at hlen hreg hdvd ⊢
  have hdeg : (toPoly c reg).degree < (toPoly c c.params.gen).degree :=
    (hlen ▸ degree_toPoly_lt reg).trans_le (t_le_degree_gen c)
  have hrem := toPoly_polyDivMod_snd_eq hdividend c.gen_lt (isZero_gen c) hdeg hdvd
  have hcoeff := (toPoly_inj hreg (polyDivMod_lt c _ hdividend).2).1 hrem
  have hpad := (polyDivMod_canonical c.params _ _).2.append_zeros_eq (hlen ▸ c.t_pos) fun j => (hcoeff j).symm
  rwa [hlen] at hpad

/-- Settles O58: the answers of R186's sequence, whose register is R187's remainder. -/
theorem encodeSequenceIsBlockEncode : Obligations.EncodeSequenceIsBlockEncode := by
  intro ed es s msg hlen hmsg hmonic
  obtain ⟨t, hexec, -, -, hresponses⟩ := encodeSequenceEmitsMessageThenRegister ed es s msg hlen hmsg
  have hremainder : blockRemainder s.params msg = _ := blockRemainder_eq_foldl (c := s.cfg) hmonic hmsg
  refine ⟨t, hexec, List.take_left' hlen, ?_⟩
  rw [blockEnc, List.drop_left' hlen, hremainder]
  exact hresponses

end Sys2Proof.Machine
end

section
/-! # The system command

`CSRR` answers the value its number reads, and faults when the number reads none (R200). -/

namespace Sys2Proof.Machine

/-- The CSR numbers are 0 to 4 (R35). -/
theorem csrValue_eq_none (s : State) {number : Nat} (h : 4 < number) : s.csrValue number = none := by
  unfold State.csrValue
  split
  case h_6 => rfl
  all_goals omega

theorem exec_csrr {s : State} {csr : Imm16} {value : Word} (h : s.csrValue (immValue csr) = some value) :
    exec (.csrr csr) s = .next { s with responses := s.responses ++ [okResponse value] } := by
  change execCsrr csr s = _
  rw [execCsrr, h]
  exact (complete_eq_next _ _ _).2 rfl

theorem exec_csrr_illegal {s : State} {csr : Imm16} (h : s.csrValue (immValue csr) = none) :
    exec (.csrr csr) s = .next (s.afterFault FaultCode.illegalCmd.byte (encode (.csrr csr))) := by
  change execCsrr csr s = _
  rw [execCsrr, h]
  exact (raiseFault_eq_next _ _ _ _).2 rfl

/-- Settles O59: by what the number reads, one of the five registers or nothing. -/
theorem csrrReadsOrFaults : Obligations.CsrrReadsOrFaults := fun s =>
  ⟨exec_csrr rfl, exec_csrr rfl, exec_csrr rfl, exec_csrr rfl, exec_csrr rfl,
    fun _ hcsr => exec_csrr_illegal (csrValue_eq_none s hcsr)⟩

end Sys2Proof.Machine
end

section
/-! # Faults

When each command runs the fault procedure, what the procedure changes, and what is no fault (R210 to R213, R215,
R225). -/

namespace Sys2Proof.Machine

/-! ## The table of faults -/

/-- `r` is how the command `i` ends from `s` when its fault is `fault`: the fault procedure with that code, or, for
none, one OK response (R211). -/
inductive EndsByTable (i : Instr) (s : State) : Option FaultCode → Result → Prop
  | faults (code : FaultCode) : EndsByTable i s (some code) (raiseFault code (encode i) s)
  | completes {u : State} (data : Word) (hu : u.responses = s.responses := by rfl) :
    EndsByTable i s none (complete u data)

namespace EndsByTable

variable {i : Instr} {s : State} {code : FaultCode} {r : Result}

theorem eq_next_afterFault (h : EndsByTable i s (some code) r) : r = .next (s.afterFault code.byte (encode i)) := by
  cases h
  exact (raiseFault_eq_next _ _ _ _).2 rfl

theorem exists_okResponse (h : EndsByTable i s none r) :
    ∃ t data, r = .next t ∧ t.responses = s.responses ++ [okResponse data] := by
  cases h with
  | completes data hu => exact ⟨_, data, rfl, by rw [State.respond_responses, hu]⟩

/-- A check whose condition the table names as the fault's, before what the command may still do (R213). -/
theorem faultIf {cond stated : Prop} [Decidable cond] [Decidable stated] (h : cond ↔ stated) {fault : Option FaultCode}
    (hr : EndsByTable i s fault r) :
    EndsByTable i s (if stated then some code else fault) (if cond then raiseFault code (encode i) s else r) := by
  simp only [h]
  split
  · exact faults code
  · exact hr

/-- A check whose condition fails exactly when the table lets the command complete. -/
theorem faultUnless {cond stated : Prop} [Decidable cond] [Decidable stated] (h : cond ↔ ¬stated)
    (hr : EndsByTable i s none r) :
    EndsByTable i s (if stated then none else some code) (if cond then raiseFault code (encode i) s else r) := by
  rw [← ite_not]
  exact faultIf h hr

end EndsByTable

/-- The length `VNEW` refuses is the one outside 1 to PMAX (R137). -/
theorem lt_one_or_lt_iff (n m : Nat) : n < 1 ∨ m < n ↔ ¬(1 ≤ n ∧ n ≤ m) := by
  rw [not_and_or, Nat.not_le, Nat.not_le]

/-- A CSR number above 4 reads no value, any other reads one (R200). -/
theorem csrValue_eq_none_iff (s : State) (number : Nat) : s.csrValue number = none ↔ 4 < number := by
  refine ⟨fun h => ?_, csrValue_eq_none s⟩
  by_contra hle
  have hlt : number < 5 := by omega
  interval_cases number <;> cases h

theorem execCsrr_endsByTable (csr : Imm16) (s : State) :
    EndsByTable (.csrr csr) s (faultOf (.csrr csr) s) (execCsrr csr s) := by
  have hnone : s.csrValue (immValue csr) = none ↔ ¬csr.toNat ≤ 4 := (csrValue_eq_none_iff s _).trans Nat.not_le.symm
  unfold execCsrr
  split
  · next value hvalue =>
    have hle : csr.toNat ≤ 4 := not_not.1 (mt hnone.2 (by simp [hvalue]))
    rw [faultOf, if_pos hle]
    exact .completes value
  · next hvalue =>
    rw [faultOf, if_neg (hnone.1 hvalue)]
    exact .faults .illegalCmd

/-- Every command ends as the table says: its checks are the table's conditions, in the table's order. -/
theorem exec_endsByTable (i : Instr) (s : State) : EndsByTable i s (faultOf i s) (exec i s) := by
  cases i with
  | gfalpha | gfadd | gfsub | gfneg | gfmul | gfpow | gfrd => exact .completes _
  | vlen | padd | peval | ptrim | pisz | lfclr | lfpar => exact .completes _
  | gfli => exact .faultUnless Nat.not_lt.symm (.completes _)
  | gfdiv => exact .faultIf .rfl (.completes _)
  | vnew => exact .faultUnless (lt_one_or_lt_iff _ _) (.completes _)
  | vset | vget => exact .faultUnless Nat.not_lt.symm (.completes _)
  | pmul => exact .faultUnless Nat.not_le.symm (.completes _)
  | pdivmod => exact .faultIf .rfl (.faultIf (isZero_iff _) (.completes _))
  | bwdec => exact .faultUnless .rfl (.completes _)
  | lfstep | lfflush => exact .faultIf .rfl (.completes _)
  | csrr csr => exact execCsrr_endsByTable csr s

/-- Settles O21: by what the table of faults names. -/
theorem faultsExactlyWhenStated : Obligations.FaultsExactlyWhenStated := by
  intro i s
  have hends := exec_endsByTable i s
  refine ⟨fun c hfault => ?_, fun hnone => ?_⟩
  · rw [hfault] at hends
    exact hends.eq_next_afterFault
  · rw [hnone] at hends
    exact hends.exists_okResponse

/-! ## What a fault changes -/

/-- A command word whose response is FAULT has run the fault procedure on the state it found: from `exec`, with the
word its instruction encodes to, or from the decoder (R212, D36). -/
theorem step_of_fault_response {s t : State} {w : Word} {rest : List HostInput} {code : BitVec 8} {data : Word}
    (hport : s.port = .command w :: rest) (h : step s = .next t)
    (hr : t.responses = s.responses ++ [⟨.fault, code, data⟩]) :
    ∃ c : FaultCode, t = (s.withPort rest).afterFault c.byte w := by
  cases hdecode : decode w with
  | ok i =>
    rw [step_eq_exec_of_decode hport hdecode] at h
    obtain ⟨c, ht⟩ := exec_of_fault_response h hr
    rw [(encodeOfDecode w i hdecode).1] at ht
    exact ⟨c, ht⟩
  | error err =>
    simp only [step, hport, hdecode] at h
    exact ⟨.illegalCmd, (raiseFault_eq_next _ _ _ _).1 h⟩

/-- Settles O19: the fault procedure has run, and the code it answers is a cause's. -/
theorem faultChangesOnlyFaultRegisters : Obligations.FaultChangesOnlyFaultRegisters := by
  intro s t w rest code data hport h hr
  obtain ⟨c, rfl⟩ := step_of_fault_response hport h hr
  obtain rfl : c.byte = code := by
    simp only [State.withPort_responses, List.append_cancel_left_eq, List.cons.injEq, Response.mk.injEq,
      true_and, and_true] at hr
    exact hr.1
  exact ⟨rfl, c.byte_range⟩

/-! ## The uncorrectable decode -/

/-- The three outcomes of a decode: nothing to correct, uncorrectable, which needs an unforced decode, or the correction
(R165 to R167). -/
theorem bwDecode_cases (p : Params) (cw : List Nat) (force : Bool) :
    bwDecode p cw force = { msg := cw.take p.k, errs := 0, success := true } ∨
      (force = false ∧ bwDecode p cw force = { msg := cw.take p.k, errs := -1, success := false }) ∨
      ∃ locator f, bwDecode p cw force = bwCorrect p cw locator f := by
  rcases htrial : bwTrials p cw p.emax with ⟨e, u⟩
  rw [bwDecode_of_trial force htrial]
  rcases Nat.eq_zero_or_pos e with rfl | he
  · exact .inl (bwFinish_zero p cw force u)
  · by_cases h : isZero (polyDivMod p (trim (u.drop e)) (u.take e ++ [1])).2 = true ∨ force = true
    · exact .inr (.inr ⟨_, _, bwFinish_correct p cw he h⟩)
    · obtain ⟨hrem, hforce⟩ := not_or.1 h
      obtain rfl := Bool.eq_false_iff.2 hforce
      exact .inr (.inl ⟨rfl, bwFinish_uncorrectable p cw he (Bool.eq_false_iff.2 hrem)⟩)

theorem bwCorrect_errs_nonneg (p : Params) (cw locator f : List Nat) : 0 ≤ (bwCorrect p cw locator f).errs :=
  Int.natCast_nonneg _

/-- The count −1 is the uncorrectable outcome's alone: the others count positions (R166). -/
theorem bwDecode_of_errs_eq_neg_one {p : Params} {cw : List Nat} {force : Bool}
    (h : (bwDecode p cw force).errs = -1) :
    bwDecode p cw force = { msg := cw.take p.k, errs := -1, success := false } := by
  rcases bwDecode_cases p cw force with hzero | ⟨-, hneg⟩ | ⟨locator, f, hcorrect⟩
  · simp [hzero] at h
  · exact hneg
  · rw [hcorrect] at h
    have := bwCorrect_errs_nonneg p cw locator f
    omega

/-- A forced decode succeeds: the remainder does not end it (R167). -/
theorem bwDecode_forced_success (p : Params) (cw : List Nat) : (bwDecode p cw true).success = true := by
  rcases bwDecode_cases p cw true with hzero | ⟨hforce, -⟩ | ⟨locator, f, hcorrect⟩
  · rw [hzero]
  · cases hforce
  · rw [hcorrect, bwCorrect]

/-- Settles O50: the decoder's result with the count −1, as the command writes it. -/
theorem uncorrectableIsNoFault : Obligations.UncorrectableIsNoFault := by
  intro vd vs force s hlen
  refine ⟨fun herrs => ?_, bwDecode_forced_success s.params _⟩
  rw [exec_bwdec hlen, bwDecode_of_errs_eq_neg_one herrs]
  rfl

/-! ## Idling, and no step without a next state -/

/-- Settles O9: the empty port's branch of `step`. -/
theorem idleKeepsAllState : Obligations.IdleKeepsAllState := by
  intro s hport
  rw [step, hport]

/-- Settles O10: by what stands at the port; a command is always answered. -/
theorem everyStepAnswersNext : Obligations.EveryStepAnswersNext := by
  refine ⟨fun s => ?_, fun i s => ?_⟩
  · match hport : s.port with
    | [] => exact ⟨s, idleKeepsAllState s hport⟩
    | .reset :: rest => exact ⟨takeReset (s.withPort rest), by rw [step, hport]⟩
    | .command w :: rest =>
      obtain ⟨t, -, ht, -⟩ := step_answers_once hport
      exact ⟨t, ht⟩
  · obtain ⟨t, -, ht, -⟩ := exec_answers_once i s
    exact ⟨t, ht⟩

end Sys2Proof.Machine
end

section
/-! # Reset

A reset between commands takes the values of R37, and `LFCLR` brings the encoder to the same state (R240, R241). -/

namespace Sys2Proof.Machine

theorem step_reset {s : State} {rest : List HostInput} (hport : s.port = .reset :: rest) :
    step s = .next (takeReset (s.withPort rest)) := by
  rw [step, hport]

/-- `LFCLR` writes to the encoder the values that reset gives it (R241). -/
theorem exec_lfclr_resetOf (s : State) :
    exec .lfclr s =
      .next ((s.writeLfsr (State.resetOf s.cfg).par (State.resetOf s.cfg).idx).respond (okResponse 0)) :=
  exec_lfclr s

/-- Settles O7: the state that a reset takes, field by field. -/
theorem resetInputTakesResetValues : Obligations.ResetInputTakesResetValues := by
  intro s rest hport
  obtain ⟨he, hv, hpar, hidx, hfcause, hfcmd, hbwerrs, hbwsucc⟩ := resetValues s.cfg
  exact ⟨takeReset (s.withPort rest), step_reset hport, he, hv, hpar, hidx, hfcause, hfcmd, hbwerrs, hbwsucc,
    takeReset_cfg _, takeReset_responses _, takeReset_port _⟩

/-- Settles O52: the command's equation; the two values it writes are those of reset. -/
theorem lfclrClears : Obligations.LfclrClears := fun s =>
  ⟨_, exec_lfclr_resetOf s, rfl, rfl, rfl⟩

end Sys2Proof.Machine
end

section
/-! # The words of the spec's examples

Each word written out in 40 to 44 is the word the encoder makes of its instruction, so it decodes to it (R70 to R76). -/

namespace Sys2Proof

/-- Settles O5: each word computes as its instruction's encoding, and decoding undoes encoding. -/
theorem specWordsDecode : Obligations.SpecWordsDecode :=
  ⟨decodeOfEncode (.gfli 1 5) rfl, decodeOfEncode (.gfmul 0 1 2) rfl, decodeOfEncode (.gfpow 0 1 3) rfl,
    decodeOfEncode (.vset 0 1 2) rfl, decodeOfEncode (.pdivmod 3 1 2 4) rfl, decodeOfEncode (.bwdec 2 1 false) rfl,
    decodeOfEncode (.lfstep 2 1) rfl, decodeOfEncode (.csrr 4) rfl⟩

end Sys2Proof
end
